-- ==== Sys2Proof/Word.lean ====
section
/-!
DEFINITION. The word types of the BTE (00_scope.md R8, R10, R11) and their plainest readings.
-/

namespace Sys2Proof

/-- A byte of DMEM (20_memory.md R40). -/
abbrev Byte := BitVec 8

/-- An i16 / u16 (00_scope.md R8). -/
abbrev Half := BitVec 16

/-- A u32 or i32: command words, addresses, registers, coefficients (00_scope.md R8, R9). -/
abbrev Word := BitVec 32

/-- A binary32 value held as its image `bits32(f)` (00_scope.md R10, R11).
A type of its own, so that integer and float arithmetic cannot be mixed up. -/
structure F32 where
  /-- `bits32(f)` of R11. -/
  bits : Word
  deriving DecidableEq, Repr, Inhabited

/-- A binary64 value held as its image (00_scope.md R10, R13). -/
structure F64 where
  /-- The 64 bits of the value. -/
  bits : BitVec 64
  deriving DecidableEq, Repr, Inhabited

/-- +0.0 in binary32. -/
def F32.zero : F32 := ⟨0x00000000#32⟩

end Sys2Proof
end

