-- ==== Sys2Proof/Syntax.lean ====
section
/-!
DEFINITION. The commands of the BTE (30_encoding.md R57 to R60): one constructor per row of
spec/opcode_table.json, its operands as R59 assembles them. The pseudo-instructions of R65 expand
to lists of them.
-/

namespace Sys2Proof

/-- The KIND of a transform context (10_state.md R32). -/
inductive XfKind where
  | none
  | fft
  | rdft
  | dct
  deriving DecidableEq, Repr

/-- A block position word `pos` (30_encoding.md R59): `bx` = pos[15:0] and `by` = pos[31:16],
unsigned block coordinates. -/
structure BlockPos where
  /-- `bx`, the column in 8-pixel units. -/
  bx : Half
  /-- `by`, the row in 8-pixel units. -/
  brow : Half
  deriving DecidableEq, Repr

/-- A context index `c` = zext_8(FA), legal 0..3 (30_encoding.md R59). -/
abbrev CtxIdx := Fin 4

/-- A plane index `p` = zext_8(FA), 0 Y, 1 U, 2 V, 3 A (30_encoding.md R59). -/
abbrev PlaneIdx := Fin 4

/-- The commands of 30_encoding.md R60. -/
inductive Instr where
  /-- NOP, 40_control.md R68. -/
  | nop
  /-- END, 40_control.md R69. -/
  | endList
  /-- XF_CFG c, kind, type, bits: 41_transform_fft.md R73. -/
  | xfCfg (c : CtxIdx) (kind : XfKind) (type : BitVec 2) (bits : BitVec 8)
  /-- XF_PERM c, addr: 41_transform_fft.md R74. -/
  | xfPerm (c : CtxIdx) (addr : Word)
  /-- XF_CALC c, addr: 41_transform_fft.md R75. -/
  | xfCalc (c : CtxIdx) (addr : Word)
  /-- AUD_CFG rate, flags: 44_audio.md R113. -/
  | audCfg (rate flags : Half)
  /-- AUD_PKT src, avail, dst, cap: 44_audio.md R117. -/
  | audPkt (src avail dst cap : Word)
  /-- MC_SKIP p, bx, by: 43_motion.md R102. -/
  | mcSkip (p : PlaneIdx) (pos : BlockPos)
  /-- MC_MOTION p, bx, by, dx, dy: 43_motion.md R103. -/
  | mcMotion (p : PlaneIdx) (dx dy : BitVec 8) (pos : BlockPos)
  /-- MC_RESIDUE p, bx, by, dx, dy, blk: 43_motion.md R104. -/
  | mcResidue (p : PlaneIdx) (dx dy : BitVec 8) (pos : BlockPos) (blk : Word)
  /-- MC_IDCT_PUT p, bx, by, blk: 43_motion.md R107. -/
  | mcIdctPut (p : PlaneIdx) (pos : BlockPos) (blk : Word)
  /-- MC_IDCT_ADD p, bx, by, blk: 43_motion.md R108. -/
  | mcIdctAdd (p : PlaneIdx) (pos : BlockPos) (blk : Word)
  /-- MC_IDCT blk: 43_motion.md R109. -/
  | mcIdct (blk : Word)
  /-- MC_DEQUANT blk, qtab: 43_motion.md R110. -/
  | mcDequant (blk qtab : Word)
  /-- MC_SWAP: 43_motion.md R111. -/
  | mcSwap
  deriving DecidableEq, Repr

/-- K, the number of argument words (30_encoding.md R58). -/
def Instr.argCount : Instr → Nat
  | .nop | .endList | .xfCfg .. | .mcSwap => 0
  | .xfPerm .. | .xfCalc .. | .audCfg .. | .mcSkip .. | .mcMotion .. | .mcIdct .. => 1
  | .mcResidue .. | .mcIdctPut .. | .mcIdctAdd .. | .mcDequant .. => 2
  | .audPkt .. => 4

/-- The command length in bytes, 4 × (1 + K) (30_encoding.md R58). -/
def Instr.length (i : Instr) : Nat := 4 * (1 + i.argCount)

/-- The pseudo-instructions of 30_encoding.md R65. -/
inductive Pseudo where
  | fft (c : CtxIdx) (addr : Word)
  | xfOff (c : CtxIdx)
  | mcIntra (p : PlaneIdx) (pos : BlockPos) (blk qtab : Word)
  | mcInter (p : PlaneIdx) (pos : BlockPos) (blk qtab : Word)
  deriving DecidableEq, Repr

/-- The expansions of 30_encoding.md R65. -/
def Pseudo.expand : Pseudo → List Instr
  | .fft c addr => [.xfPerm c addr, .xfCalc c addr]
  | .xfOff c => [.xfCfg c .none 0#2 0#8]
  | .mcIntra p pos blk qtab => [.mcDequant blk qtab, .mcIdctPut p pos blk]
  | .mcInter p pos blk qtab => [.mcDequant blk qtab, .mcIdctAdd p pos blk]

end Sys2Proof
end

