-- ==== Sys2Proof/WellFormed.lean ====
section
/-!
DEFINITION. Which terms of `Instr` are commands: the XF_CFG combinations of 30_encoding.md R60. The
index ranges of R59 and the field widths hold by the types of `Instr`.
-/

namespace Sys2Proof

/-- The legal (kind, type, bits) combinations of 30_encoding.md R60: (NONE, 0) with bits = 0;
(FFT, 0 or 1); (RDFT, 0..3); (DCT, 0..3). The size range is no part of it: it is checked at
execution (41_transform_fft.md R73). -/
def xfCombinationOk (kind : XfKind) (type : BitVec 2) (bits : BitVec 8) : Bool :=
  match kind with
  | .none => type == 0#2 && bits == 0#8
  | .fft => type == 0#2 || type == 1#2
  | .rdft => true
  | .dct => true

/-- A well-formed command. -/
def Instr.wellFormed : Instr → Bool
  | .nop => true
  | .endList => true
  | .xfCfg _ kind type bits => xfCombinationOk kind type bits
  | .xfPerm _ _ => true
  | .xfCalc _ _ => true
  | .audCfg _ _ => true
  | .audPkt _ _ _ _ => true
  | .mcSkip _ _ => true
  | .mcMotion _ _ _ _ => true
  | .mcResidue _ _ _ _ _ => true
  | .mcIdctPut _ _ _ => true
  | .mcIdctAdd _ _ _ => true
  | .mcIdct _ => true
  | .mcDequant _ _ => true
  | .mcSwap => true

end Sys2Proof
end

