-- ==== Sys2Proof/Decode.lean ====
section
/-!
DEFINITION. Reading commands from bytes (30_encoding.md R57 to R63), rejecting by name, and the
encoder written from the same tables (R60, R64). Also the little-endian byte order of 20_memory.md R44.
-/

namespace Sys2Proof

/-! ### Byte order -/

/-- The u32 whose bytes in ascending address order are `b0 b1 b2 b3` (20_memory.md R44). -/
def wordOfBytes (b0 b1 b2 b3 : Byte) : Word := b3 ++ b2 ++ b1 ++ b0

/-- The bytes of a u32 in ascending address order (20_memory.md R44). -/
def bytesOfWord (w : Word) : List Byte :=
  [w.extractLsb' 0 8, w.extractLsb' 8 8, w.extractLsb' 16 8, w.extractLsb' 24 8]

/-- The bytes of a u16 in ascending address order (20_memory.md R44). -/
def bytesOfHalf (h : Half) : List Byte := [h.extractLsb' 0 8, h.extractLsb' 8 8]

/-- A sequence of u32 words as bytes in ascending address order. -/
def bytesOfWords (ws : List Word) : List Byte := ws.flatMap bytesOfWord

/-! ### The header -/

/-- Why a command is rejected: R62 of 30_encoding.md, item by item. -/
inductive Reject where
  /-- R62 item 1: the opcode is not in R60. -/
  | undefinedOpcode
  /-- R62 item 2: a field marked 0 in R60 is nonzero. -/
  | reservedField
  /-- R62 item 3: a context or plane index exceeds 3. -/
  | badIndex
  /-- R62 item 4: XF_CFG's reserved bits, or an illegal (kind, type, bits). -/
  | badXfCombination
  /-- Fewer bytes than the command's header and arguments need. -/
  | truncated
  deriving DecidableEq, Repr

/-- A decoded header: the command without its argument words. -/
inductive Header where
  | nop
  | endList
  | xfCfg (c : CtxIdx) (kind : XfKind) (type : BitVec 2) (bits : BitVec 8)
  | xfPerm (c : CtxIdx)
  | xfCalc (c : CtxIdx)
  | audCfg
  | audPkt
  | mcSkip (p : PlaneIdx)
  | mcMotion (p : PlaneIdx) (dx dy : BitVec 8)
  | mcResidue (p : PlaneIdx) (dx dy : BitVec 8)
  | mcIdctPut (p : PlaneIdx)
  | mcIdctAdd (p : PlaneIdx)
  | mcIdct
  | mcDequant
  | mcSwap
  deriving DecidableEq, Repr

/-- OPC = h[7:0] (R57). -/
def opcField (h : Word) : BitVec 8 := h.extractLsb' 0 8

/-- FA = h[15:8] (R57). -/
def faField (h : Word) : BitVec 8 := h.extractLsb' 8 8

/-- FB = h[23:16] (R57). -/
def fbField (h : Word) : BitVec 8 := h.extractLsb' 16 8

/-- FC = h[31:24] (R57). -/
def fcField (h : Word) : BitVec 8 := h.extractLsb' 24 8

/-- The header word with the given fields (R57). -/
def headerWord (opc fa fb fc : BitVec 8) : Word := fc ++ fb ++ fa ++ opc

/-- A context or plane index: zext_8(FA), legal 0..3 (R59). -/
def indexOf (fa : BitVec 8) : Option (Fin 4) :=
  if h : fa.toNat < 4 then some ⟨fa.toNat, h⟩ else none

/-- The field FA that names an index. -/
def indexField (i : Fin 4) : BitVec 8 := BitVec.ofNat 8 i.val

/-- The kind codes of 10_state.md R32. -/
def XfKind.code : XfKind → BitVec 2
  | .none => 0#2
  | .fft => 1#2
  | .rdft => 2#2
  | .dct => 3#2

/-- The kind with the given code. -/
def kindOfCode (k : BitVec 2) : XfKind :=
  if k = 0#2 then .none else if k = 1#2 then .fft else if k = 2#2 then .rdft else .dct

/-- XF_CFG's kind/type byte: FB[1:0] is the type, FB[5:4] the kind, FB[3:2] and FB[7:6] are 0 (R59). -/
def xfByte (kind : XfKind) (type : BitVec 2) : BitVec 8 := 0#2 ++ kind.code ++ 0#2 ++ type

/-- A header without fields: FA, FB and FC must be 0 (R60, R62 item 2). -/
def plainHeader (h : Word) (hd : Header) : Except Reject Header :=
  if faField h = 0#8 ∧ fbField h = 0#8 ∧ fcField h = 0#8 then .ok hd else .error .reservedField

/-- A header whose only field is an index in FA: FB and FC must be 0 (R60, R62 items 2 and 3). -/
def indexHeader (h : Word) (mk : Fin 4 → Header) : Except Reject Header :=
  if fbField h = 0#8 ∧ fcField h = 0#8 then
    match indexOf (faField h) with
    | some i => .ok (mk i)
    | none => .error .badIndex
  else .error .reservedField

/-- A header with an index in FA and a motion vector in FB and FC (R60, R62 item 3). -/
def vectorHeader (h : Word) (mk : Fin 4 → BitVec 8 → BitVec 8 → Header) : Except Reject Header :=
  match indexOf (faField h) with
  | some i => .ok (mk i (fbField h) (fcField h))
  | none => .error .badIndex

/-- XF_CFG's header (R59, R60, R62 items 3 and 4). -/
def xfCfgHeader (h : Word) : Except Reject Header :=
  match indexOf (faField h) with
  | none => .error .badIndex
  | some c =>
    let fb := fbField h
    let kind := kindOfCode (fb.extractLsb' 4 2)
    let type := fb.extractLsb' 0 2
    if fb.extractLsb' 2 2 = 0#2 ∧ fb.extractLsb' 6 2 = 0#2 ∧
        xfCombinationOk kind type (fcField h) then
      .ok (.xfCfg c kind type (fcField h))
    else .error .badXfCombination

/-- The opcode map (30_encoding.md R60); everything else is illegal (R62, R63). -/
def decodeHeader (h : Word) : Except Reject Header :=
  let opc := opcField h
  if opc = 0x01#8 then plainHeader h .nop
  else if opc = 0x02#8 then plainHeader h .endList
  else if opc = 0x10#8 then xfCfgHeader h
  else if opc = 0x11#8 then indexHeader h .xfPerm
  else if opc = 0x12#8 then indexHeader h .xfCalc
  else if opc = 0x20#8 then plainHeader h .audCfg
  else if opc = 0x21#8 then plainHeader h .audPkt
  else if opc = 0x30#8 then indexHeader h .mcSkip
  else if opc = 0x31#8 then vectorHeader h .mcMotion
  else if opc = 0x32#8 then vectorHeader h .mcResidue
  else if opc = 0x33#8 then indexHeader h .mcIdctPut
  else if opc = 0x34#8 then indexHeader h .mcIdctAdd
  else if opc = 0x35#8 then plainHeader h .mcIdct
  else if opc = 0x36#8 then plainHeader h .mcDequant
  else if opc = 0x37#8 then plainHeader h .mcSwap
  else .error .undefinedOpcode

/-- K, the number of argument words: a function of the opcode alone (R58). -/
def Header.argCount : Header → Nat
  | .nop | .endList | .xfCfg .. | .mcSwap => 0
  | .xfPerm _ | .xfCalc _ | .audCfg | .mcSkip _ | .mcMotion .. | .mcIdct => 1
  | .mcResidue .. | .mcIdctPut _ | .mcIdctAdd _ | .mcDequant => 2
  | .audPkt => 4

/-! ### Argument words -/

/-- The block position word (R59): bx = pos[15:0], by = pos[31:16]. -/
def posOfWord (w : Word) : BlockPos := ⟨w.extractLsb' 0 16, w.extractLsb' 16 16⟩

/-- The word of a block position (R59). -/
def BlockPos.word (pos : BlockPos) : Word := pos.brow ++ pos.bx

/-- AUD_CFG's argument word (R59): rate = arg[15:0], flags = arg[31:16]. -/
def audCfgWord (rate flags : Half) : Word := flags ++ rate

/-- The command of a header and its argument words (R59, R60); `none` where their number is not K. -/
def Header.build : Header → List Word → Option Instr
  | .nop, [] => some .nop
  | .endList, [] => some .endList
  | .xfCfg c kind type bits, [] => some (.xfCfg c kind type bits)
  | .xfPerm c, [addr] => some (.xfPerm c addr)
  | .xfCalc c, [addr] => some (.xfCalc c addr)
  | .audCfg, [arg] => some (.audCfg (arg.extractLsb' 0 16) (arg.extractLsb' 16 16))
  | .audPkt, [src, avail, dst, cap] => some (.audPkt src avail dst cap)
  | .mcSkip p, [pos] => some (.mcSkip p (posOfWord pos))
  | .mcMotion p dx dy, [pos] => some (.mcMotion p dx dy (posOfWord pos))
  | .mcResidue p dx dy, [pos, blk] => some (.mcResidue p dx dy (posOfWord pos) blk)
  | .mcIdctPut p, [pos, blk] => some (.mcIdctPut p (posOfWord pos) blk)
  | .mcIdctAdd p, [pos, blk] => some (.mcIdctAdd p (posOfWord pos) blk)
  | .mcIdct, [blk] => some (.mcIdct blk)
  | .mcDequant, [blk, qtab] => some (.mcDequant blk qtab)
  | .mcSwap, [] => some .mcSwap
  | _, _ => none

/-- The first `n` little-endian words of a byte sequence, and the bytes after them. -/
def takeWords : Nat → List Byte → Option (List Word × List Byte)
  | 0, bs => some ([], bs)
  | n + 1, b0 :: b1 :: b2 :: b3 :: bs =>
    match takeWords n bs with
    | some (ws, rest) => some (wordOfBytes b0 b1 b2 b3 :: ws, rest)
    | none => none
  | _ + 1, _ => none

/-- The decoder: the first command of a byte sequence and the bytes after it, or why there is none.
An illegal header is rejected before any argument word is looked at (R62). -/
def decode (bs : List Byte) : Except Reject (Instr × List Byte) :=
  match takeWords 1 bs with
  | some ([h], rest) =>
    match decodeHeader h with
    | .error r => .error r
    | .ok hd =>
      match takeWords hd.argCount rest with
      | some (args, rest') =>
        match hd.build args with
        | some i => .ok (i, rest')
        | none => .error .truncated
      | none => .error .truncated
  | _ => .error .truncated

/-! ### The encoder -/

/-- The header word of a command (30_encoding.md R60, R64). -/
def encodeHeader : Instr → Word
  | .nop => headerWord 0x01#8 0#8 0#8 0#8
  | .endList => headerWord 0x02#8 0#8 0#8 0#8
  | .xfCfg c kind type bits => headerWord 0x10#8 (indexField c) (xfByte kind type) bits
  | .xfPerm c _ => headerWord 0x11#8 (indexField c) 0#8 0#8
  | .xfCalc c _ => headerWord 0x12#8 (indexField c) 0#8 0#8
  | .audCfg _ _ => headerWord 0x20#8 0#8 0#8 0#8
  | .audPkt _ _ _ _ => headerWord 0x21#8 0#8 0#8 0#8
  | .mcSkip p _ => headerWord 0x30#8 (indexField p) 0#8 0#8
  | .mcMotion p dx dy _ => headerWord 0x31#8 (indexField p) dx dy
  | .mcResidue p dx dy _ _ => headerWord 0x32#8 (indexField p) dx dy
  | .mcIdctPut p _ _ => headerWord 0x33#8 (indexField p) 0#8 0#8
  | .mcIdctAdd p _ _ => headerWord 0x34#8 (indexField p) 0#8 0#8
  | .mcIdct _ => headerWord 0x35#8 0#8 0#8 0#8
  | .mcDequant _ _ => headerWord 0x36#8 0#8 0#8 0#8
  | .mcSwap => headerWord 0x37#8 0#8 0#8 0#8

/-- The argument words of a command (30_encoding.md R60, R64). -/
def encodeArgs : Instr → List Word
  | .nop => []
  | .endList => []
  | .xfCfg _ _ _ _ => []
  | .xfPerm _ addr => [addr]
  | .xfCalc _ addr => [addr]
  | .audCfg rate flags => [audCfgWord rate flags]
  | .audPkt src avail dst cap => [src, avail, dst, cap]
  | .mcSkip _ pos => [pos.word]
  | .mcMotion _ _ _ pos => [pos.word]
  | .mcResidue _ _ _ pos blk => [pos.word, blk]
  | .mcIdctPut _ pos blk => [pos.word, blk]
  | .mcIdctAdd _ pos blk => [pos.word, blk]
  | .mcIdct blk => [blk]
  | .mcDequant blk qtab => [blk, qtab]
  | .mcSwap => []

/-- The words of a well-formed command: its header, then its arguments (R57). -/
def encodeWords (i : Instr) : List Word := encodeHeader i :: encodeArgs i

/-- The bytes of a well-formed command in ascending address order. -/
def encode (i : Instr) : List Byte := bytesOfWords (encodeWords i)

/-! ### The host's question -/

/-- The longest command, AUD_PKT, in bytes (R58). -/
def maxCommandBytes : Nat := 20

/-- The bytes of a command whose bits are `w`, numbered as spec/opcode_table.json numbers them,
every bit from `nbits` up being 0; the first byte lies at the lowest address (R44, R57). -/
def tableBytes (nbits w : Nat) : List Byte :=
  (List.range maxCommandBytes).map fun k => BitVec.ofNat 8 ((w % 2 ^ nbits) >>> (8 * k))

/-- What the decoder reads from a command whose bits are `w` (see `tableBytes`). -/
def decodeTableWord (nbits w : Nat) : Option Instr :=
  match decode (tableBytes nbits w) with
  | .ok (i, _) => some i
  | .error _ => none

end Sys2Proof
end

