-- ==== Sys2Proof/Machine/Float.lean ====
section
/-!
DEFINITION. IEEE 754 arithmetic of 00_scope.md R10, R11 and R13: a value is unpacked, the result
computed exactly, and narrowed once with round-to-nearest-ties-to-even. No fused operation, no flush
of subnormals, no flags.

A NaN result is `0x7FC00000` inside the model. Its sign and payload are a draw (R10); since no
command reads them, they are drawn where a NaN is written to DMEM (Machine/Ops.lean, log entry 4).
-/

namespace Sys2Proof.Machine

open Sys2Proof

/-- A floating-point datum, exactly: `fin neg m e` is ±m·2^e, a signed zero where m = 0. -/
inductive FNum where
  | nan
  | inf (neg : Bool)
  | fin (neg : Bool) (mant : Nat) (exp : Int)
  deriving DecidableEq, Repr

/-- Exact negation; a NaN stays one. -/
def FNum.neg : FNum → FNum
  | .nan => .nan
  | .inf n => .inf (!n)
  | .fin n m e => .fin (!n) m e

/-- The integer ±m. -/
def signedInt (neg : Bool) (m : Nat) : Int := if neg then -(m : Int) else (m : Int)

/-- The exact sum. An exact zero is +0 unless both operands are negative zeros
(round-to-nearest-even, IEEE 754). -/
def FNum.add : FNum → FNum → FNum
  | .nan, _ => .nan
  | _, .nan => .nan
  | .inf n1, .inf n2 => if n1 == n2 then .inf n1 else .nan
  | .inf n1, .fin _ _ _ => .inf n1
  | .fin _ _ _, .inf n2 => .inf n2
  | .fin n1 m1 e1, .fin n2 m2 e2 =>
    let e := min e1 e2
    let s := signedInt n1 (m1 <<< (e1 - e).toNat) + signedInt n2 (m2 <<< (e2 - e).toNat)
    if s = 0 then .fin (n1 && n2) 0 e else .fin (decide (s < 0)) s.natAbs e

/-- The exact product. -/
def FNum.mul : FNum → FNum → FNum
  | .nan, _ => .nan
  | _, .nan => .nan
  | .inf n1, .inf n2 => .inf (n1 ^^ n2)
  | .inf n1, .fin n2 m2 _ => if m2 = 0 then .nan else .inf (n1 ^^ n2)
  | .fin n1 m1 _, .inf n2 => if m1 = 0 then .nan else .inf (n1 ^^ n2)
  | .fin n1 m1 e1, .fin n2 m2 e2 => .fin (n1 ^^ n2) (m1 * m2) (e1 + e2)

/-- How many quotient bits `FNum.div` and `FNum.sqrt` keep before their sticky bit: more than twice a
binary64 significand, so that the one rounding after them is the rounding of the exact result. -/
def guardBits : Nat := 128

/-- The quotient, to `guardBits` bits and a sticky bit: it rounds to binary32 and binary64 as the
exact quotient of two binary64 values does. -/
def FNum.div : FNum → FNum → FNum
  | .nan, _ => .nan
  | _, .nan => .nan
  | .inf _, .inf _ => .nan
  | .inf n1, .fin n2 _ _ => .inf (n1 ^^ n2)
  | .fin n1 _ _, .inf n2 => .fin (n1 ^^ n2) 0 0
  | .fin n1 m1 e1, .fin n2 m2 e2 =>
    if m2 = 0 then (if m1 = 0 then .nan else .inf (n1 ^^ n2))
    else
      let a := m1 <<< guardBits
      .fin (n1 ^^ n2) (2 * (a / m2) + if a % m2 = 0 then 0 else 1) (e1 - e2 - guardBits - 1)

/-- Bit by bit integer square root: the greatest r with r² ≤ a, r < 2^k. -/
def isqrtBits (a : Nat) : Nat → Nat → Nat
  | 0, r => r
  | k + 1, r => let r' := r + 2 ^ k; if r' * r' ≤ a then isqrtBits a k r' else isqrtBits a k r

/-- The square root, to `guardBits` bits and a sticky bit: it rounds to binary64 as the exact root of
a binary64 value does. A zero keeps its sign; any other negative datum has none (IEEE 754). -/
def FNum.sqrt : FNum → FNum
  | .nan => .nan
  | .inf neg => if neg then .nan else .inf false
  | .fin neg m e =>
    if m = 0 then .fin neg 0 e
    else if neg then .nan
    else
      let h := e / 2
      let a := (m <<< (e - 2 * h).toNat) <<< (2 * guardBits)
      let r := isqrtBits a (guardBits + 64) 0
      .fin false (2 * r + if r * r = a then 0 else 1) (h - guardBits - 1)

/-- m / 2^k rounded to the nearest integer, ties to even. -/
def rneShift (m k : Nat) : Nat :=
  let d := 2 ^ k
  let q := m / d
  let r := m % d
  if 2 * r < d then q else if d < 2 * r then q + 1 else q + q % 2

/-- The exponent of the least significant bit of a format's subnormals: -149 for binary32. -/
def lsbExp (eb fb : Nat) : Int := 2 - 2 ^ (eb - 1) - (fb : Int)

/-- The datum of a `1 + eb + fb`-bit IEEE interchange format. -/
def unpackNat (eb fb w : Nat) : FNum :=
  let frac := w % 2 ^ fb
  let e := (w / 2 ^ fb) % 2 ^ eb
  let neg := w.testBit (eb + fb)
  let emin := lsbExp eb fb
  if e = 2 ^ eb - 1 then (if frac = 0 then .inf neg else .nan)
  else if e = 0 then .fin neg frac emin
  else .fin neg (2 ^ fb + frac) ((e : Int) - 1 + emin)

/-- `rne`: the datum rounded to nearest, ties to even, as the word of the format; overflow gives an
infinity (R10). -/
def packNat (eb fb : Nat) : FNum → Nat
  | .nan => (2 ^ eb - 1) <<< fb + 2 ^ (fb - 1)
  | .inf neg => (if neg then 2 ^ (eb + fb) else 0) + (2 ^ eb - 1) <<< fb
  | .fin neg m e =>
    let sign := if neg then 2 ^ (eb + fb) else 0
    if m = 0 then sign
    else
      let emin := lsbExp eb fb
      let q := max (e + (m.log2 : Int) - (fb : Int)) emin
      let r := if q ≤ e then m <<< (e - q).toNat else rneShift m (q - e).toNat
      sign + min ((q - emin).toNat <<< fb + r) ((2 ^ eb - 1) <<< fb)

/-! ### binary32 -/

/-- The value of a binary32 (R11). -/
def f32Num (x : F32) : FNum := unpackNat 8 23 x.bits.toNat

/-- `rne32` (R10). -/
def rne32 (x : FNum) : F32 := ⟨BitVec.ofNat 32 (packNat 8 23 x)⟩

/-- The binary32 sum (R10). -/
def fadd (a b : F32) : F32 := rne32 ((f32Num a).add (f32Num b))

/-- The binary32 difference (R10). -/
def fsub (a b : F32) : F32 := rne32 ((f32Num a).add (f32Num b).neg)

/-- The binary32 product (R10). -/
def fmul (a b : F32) : F32 := rne32 ((f32Num a).mul (f32Num b))

/-- Unary minus flips the sign bit exactly (R10). -/
def fneg (a : F32) : F32 := ⟨a.bits ^^^ 0x80000000#32⟩

/-- Whether a binary32 is a NaN. -/
def isNaN32 (x : F32) : Bool :=
  x.bits.extractLsb' 23 8 == 0xFF#8 && x.bits.extractLsb' 0 23 != 0#23

/-- `f32(n)`: an integer converted with rne32 (R11). -/
def f32OfNat (n : Nat) : F32 := rne32 (.fin false n 0)

/-- 0.5 in binary32. -/
def f32Half : F32 := ⟨0x3F000000#32⟩

/-- 2.0 in binary32. -/
def f32Two : F32 := ⟨0x40000000#32⟩

/-! ### binary64 -/

/-- The value of a binary64. -/
def f64Num (x : F64) : FNum := unpackNat 11 52 x.bits.toNat

/-- `rne64` (R10). -/
def rne64 (x : FNum) : F64 := ⟨BitVec.ofNat 64 (packNat 11 52 x)⟩

/-- `PI64` (R13): the binary64 value nearest π. -/
def PI64 : F64 := ⟨0x400921FB54442D18#64⟩

/-- The integer n, exactly. -/
def numOfNat (n : Nat) : FNum := .fin false n 0

/-- The real 2^k, exactly. -/
def numPow2 (k : Int) : FNum := .fin false 1 k

/-! ### Floor and float-to-integer rounding -/

/-- floor(±m·2^e). -/
def floorFin (neg : Bool) (m : Nat) (e : Int) : Int :=
  if 0 ≤ e then signedInt neg (m <<< e.toNat) else signedInt neg m / (2 ^ (-e).toNat : Nat)

/-- floor(x + 0.5) with x + 0.5 exact (44_audio.md R127, HALF_UP). -/
def roundHalfUp (neg : Bool) (m : Nat) (e : Int) : Int :=
  match (FNum.fin neg m e).add (.fin false 1 (-1)) with
  | .fin n' m' e' => floorFin n' m' e'
  | _ => 0

/-- Round to the nearest integer, ties to even (44_audio.md R127, HALF_EVEN). -/
def roundHalfEven (neg : Bool) (m : Nat) (e : Int) : Int :=
  if 0 ≤ e then signedInt neg (m <<< e.toNat) else signedInt neg (rneShift m (-e).toNat)

end Sys2Proof.Machine
end

