-- ==== Sys2Proof/Config.lean ====
section
/-!
DEFINITION. What an implementation of the BTE fixes (00_scope.md R6) and the values the spec leaves
free (R10, R127, R129, R144). The parameters are data that State carries, so that every theorem about a
state holds for every legal choice of them; the free values are opaque constants.
-/

namespace Sys2Proof

/-- `ZERO_SIGN_BIT` of R6: whether a sign bit follows a zero magnitude (44_audio.md R125). -/
inductive ZeroSign where
  | absent
  | present
  deriving DecidableEq, Repr

/-- `PCM_ROUND` of R6: the float-to-int16 rounding (44_audio.md R127). -/
inductive PcmRound where
  | halfUp
  | halfEven
  deriving DecidableEq, Repr

/-- The parameters of 00_scope.md R6.

`COS64`, `SIN64` and `EXPF` are total functions; State is plain data, so each is held as the finite
list of the arguments at which it differs from its default, with its value there (every function on
64-bit or 32-bit words is such a list over the default; log entry 2, DESIGN CHOICE, safe). -/
structure Params where
  /-- `DMEM_SIZE`: bytes of data memory. -/
  dmemSize : Nat
  /-- `QUANT_EXP_K`, the image of a finite binary32. -/
  quantExpK : Word
  /-- `QUANT_VALUE_MAX`, 0..255. -/
  quantValueMax : BitVec 8
  /-- `DCT_BLOCK_SKIP_BITS`, 0..31. -/
  dctBlockSkipBits : BitVec 5
  /-- `ZERO_SIGN_BIT`. -/
  zeroSignBit : ZeroSign
  /-- `PCM_ROUND`. -/
  pcmRound : PcmRound
  /-- Where `COS64` differs from the correctly rounded cosine. -/
  cos64 : List (BitVec 64 × BitVec 64)
  /-- Where `SIN64` differs from the correctly rounded sine. -/
  sin64 : List (BitVec 64 × BitVec 64)
  /-- Where `EXPF` differs from the correctly rounded exponential. -/
  exp32 : List (Word × Word)
  deriving DecidableEq, Repr

/-- The defaults of 00_scope.md R6. -/
def Params.default : Params where
  dmemSize := 0x01000000
  quantExpK := 0x3E1C8FA1#32
  quantValueMax := 95#8
  dctBlockSkipBits := 2#5
  zeroSignBit := .absent
  pcmRound := .halfUp
  cos64 := []
  sin64 := []
  exp32 := []

/-- The legal values of 00_scope.md R6 (the other fields' types hold legal values only). A theorem
that needs a legal parameter takes this as a premise (log entry 14). -/
abbrev Params.Legal (p : Params) : Prop :=
  p.dmemSize % 4096 = 0 ∧ 4096 ≤ p.dmemSize ∧ p.dmemSize ≤ 2 ^ 31 ∧
    p.quantExpK.extractLsb' 23 8 ≠ 0xFF#8

/-- FREE VALUE (R144, U6 of 93_implementation_defined.md): what DMEM holds at an address since
power-on, where nothing has written it. Log entry 8. -/
opaque Config.powerOnByte : Nat → Byte

/-- FREE VALUE (R10, U4): the sign (bit 23) and fraction (bits 22:0) of the n-th NaN the machine
writes to DMEM. Log entries 4 and 5. -/
opaque Config.nanDraw : Nat → BitVec 24

/-- FREE VALUE (R127, U5): the int16 that the n-th drawn PCM sample takes when its float is a NaN.
Log entry 6. -/
opaque Config.pcmDraw : Nat → Half

/-- FREE VALUE: ERRINFO of a BIT_OVERRUN at a bit position of 2^32 or more, which does not fit its 32
bits (60_exceptions.md R129 states no truncation for it). Log entry 25. -/
opaque Config.bitPosFar : Nat → Word

end Sys2Proof
end

