-- ==== Sys2Proof/Machine/State.lean ====
section
/-!
DEFINITION. The state of the BTE: the tuple of 10_state.md R16 as plain data, the model's own fields
(parameters, draw counter, host moves), the reasons a step can stop, and the state after reset
(70_reset_and_hazards.md R143, R144).
-/

namespace Sys2Proof.Machine

open Sys2Proof

/-- A transform context XCTX[c] (10_state.md R32): the elements XKIND, XTYPE and XBITS of R16. -/
structure Context where
  /-- XKIND[c], XCTX bits 1:0. -/
  kind : XfKind
  /-- XTYPE[c], XCTX bits 5:4. -/
  type : BitVec 2
  /-- XBITS[c], XCTX bits 12:8. -/
  bits : BitVec 5
  deriving DecidableEq, Repr

/-- The reset value of a context: KIND = NONE, TYPE = 0, BITS = 0 (R32). -/
def Context.off : Context := ⟨.none, 0#2, 0#5⟩

/-- The CODEC field of ACFG (10_state.md R33): 0 RDFT, 1 DCT. -/
inductive Codec where
  | rdft
  | dct
  deriving DecidableEq, Repr

/-- The audio track (10_state.md R16, R33 to R37). -/
structure Track where
  /-- ACFG bit 0. -/
  valid : Bool
  /-- ACFG bit 1. -/
  first : Bool
  /-- ACFG bit 2. -/
  fault : Bool
  /-- ACFG bit 3. -/
  codec : Codec
  /-- ACFG bits 5:4, the internal channel count. -/
  ch : BitVec 2
  /-- ACFG bits 7:6, the output channel count. -/
  outCh : BitVec 2
  /-- ACFG bits 31:16. -/
  rate : Half
  /-- AFRAMELEN (R34). -/
  frameLen : Word
  /-- AOVERLAP (R34). -/
  overlap : Word
  /-- ABLOCKSIZE (R34). -/
  blockSize : Word
  /-- ABANDS (R34). -/
  nBands : Word
  /-- AROOT, the binary32 scale 2/sqrt(F) (R34). -/
  root : F32
  /-- AXBITS (R34). -/
  xfBits : Word
  /-- AEFFRATE (R34). -/
  effRate : Word
  /-- APKTLEN (R35). -/
  pktLen : Word
  /-- AREPORTED (R35). -/
  reported : Word
  /-- AOUTCNT (R35). -/
  outCnt : Word
  /-- ANEXT (R35). -/
  next : Word
  /-- BANDS[0..25], ABAND[i] (R36). -/
  bands : Vector Word 26
  /-- PREV[0..255], APREV[k] (R37). -/
  prev : Vector Half 256
  deriving DecidableEq, Repr

/-- The track after reset: no track (R143). -/
def Track.off : Track where
  valid := false
  first := false
  fault := false
  codec := .rdft
  ch := 0#2
  outCh := 0#2
  rate := 0#16
  frameLen := 0#32
  overlap := 0#32
  blockSize := 0#32
  nBands := 0#32
  root := F32.zero
  xfBits := 0#32
  effRate := 0#32
  pktLen := 0#32
  reported := 0#32
  outCnt := 0#32
  next := 0#32
  bands := Vector.replicate 26 0#32
  prev := Vector.replicate 256 0#16

/-- The width of a host access to MMIO. Only aligned words have a move (20_memory.md R51). -/
inductive AccessWidth where
  | byte
  | half
  | word
  deriving DecidableEq, Repr

/-- What the host may do between two sequencer steps (70_reset_and_hazards.md R147). Log entry 10. -/
inductive HostMove where
  /-- The host lets the sequencer take one step. -/
  | wait
  /-- An MMIO read at an offset of the 4096-byte window (10_state.md R19). -/
  | mmioRead (width : AccessWidth) (offset : BitVec 12)
  /-- An MMIO write. -/
  | mmioWrite (width : AccessWidth) (offset : BitVec 12) (value : Word)
  /-- A read of one byte of DMEM (R147). -/
  | dmemRead (addr : Word)
  /-- A write of one byte of DMEM (R147). -/
  | dmemWrite (addr : Word) (value : Byte)
  /-- Reset while powered (R143, R144). -/
  | reset
  deriving DecidableEq, Repr

/-- DMEM: the bytes written since power-on as (address, byte) pairs, addresses strictly rising.
An address not listed has not been written (log entry 8). -/
abbrev Memory := List Host.Cell

/-- The state of the machine. -/
structure State where
  /-- The parameters of 00_scope.md R6. No step changes them (log entry 1). -/
  params : Params
  /-- DMEM (20_memory.md R40). -/
  dmem : Memory
  /-- STATUS bit 0 (10_state.md R25). -/
  busy : Bool
  /-- STATUS bit 1 (R25). -/
  done : Bool
  /-- STATUS bit 2 (R25). -/
  err : Bool
  /-- CTRL bit 1 (R23). -/
  irqEn : Bool
  /-- CMDPTR, the program counter (R18). -/
  cmdptr : Word
  /-- ERRCODE[7:0] (R26). -/
  errCode : BitVec 8
  /-- ERRPC (R26). -/
  errPc : Word
  /-- ERRINFO (R26). -/
  errInfo : Word
  /-- CUR, PLANESEL bit 0 (R27). -/
  cur : Fin 2
  /-- PBASE[b][p] (R29). -/
  pbase : Vector (Vector Word 4) 2
  /-- PW[p], PDIM[p] bits 15:0 (R30). -/
  pw : Vector Half 4
  /-- PH[p], PDIM[p] bits 31:16 (R30). -/
  ph : Vector Half 4
  /-- PITCH[p], PPITCH[p] bits 15:0 (R31). -/
  pitch : Vector Half 4
  /-- XCTX[c] (R32). -/
  ctx : Vector Context 4
  /-- The audio track (R33 to R37). -/
  track : Track
  /-- MODEL'S OWN: how many free values have been drawn (log entry 7). -/
  draws : Nat
  /-- MODEL'S OWN: the host's pending moves, the next one first (log entry 10). -/
  host : List HostMove
  /-- MODEL'S OWN: the value the host's last read move returned (log entry 10). -/
  hostRdata : Word
  deriving DecidableEq, Repr

/-- A step that stops the model. -/
inductive Fault where
  /-- Raised by an MC command if a plane region it reads or writes leaves DMEM although its checks
  passed (43_motion.md R98 to R100 derive that none does). Safe: the model stops where the spec
  says nothing. Log entry 15. -/
  | dmemOutside (addr : Nat)
  deriving DecidableEq, Repr

/-- A step the model has no meaning for. -/
inductive Refusal where
  /-- Raised by an arm of `exec` whose instruction has no meaning yet. Safe. -/
  | notModelled (mnemonic : String)
  /-- Raised by a host DMEM move while BUSY = 1: the spec gives it no move (70_reset_and_hazards.md
  R146, U10). Safe. -/
  | hostDmemWhileBusy (addr : Word)
  /-- Raised by a host DMEM move outside DMEM, where there is no byte (20_memory.md R42). Safe.
  Log entry 11. -/
  | hostDmemOutside (addr : Word)
  /-- Raised by a byte, halfword or misaligned MMIO move: the spec gives it no move (20_memory.md
  R51, U11). Safe. -/
  | hostMmioAccess (offset : BitVec 12)
  deriving DecidableEq, Repr

/-- The state right after power-on reset (70_reset_and_hazards.md R143, R144), with the parameters
at their defaults (00_scope.md R6) and no host move pending. -/
def State.reset : State where
  params := Params.default
  dmem := []
  busy := false
  done := false
  err := false
  irqEn := false
  cmdptr := 0x00000000#32
  errCode := 0#8
  errPc := 0#32
  errInfo := 0#32
  cur := 0
  pbase := Vector.replicate 2 (Vector.replicate 4 0#32)
  pw := Vector.replicate 4 0#16
  ph := Vector.replicate 4 0#16
  pitch := Vector.replicate 4 0#16
  ctx := Vector.replicate 4 Context.off
  track := Track.off
  draws := 0
  host := []
  hostRdata := 0#32

end Sys2Proof.Machine
end

