-- ==== Sys2Proof/Machine/Ops.lean ====
section
/-!
DEFINITION. The named operations over memory and registers: reading and writing DMEM
(20_memory.md R44 to R47), drawing free values (00_scope.md R10), completing a command
(40_control.md R66), ending a run (R69) and taking an error (60_exceptions.md R132), which is this
machine's only exception entry. There is no return from one (R133): the host's START (10_state.md
R24) is `startRun`.
-/

namespace Sys2Proof.Machine

open Sys2Proof

/-- What a step or a command answers. -/
abbrev Out := Host.Outcome State Fault Refusal

/-! ### DMEM -/

/-- The byte written at an address since power-on, if any. -/
def lookupByte : Memory → Nat → Option Byte
  | [], _ => none
  | (a, v) :: rest, x => if a = x then some v else lookupByte rest x

/-- What an address that nothing has written reads as: the power-on draw (R144, log entry 8). -/
def unlisted (a : Nat) : Byte := Config.powerOnByte a

/-- `MemRead(a, 1)` (00_scope.md R12): the byte of DMEM at `a`. -/
def readByte (s : State) (a : Nat) : Byte :=
  match lookupByte s.dmem a with
  | some v => v
  | none => unlisted a

/-- The n bytes at a .. a+n-1. -/
def readBytes (s : State) (a n : Nat) : List Byte := (List.range n).map fun k => readByte s (a + k)

/-- Bytes in ascending address order as an unsigned little-endian integer (R12, R44). -/
def natOfBytes : List Byte → Nat
  | [] => 0
  | b :: bs => b.toNat + 256 * natOfBytes bs

/-- `MemRead(a, 4)` as a u32 (R12, R44). -/
def readWord (s : State) (a : Nat) : Word :=
  wordOfBytes (readByte s a) (readByte s (a + 1)) (readByte s (a + 2)) (readByte s (a + 3))

/-- The n words at a, a+4, ... -/
def readWords (s : State) (a n : Nat) : List Word :=
  (List.range n).map fun k => readWord s (a + 4 * k)

/-- The cells of consecutive bytes from `a` on. -/
def cellsAt : Nat → List Byte → Memory
  | _, [] => []
  | a, b :: bs => (a, b) :: cellsAt (a + 1) bs

/-- Memory with the given bytes at a, a+1, ... -/
def storeMem (m : Memory) (a : Nat) (bs : List Byte) : Memory :=
  m.filter (fun c => c.1 < a) ++ cellsAt a bs ++ m.filter (fun c => a + bs.length ≤ c.1)

/-- `MemWrite` of consecutive bytes (R12, R44). -/
def store (s : State) (a : Nat) (bs : List Byte) : State := { s with dmem := storeMem s.dmem a bs }

/-- The canonical form of memory: addresses strictly rising. An unlisted address holds no written
value, so no entry equals what it reads as (log entry 8). -/
abbrev Memory.wf (m : Memory) : Prop := m.Pairwise fun c d => c.1 < d.1

/-- Every listed address lies in a DMEM of `size` bytes (20_memory.md R42). -/
abbrev Memory.within (size : Nat) (m : Memory) : Prop := ∀ c ∈ m, c.1 < size

/-- A region of `len` bytes at `a` is inside DMEM iff a + len ≤ DMEM_SIZE (R47). -/
def inDmem (s : State) (a len : Nat) : Bool := decide (a + len ≤ s.params.dmemSize)

/-! ### Floats in DMEM -/

/-- The image of a NaN with the drawn sign and fraction; a fraction of 0 would be an infinity and
stands for the quiet bit alone (log entry 5). -/
def nanImage (d : BitVec 24) : Word :=
  let frac := d.extractLsb' 0 23
  d.extractLsb' 23 1 ++ 0xFF#8 ++ (if frac = 0#23 then 0x400000#23 else frac)

/-- `bits32(f)` as written to DMEM: a NaN's sign and payload are the draw number `n` (R10). -/
def floatImage (n : Nat) (f : F32) : Word := if isNaN32 f then nanImage (Config.nanDraw n) else f.bits

/-- The images of consecutive floats, drawing from number `n` on. -/
def floatImages : Nat → List F32 → List Word
  | _, [] => []
  | n, f :: fs => floatImage n f :: floatImages (n + 1) fs

/-- `MemWriteF` of consecutive floats (R12). Each element uses up one draw number. -/
def storeFloats (s : State) (a : Nat) (fs : List F32) : State :=
  { store s a (bytesOfWords (floatImages s.draws fs)) with draws := s.draws + fs.length }

/-- `MemReadF` of n consecutive floats (R12). -/
def readFloats (s : State) (a n : Nat) : List F32 := (readWords s a n).map F32.mk

/-! ### CMDPTR -/

/-- Bits 1:0 of CMDPTR and ERRPC are hardwired to 0 (10_state.md R18, R26). -/
def alignWord (w : Word) : Word := w &&& 0xFFFFFFFC#32

/-- The address after a command with K argument words: a + 4·(1+K) (40_control.md R66). -/
def nextCommand (a : Word) (k : Nat) : Word := a + BitVec.ofNat 32 (4 * (1 + k))

/-- A command with K argument words completes: CMDPTR advances (40_control.md R66). -/
def complete (k : Nat) (s : State) : Out := .next { s with cmdptr := nextCommand s.cmdptr k }

/-- END's effect (40_control.md R69). -/
def endRun (s : State) : State :=
  { s with cmdptr := nextCommand s.cmdptr 0, busy := false, done := true }

/-! ### Errors -/

/-- The errors of 60_exceptions.md R129. -/
inductive BteError where
  | illegal
  | fetch
  | addr
  | align
  | xfBits
  | xfCtx
  | audCfg
  | audState
  | audPktLen
  | bitOverrun
  | audOutOvf
  | mcGeom
  | mcBlock
  | mcBounds
  deriving DecidableEq, Repr

/-- The error codes of 60_exceptions.md R129. -/
def errorCode : BteError → BitVec 8
  | .illegal => 1#8
  | .fetch => 2#8
  | .addr => 3#8
  | .align => 4#8
  | .xfBits => 5#8
  | .xfCtx => 6#8
  | .audCfg => 7#8
  | .audState => 8#8
  | .audPktLen => 9#8
  | .bitOverrun => 10#8
  | .audOutOvf => 11#8
  | .mcGeom => 12#8
  | .mcBlock => 13#8
  | .mcBounds => 14#8

/-- Taking an error (60_exceptions.md R132): CMDPTR holds the address a of the command's header, so
`CMDPTR <- a` leaves it. Nothing else changes. -/
def takeError (e : BteError) (info : Word) (s : State) : State :=
  { s with errCode := errorCode e, errPc := s.cmdptr, errInfo := info, busy := false, err := true }

/-- `raise <Error>(info)` (00_scope.md R12). -/
def raise (e : BteError) (info : Word) (s : State) : Out := .next (takeError e info s)

/-- One check of a command's rule: where it holds the command goes on, else it raises (R131). -/
def check (ok : Bool) (e : BteError) (info : Word) (s : State) (k : Out) : Out :=
  if ok then k else raise e info s

/-- START's effect (10_state.md R24), less IRQEN. -/
def startRun (s : State) : State :=
  { s with done := false, err := false, errCode := 0#8, errPc := 0#32, errInfo := 0#32, busy := true }

/-- Reset while powered (70_reset_and_hazards.md R143, R144): every register at its reset value;
DMEM, the parameters and the model's own fields stay. -/
def warmReset (s : State) : State :=
  { State.reset with params := s.params, dmem := s.dmem, draws := s.draws, host := s.host,
                     hostRdata := s.hostRdata }

end Sys2Proof.Machine
end

