-- ==== Sys2Proof/Machine/Flags.lean ====
section
/-!
DEFINITION. The register views of the state: STATUS, CTRL and the IRQ output (10_state.md R23, R25,
60_exceptions.md R135), and every other register of the map R19 that packs fields. No command sets a
condition code; STATUS holds the only flags.
-/

namespace Sys2Proof.Machine

open Sys2Proof

/-- IRQ = IRQEN and (DONE or ERR) (60_exceptions.md R135). -/
def irq (s : State) : Bool := s.irqEn && (s.done || s.err)

/-- STATUS (10_state.md R25). -/
def statusWord (s : State) : Word :=
  0#28 ++ BitVec.ofBool (irq s) ++ BitVec.ofBool s.err ++ BitVec.ofBool s.done ++ BitVec.ofBool s.busy

/-- CTRL (10_state.md R23): START reads 0. -/
def ctrlWord (s : State) : Word := 0#30 ++ BitVec.ofBool s.irqEn ++ 0#1

/-- PLANESEL (10_state.md R27). -/
def planeselWord (s : State) : Word := BitVec.ofNat 32 s.cur.val

/-- PDIM[p] (10_state.md R30). -/
def pdimWord (s : State) (p : PlaneIdx) : Word := s.ph[p] ++ s.pw[p]

/-- PPITCH[p] (10_state.md R31). -/
def ppitchWord (s : State) (p : PlaneIdx) : Word := 0#16 ++ s.pitch[p]

/-- XCTX[c] (10_state.md R32). -/
def xctxWord (x : Context) : Word := 0#19 ++ x.bits ++ 0#2 ++ x.type ++ 0#2 ++ x.kind.code

/-- The CODEC bit of ACFG (10_state.md R33). -/
def codecBit : Codec → BitVec 1
  | .rdft => 0#1
  | .dct => 1#1

/-- ACFG (10_state.md R33). -/
def acfgWord (t : Track) : Word :=
  t.rate ++ 0#8 ++ t.outCh ++ t.ch ++ codecBit t.codec ++ BitVec.ofBool t.fault ++
    BitVec.ofBool t.first ++ BitVec.ofBool t.valid

/-- PREV[i] as the host reads it: entries at or beyond OVERLAP × CH read 0 (10_state.md R37). -/
def prevRead (t : Track) (i : Nat) : Half :=
  if i < t.overlap.toNat * t.ch.toNat then t.prev.toArray.getD i 0#16 else 0#16

/-- APREV[k] (10_state.md R37). -/
def aprevWord (t : Track) (k : Nat) : Word := prevRead t (2 * k + 1) ++ prevRead t (2 * k)

/-- ABAND[i]: entries i > NBANDS read 0 (10_state.md R36). -/
def abandWord (t : Track) (i : Nat) : Word :=
  if i ≤ t.nBands.toNat then t.bands.toArray.getD i 0#32 else 0#32

end Sys2Proof.Machine
end

