-- ==== Sys2Proof/Machine/Operands.lean ====
section
/-!
DEFINITION. The operand forms: address operands and their checks (20_memory.md R46, R47), transform
buffers (41_transform_fft.md R72), planes, blocks and motion vectors (43_motion.md R98 to R101).
-/

namespace Sys2Proof.Machine

open Sys2Proof

/-- `addr mod n = 0` (20_memory.md R46). -/
def alignedTo (n : Nat) (a : Word) : Bool := a.toNat % n == 0

/-- ALIGN, then ADDR, of one operand region (20_memory.md R46, R47; the order of 60_exceptions.md R131). -/
def checkRegion (align len : Nat) (a : Word) (s : State) (k : Out) : Out :=
  check (alignedTo align a) .align a s (check (inDmem s a.toNat len) .addr a s k)

/-! ### Transform contexts -/

/-- Context c (10_state.md R32). -/
def context (s : State) (c : CtxIdx) : Context := s.ctx[c]

/-- How many binary32 elements context c's buffer holds (41_transform_fft.md R72): two per FFT
point, n for RDFT and DCT, n + 1 for DCT_I. -/
def bufferElems (x : Context) : Nat :=
  match x.kind with
  | .none => 0
  | .fft => 2 * 2 ^ x.bits.toNat
  | .rdft => 2 ^ x.bits.toNat
  | .dct => if x.type = 0#2 then 2 ^ x.bits.toNat + 1 else 2 ^ x.bits.toNat

/-- `XBYTES(c)` (41_transform_fft.md R72). -/
def bufferBytes (x : Context) : Nat := 4 * bufferElems x

/-- The size range of XF_CFG's check 2 (41_transform_fft.md R73). -/
def bitsInRange (kind : XfKind) (bits : BitVec 8) : Bool :=
  match kind with
  | .none => true
  | .fft => decide (4 ≤ bits.toNat ∧ bits.toNat ≤ 16)
  | .rdft => decide (5 ≤ bits.toNat ∧ bits.toNat ≤ 16)
  | .dct => decide (5 ≤ bits.toNat ∧ bits.toNat ≤ 14)

/-! ### Planes -/

/-- BW(p) = (PW[p] + 7) >> 3 (43_motion.md R98). -/
def planeBW (s : State) (p : PlaneIdx) : Nat := (s.pw[p].toNat + 7) / 8

/-- BH(p) = (PH[p] + 7) >> 3 (R98). -/
def planeBH (s : State) (p : PlaneIdx) : Nat := (s.ph[p].toNat + 7) / 8

/-- PITCH[p] (10_state.md R31). -/
def planePitch (s : State) (p : PlaneIdx) : Nat := s.pitch[p].toNat

/-- PBASE[b][p] (10_state.md R29). -/
def planeBase (s : State) (b : Fin 2) (p : PlaneIdx) : Nat := (s.pbase[b])[p].toNat

/-- The buffer that is not current: 1 - CUR (10_state.md R27). -/
def otherBuffer (b : Fin 2) : Fin 2 := 1 - b

/-- CURBASE(p) (R98). -/
def curBase (s : State) (p : PlaneIdx) : Nat := planeBase s s.cur p

/-- OLDBASE(p) (R98). -/
def oldBase (s : State) (p : PlaneIdx) : Nat := planeBase s (otherBuffer s.cur) p

/-- EXTENT(p) = PITCH[p]·8·BH(p) (R98). -/
def planeExtent (s : State) (p : PlaneIdx) : Nat := planePitch s p * 8 * planeBH s p

/-- Plane p is valid (R98). -/
def planeValid (s : State) (p : PlaneIdx) : Bool :=
  decide (1 ≤ planeBW s p) && decide (1 ≤ planeBH s p) &&
    decide (8 * planeBW s p ≤ planePitch s p) &&
    inDmem s (planeBase s 0 p) (planeExtent s p) && inDmem s (planeBase s 1 p) (planeExtent s p)

/-- The word that names plane p in ERRINFO (60_exceptions.md R129, MC_GEOM). -/
def planeWord (p : PlaneIdx) : Word := BitVec.ofNat 32 p.val

/-- A block position is legal iff bx < BW(p) and by < BH(p) (R99). -/
def blockLegal (s : State) (p : PlaneIdx) (pos : BlockPos) : Bool :=
  decide (pos.bx.toNat < planeBW s p) && decide (pos.brow.toNat < planeBH s p)

/-- DST = CURBASE(p) + 8·by·PITCH[p] + 8·bx (R99). -/
def blockDst (s : State) (p : PlaneIdx) (pos : BlockPos) : Nat :=
  curBase s p + 8 * pos.brow.toNat * planePitch s p + 8 * pos.bx.toNat

/-- The reference offset o = (8·by + dy)·PITCH[p] + 8·bx + dx, on unbounded integers; dx and dy are
signed 8-bit (R100). -/
def refOffset (s : State) (p : PlaneIdx) (pos : BlockPos) (dx dy : BitVec 8) : Int :=
  (8 * (pos.brow.toNat : Int) + dy.toInt) * (planePitch s p : Int) + 8 * (pos.bx.toNat : Int) + dx.toInt

/-- o_max = 8·(BW(p) - 1) + 8·PITCH[p]·(BH(p) - 1) (R100). -/
def refOffsetMax (s : State) (p : PlaneIdx) : Int :=
  8 * ((planeBW s p : Int) - 1) + 8 * (planePitch s p : Int) * ((planeBH s p : Int) - 1)

/-- The reference is legal iff 0 ≤ o ≤ o_max (R100). -/
def refLegal (s : State) (p : PlaneIdx) (pos : BlockPos) (dx dy : BitVec 8) : Bool :=
  decide (0 ≤ refOffset s p pos dx dy) && decide (refOffset s p pos dx dy ≤ refOffsetMax s p)

/-- MC_BOUNDS's info word: o mod 2^32, two's complement (R100). -/
def refInfo (s : State) (p : PlaneIdx) (pos : BlockPos) (dx dy : BitVec 8) : Word :=
  BitVec.ofInt 32 (refOffset s p pos dx dy)

/-- REF = OLDBASE(p) + o (43_motion.md R103). -/
def refBase (s : State) (p : PlaneIdx) (pos : BlockPos) (dx dy : BitVec 8) : Nat :=
  oldBase s p + (refOffset s p pos dx dy).toNat

/-- MC_GEOM, then MC_BLOCK (43_motion.md R98, R99). -/
def checkBlock (p : PlaneIdx) (pos : BlockPos) (s : State) (k : Out) : Out :=
  check (planeValid s p) .mcGeom (planeWord p) s (check (blockLegal s p pos) .mcBlock pos.word s k)

/-- MC_BOUNDS (43_motion.md R100). -/
def checkBounds (p : PlaneIdx) (pos : BlockPos) (dx dy : BitVec 8) (s : State) (k : Out) : Out :=
  check (refLegal s p pos dx dy) .mcBounds (refInfo s p pos dx dy) s k

/-! ### Pixel blocks -/

/-- Pixel (r, c) of a block whose first pixel is at `base` (R99). -/
def pixelAddr (base pitch r c : Nat) : Nat := base + r * pitch + c

/-- The 64 bytes of a block in raster order. -/
def readBlock (s : State) (base pitch : Nat) : List Byte :=
  (List.range 8).flatMap fun r => readBytes s (base + r * pitch) 8

/-- Writing the 64 bytes of a block, row by row. -/
def writeBlock (s : State) (base pitch : Nat) (px : List Byte) : State :=
  (List.range 8).foldl (fun s r => store s (base + r * pitch) ((px.drop (8 * r)).take 8)) s

/-- The eight rows of a block lie inside DMEM. -/
def blockInDmem (s : State) (base pitch : Nat) : Bool :=
  (List.range 8).all fun r => inDmem s (base + r * pitch) 8

/-- A block is touched only inside DMEM; that a command's checks ensure it is derived in R99 and
R100 (log entry 15). -/
def touchBlock (base pitch : Nat) (s : State) (k : Out) : Out :=
  if blockInDmem s base pitch then k else .fault (.dmemOutside base)

/-! ### Coefficient blocks -/

/-- The 64 i32 words of a coefficient block or quantizer table, raster order (R101). -/
def readCoefs (s : State) (blk : Word) : List Word := readWords s blk.toNat 64

/-- The checks of a coefficient block or quantizer table (R101). -/
def checkCoefs (blk : Word) (s : State) (k : Out) : Out := checkRegion 4 256 blk s k

end Sys2Proof.Machine
end

