-- ==== Sys2Proof/Machine/Trig.lean ====
section
/-!
DEFINITION. The library functions of 00_scope.md R13 (`COS64`, `SIN64`, `SQRT64`, `EXPF`, parameters
of R6) and the tables built from them: the cosine table of 41_transform_fft.md R76, the sine table
of 42_transform_rdft_dct.md R88 and the cosecant table of R91.

The defaults are the correctly rounded functions. They are computed from their power series in
fixed point with `seriesBits` fraction bits and rounded once; an argument of the cosine or the sine
beyond 2 is first reduced by multiples of π/2 (log entry 3).
-/

namespace Sys2Proof.Machine

open Sys2Proof

/-- Fraction bits of the fixed-point series. -/
def seriesBits : Nat := 256

/-- How many terms of a series are summed: the first one left out is below 2^-256 for |x| ≤ 2. -/
def seriesTerms : Nat := 40

/-- The alternating series t - t·x²/(a(a+1)) + ..., in fixed point, x² given; `a` is the first
factor of the next denominator. -/
def altSeries (xx : Nat) : Nat → Nat → Nat → Bool → Int → Int
  | 0, _, _, _, acc => acc
  | k + 1, t, a, plus, acc =>
    altSeries xx k (t * xx / 2 ^ seriesBits / (a * (a + 1))) (a + 2) (!plus)
      (if plus then acc + (t : Int) else acc - (t : Int))

/-- The series 1 + x + x²/2 + ..., in fixed point; `a` is the next denominator. -/
def expSeries (x : Nat) : Nat → Nat → Nat → Nat → Nat
  | 0, _, _, acc => acc
  | k + 1, t, a, acc => expSeries x k (t * x / 2 ^ seriesBits / a) (a + 1) (acc + t)

/-- m·2^e in fixed point (exact where e ≥ -seriesBits). -/
def toFixed (m : Nat) (e : Int) : Nat :=
  if 0 ≤ e + seriesBits then m <<< (e + seriesBits).toNat else m >>> (-(e + seriesBits)).toNat

/-- A fixed-point integer as a datum. -/
def numOfFixed (v : Int) : FNum := .fin (decide (v < 0)) v.natAbs (-(seriesBits : Int))

/-- Whether m·2^e ≤ 2. -/
def atMostTwo (m : Nat) (e : Int) : Bool := m = 0 || decide ((m.log2 : Int) + e ≤ 0) ||
  (decide ((m.log2 : Int) + e = 1) && m == 2 ^ m.log2)

/-- Whether m·2^e < 2^-40: there sin x rounds to x and cos x to 1 in binary64. -/
def isTiny (m : Nat) (e : Int) : Bool := m = 0 || decide ((m.log2 : Int) + e < -40)

/-! ### Cosine and sine -/

/-- The cosine of a fixed-point number of at most 2. -/
def cosFixed (v : Nat) : Int :=
  altSeries (v * v / 2 ^ seriesBits) seriesTerms (2 ^ seriesBits) 1 true 0

/-- The sine of a fixed-point number of at most 2. -/
def sinFixed (v : Nat) : Int := altSeries (v * v / 2 ^ seriesBits) seriesTerms v 2 true 0

/-- Fraction bits of the argument reduction. Its quotient is below 2^1024, so the error of π/2 moves
the remainder by less than 2^-430, and no binary64 is so near a multiple of π/2. -/
def reduceBits : Nat := 1472

/-- arctan(1/n) = 1/n - 1/(3n³) + ..., with `reduceBits` fraction bits: `t` is the next power of 1/n,
`a` the next denominator. -/
def arctanSeries (n : Nat) : Nat → Nat → Nat → Bool → Int → Int
  | 0, _, _, _, acc => acc
  | k + 1, t, a, plus, acc =>
    arctanSeries n k (t / (n * n)) (a + 2) (!plus)
      (if plus then acc + (t / a : Nat) else acc - (t / a : Nat))

/-- arctan(1/n) for n ≥ 5, with `reduceBits` fraction bits. -/
def arctanInverse (n : Nat) : Int := arctanSeries n 320 (2 ^ reduceBits / n) 1 true 0

/-- π/2 with `reduceBits` fraction bits: π/4 = 4·arctan(1/5) - arctan(1/239). -/
def halfPi : Nat := (8 * arctanInverse 5 - 2 * arctanInverse 239).toNat

/-- m·2^e as k·(π/2) + v: k, and v in fixed point. Up to 2 the number is its own remainder. -/
def reduceAngle (m : Nat) (e : Int) : Nat × Nat :=
  if atMostTwo m e then (0, toFixed m e)
  else
    let x := m <<< (e + reduceBits).toNat
    (x / halfPi, x % halfPi / 2 ^ (reduceBits - seriesBits))

/-- cos(k·(π/2) + v), v in fixed point and at most 2. -/
def cosQuarter (k v : Nat) : Int :=
  match k % 4 with
  | 0 => cosFixed v
  | 1 => -sinFixed v
  | 2 => -cosFixed v
  | _ => sinFixed v

/-- The correctly rounded cosine (R13, log entry 3). An infinity or a NaN gives a NaN (R10). -/
def cosDefault (x : F64) : F64 :=
  match f64Num x with
  | .fin _ m e =>
    if isTiny m e then rne64 (numPow2 0)
    else
      let (k, v) := reduceAngle m e
      rne64 (numOfFixed (cosQuarter k v))
  | _ => rne64 .nan

/-- The correctly rounded sine (R13, log entry 3): odd, and for x ≥ 0 the cosine of x - π/2, which is
the cosine three quarters on. An infinity or a NaN gives a NaN (R10). -/
def sinDefault (x : F64) : F64 :=
  match f64Num x with
  | .fin neg m e =>
    if isTiny m e then x
    else
      let (k, v) := reduceAngle m e
      let r := numOfFixed (cosQuarter (k + 3) v)
      rne64 (if neg then r.neg else r)
  | _ => rne64 .nan

/-! ### Exponential -/

/-- Squaring a fixed-point number k times. -/
def squareTimes : Nat → Nat → Nat
  | 0, v => v
  | k + 1, v => squareTimes k (v * v / 2 ^ seriesBits)

/-- e^y in fixed point for 0 ≤ y < 128: the series of y/256, squared eight times. -/
def expFixed (m : Nat) (e : Int) : Nat :=
  squareTimes 8 (expSeries (toFixed m (e - 8)) (2 * seriesTerms) (2 ^ seriesBits) 1 0)

/-- The correctly rounded binary32 exponential (R13, log entry 3). Beyond ±128 the result overflows
to +infinity or rounds to +0. -/
def expDefault (x : F32) : F32 :=
  match f32Num x with
  | .nan => rne32 .nan
  | .inf neg => if neg then F32.zero else rne32 (.inf false)
  | .fin neg m e =>
    if m = 0 then rne32 (numPow2 0)
    else if 7 ≤ (m.log2 : Int) + e then (if neg then F32.zero else rne32 (.inf false))
    else
      let v := expFixed m e
      rne32 (numOfFixed (if neg then ((2 ^ (2 * seriesBits) / v : Nat) : Int) else (v : Int)))

/-! ### The functions of R13 -/

/-- `COS64` (R6, R13): the parameter. -/
def COS64 (p : Params) (x : F64) : F64 :=
  match p.cos64.lookup x.bits with
  | some y => ⟨y⟩
  | none => cosDefault x

/-- `SIN64` (R6, R13): the parameter. -/
def SIN64 (p : Params) (x : F64) : F64 :=
  match p.sin64.lookup x.bits with
  | some y => ⟨y⟩
  | none => sinDefault x

/-- `EXPF` (R6, R13): the parameter. -/
def EXPF (p : Params) (x : F32) : F32 :=
  match p.exp32.lookup x.bits with
  | some y => ⟨y⟩
  | none => expDefault x

/-- `SQRT64`: the correctly rounded binary64 square root (R13). -/
def SQRT64 (x : F64) : F64 := rne64 (f64Num x).sqrt

/-! ### Tables -/

/-- 2·π in binary64 (`rne64(2 * PI64)` of R76; exact). -/
def TWOPI64 : F64 := rne64 ((numOfNat 2).mul (f64Num PI64))

/-- `freq = rne64(rne64(2 * PI64) / m)`, m = 2^k (R76). -/
def tableFreq (k : Nat) : F64 := rne64 ((f64Num TWOPI64).mul (numPow2 (-(k : Int))))

/-- The cosine table entry T_m[i], m = 2^k (R76). -/
def cosTable (p : Params) (k i : Nat) : F32 :=
  rne32 (f64Num (COS64 p (rne64 ((numOfNat i).mul (f64Num (tableFreq k))))))

/-- The RDFT sine table entry tsin[i] for n = 2^k (42_transform_rdft_dct.md R88). -/
def sinTable (p : Params) (k : Nat) (negative : Bool) (i : Nat) : F32 :=
  let theta := if negative then (f64Num (tableFreq k)).neg else f64Num (tableFreq k)
  rne32 (f64Num (SIN64 p (rne64 ((numOfNat i).mul theta))))

/-- csc2[i] for a DCT of n = 2^k samples (42_transform_rdft_dct.md R91). -/
def csc2Table (p : Params) (k i : Nat) : F32 :=
  let step := rne64 ((f64Num PI64).mul (numPow2 (-(k : Int) - 1)))
  let arg := rne64 ((f64Num step).mul (numOfNat (2 * i + 1)))
  rne32 (f64Num (rne64 ((numPow2 (-1)).div (f64Num (SIN64 p arg)))))

end Sys2Proof.Machine
end

