-- ==== Sys2Proof/Machine/AudioTrack.lean ====
section
/-!
DEFINITION. AUD_CFG: the audio track's configuration and band table (44_audio.md R113 to R115).
-/

namespace Sys2Proof.Machine

open Sys2Proof

/-- CRIT[0..24], in Hz (R114). -/
def critTable : List Nat :=
  [100, 200, 300, 400, 510, 630, 770, 920, 1080, 1270, 1480, 1720, 2000, 2320, 2700, 3150, 3700,
   4400, 5300, 6400, 7700, 9500, 12000, 15500, 24500]

/-- CRIT[k] (R114). -/
def crit (k : Nat) : Nat := critTable.getD k 0

/-- srh = (EFFRATE + 1) / 2 (R115). -/
def halfRate (effRate : Nat) : Nat := (effRate + 1) / 2

/-- `while nb < 25 and srh > CRIT[nb - 1]: nb <- nb + 1` (R115); 25 turns suffice. -/
def countBands (srh : Nat) : Nat → Nat → Nat
  | 0, nb => nb
  | k + 1, nb => if nb < 25 ∧ crit (nb - 1) < srh then countBands srh k (nb + 1) else nb

/-- NBANDS (R115). -/
def bandCount (effRate : Nat) : Nat := countBands (halfRate effRate) 25 1

/-- BANDS[i] (R115). -/
def bandBound (effRate F i : Nat) : Nat :=
  let nb := bandCount effRate
  if i = 0 then 2
  else if i < nb then 2 * (crit (i - 1) * (F / 2) / halfRate effRate)
  else if i = nb then F
  else 0

/-- BANDS[0..25] (R115). -/
def bandVector (effRate F : Nat) : Vector Word 26 :=
  ⟨((List.range 26).map fun i => BitVec.ofNat 32 (bandBound effRate F i)).toArray, by simp⟩

/-- "bit 12 = DCT codec else RDFT" (R113). -/
def codecOfFlags (flags : Half) : Codec := if flags.getLsbD 12 then .dct else .rdft

/-- "bit 13 = stereo" (R113). -/
def stereoOfFlags (flags : Half) : Bool := flags.getLsbD 13

/-- Interleaved stereo: the RDFT codec with two output channels (R113). -/
def interleaved (codec : Codec) (stereo : Bool) : Bool := codec == .rdft && stereo

/-- fb, log2 of the transform length (R113). -/
def frameBits (rate : Nat) (codec : Codec) (stereo : Bool) : Nat :=
  (if rate < 22050 then 9 else if rate < 44100 then 10 else 11) +
    (if interleaved codec stereo then 1 else 0)

/-- effrate (R113). -/
def effectiveRate (rate : Nat) (codec : Codec) (stereo : Bool) : Nat :=
  if interleaved codec stereo then 2 * rate else rate

/-- ch, the internal channel count (R113). -/
def channelCount (codec : Codec) (stereo : Bool) : Nat :=
  if interleaved codec stereo then 1 else if stereo then 2 else 1

/-- ROOT = rne32(rne64(2.0 / SQRT64(F))) (R113). -/
def rootOf (F : Nat) : F32 :=
  rne32 (f64Num (rne64 ((numOfNat 2).div (f64Num (SQRT64 (rne64 (numOfNat F)))))))

/-- The track that AUD_CFG builds (R113). -/
def configuredTrack (rate : Half) (codec : Codec) (stereo : Bool) : Track :=
  let fb := frameBits rate.toNat codec stereo
  let F := 2 ^ fb
  let ch := channelCount codec stereo
  let effRate := effectiveRate rate.toNat codec stereo
  { valid := true
    first := true
    fault := false
    codec := codec
    ch := BitVec.ofNat 2 ch
    outCh := if stereo then 2#2 else 1#2
    rate := rate
    frameLen := BitVec.ofNat 32 F
    overlap := BitVec.ofNat 32 (F / 16)
    blockSize := BitVec.ofNat 32 ((F - F / 16) * ch)
    nBands := BitVec.ofNat 32 (bandCount effRate)
    root := rootOf F
    xfBits := BitVec.ofNat 32 fb
    effRate := BitVec.ofNat 32 effRate
    pktLen := 0#32
    reported := 0#32
    outCnt := 0#32
    next := 0#32
    bands := bandVector effRate F
    prev := Vector.replicate 256 0#16 }

/-- AUD_CFG rate, flags (R113). Flag bits other than 12 and 13 are ignored. -/
def execAudCfg (rate flags : Half) (s : State) : Out :=
  check (rate != 0#16) .audCfg (audCfgWord rate flags) s
    (complete 1 { s with track := configuredTrack rate (codecOfFlags flags) (stereoOfFlags flags) })

end Sys2Proof.Machine
end

