-- ==== Sys2Proof/Machine/Fft.lean ====
section
/-!
DEFINITION. The permutation and the split-radix FFT of 41_transform_fft.md R77 to R86, in binary32.
Buffers are arrays; an element outside one reads as zero and a write to it is dropped (no size the
machine configures reaches outside: log entry 14).
-/

namespace Sys2Proof.Machine

open Sys2Proof

/-- A complex element (41_transform_fft.md R72, R80). -/
structure Cx where
  re : F32
  im : F32
  deriving DecidableEq, Repr

/-- 0 + 0i. -/
def Cx.zero : Cx := ⟨F32.zero, F32.zero⟩

/-- Element k of a complex buffer. -/
def cxAt (z : Array Cx) (k : Nat) : Cx := z.getD k Cx.zero

/-- A complex buffer with element k replaced. -/
def cxSet (z : Array Cx) (k : Nat) (v : Cx) : Array Cx := z.setIfInBounds k v

/-! ### Permutation -/

/-- `srp(i, 2^k, inv)` (R78); `i` is passed down unmasked. -/
def srp (inv : Bool) (i : Nat) : Nat → Int
  | 0 => (i % 2 : Nat)
  | 1 => (i % 2 : Nat)
  | k + 2 =>
    if i.testBit (k + 1) = false then 2 * srp inv i (k + 1)
    else if inv = (i.testBit k = false) then 4 * srp inv i k + 1
    else 4 * srp inv i k - 1

/-- `(-srp(i, N, inv)) mod N`, N = 2^k (R78). -/
def revIndex (k : Nat) (inv : Bool) (i : Nat) : Nat := (-srp inv i k % (2 ^ k : Nat)).toNat

/-- revtab for (N = 2^k, inv): `revtab[(-srp(i, N, inv)) mod N] <- i` for i = 0..N-1 (R78). -/
def revtab (k : Nat) (inv : Bool) : Array Nat :=
  (List.range (2 ^ k)).foldl (fun t i => t.setIfInBounds (revIndex k inv i) i)
    (Array.replicate (2 ^ k) 0)

/-- PERMUTE(z, N, inv): `tmp[revtab[j]] <- z[j]` for j = 0..N-1, then `z <- tmp` (R79). -/
def permute (k : Nat) (inv : Bool) (z : Array Cx) : Array Cx :=
  let tab := revtab k inv
  (List.range (2 ^ k)).foldl (fun tmp j => cxSet tmp (tab.getD j 0) (cxAt z j))
    (Array.replicate (2 ^ k) Cx.zero)

/-! ### Butterflies -/

/-- SQRTHALF (R77). -/
def SQRTHALF : F32 := ⟨0x3F3504F3#32⟩

/-- FFT4 on four elements (R82); BF(x, y, a, b) is `x <- a - b; y <- a + b` (R81). -/
def fft4 (z0 z1 z2 z3 : Cx) : Cx × Cx × Cx × Cx :=
  let t3 := fsub z0.re z1.re
  let t1 := fadd z0.re z1.re
  let t8 := fsub z3.re z2.re
  let t6 := fadd z3.re z2.re
  let z2re := fsub t1 t6
  let z0re := fadd t1 t6
  let t4 := fsub z0.im z1.im
  let t2 := fadd z0.im z1.im
  let t7 := fsub z2.im z3.im
  let t5 := fadd z2.im z3.im
  let z3im := fsub t4 t8
  let z1im := fadd t4 t8
  let z3re := fsub t3 t7
  let z1re := fadd t3 t7
  let z2im := fsub t2 t5
  let z0im := fadd t2 t5
  (⟨z0re, z0im⟩, ⟨z1re, z1im⟩, ⟨z2re, z2im⟩, ⟨z3re, z3im⟩)

/-- BUTTERFLIES(a0, a1, a2, a3; t1, t2, t5, t6) (R84). -/
def butterflies (a0 a1 : Cx) (t1 t2 t5 t6 : F32) : Cx × Cx × Cx × Cx :=
  let t3 := fsub t5 t1
  let t5' := fadd t5 t1
  let a2re := fsub a0.re t5'
  let a0re := fadd a0.re t5'
  let a3im := fsub a1.im t3
  let a1im := fadd a1.im t3
  let t4 := fsub t2 t6
  let t6' := fadd t2 t6
  let a3re := fsub a1.re t4
  let a1re := fadd a1.re t4
  let a2im := fsub a0.im t6'
  let a0im := fadd a0.im t6'
  (⟨a0re, a0im⟩, ⟨a1re, a1im⟩, ⟨a2re, a2im⟩, ⟨a3re, a3im⟩)

/-- TRANSFORM(a0, a1, a2, a3; wre, wim) (R85). -/
def transform (a0 a1 a2 a3 : Cx) (wre wim : F32) : Cx × Cx × Cx × Cx :=
  let t1 := fsub (fmul a2.re wre) (fmul a2.im (fneg wim))
  let t2 := fadd (fmul a2.re (fneg wim)) (fmul a2.im wre)
  let t5 := fsub (fmul a3.re wre) (fmul a3.im wim)
  let t6 := fadd (fmul a3.re wim) (fmul a3.im wre)
  butterflies a0 a1 t1 t2 t5 t6

/-- TRANSFORM_ZERO(a0, a1, a2, a3) (R85). -/
def transformZero (a0 a1 a2 a3 : Cx) : Cx × Cx × Cx × Cx :=
  butterflies a0 a1 a2.re a2.im a3.re a3.im

/-- Writing back four elements. -/
def cxSet4 (z : Array Cx) (i0 i1 i2 i3 : Nat) (v : Cx × Cx × Cx × Cx) : Array Cx :=
  cxSet (cxSet (cxSet (cxSet z i0 v.1) i1 v.2.1) i2 v.2.2.1) i3 v.2.2.2

/-- FFT4(z, b) (R82). -/
def fft4At (z : Array Cx) (b : Nat) : Array Cx :=
  cxSet4 z b (b + 1) (b + 2) (b + 3) (fft4 (cxAt z b) (cxAt z (b + 1)) (cxAt z (b + 2)) (cxAt z (b + 3)))

/-- FFT8(z, b) (R83). -/
def fft8At (z : Array Cx) (b : Nat) : Array Cx :=
  let z := fft4At z b
  let z4 := cxAt z (b + 4)
  let z5 := cxAt z (b + 5)
  let z6 := cxAt z (b + 6)
  let z7 := cxAt z (b + 7)
  let t1 := fadd z4.re z5.re
  let t2 := fadd z4.im z5.im
  let t5 := fadd z6.re z7.re
  let t6 := fadd z6.im z7.im
  let z := cxSet z (b + 5) ⟨fsub z4.re z5.re, fsub z4.im z5.im⟩
  let z := cxSet z (b + 7) ⟨fsub z6.re z7.re, fsub z6.im z7.im⟩
  let z := cxSet4 z b (b + 2) (b + 4) (b + 6) (butterflies (cxAt z b) (cxAt z (b + 2)) t1 t2 t5 t6)
  cxSet4 z (b + 1) (b + 3) (b + 5) (b + 7)
    (transform (cxAt z (b + 1)) (cxAt z (b + 3)) (cxAt z (b + 5)) (cxAt z (b + 7)) SQRTHALF SQRTHALF)

/-- PASS(z, b, N), N = 2^k, q = N/4 (R86). -/
def passAt (p : Params) (k : Nat) (z : Array Cx) (b : Nat) : Array Cx :=
  let q := 2 ^ k / 4
  let z := cxSet4 z b (b + q) (b + 2 * q) (b + 3 * q)
    (transformZero (cxAt z b) (cxAt z (b + q)) (cxAt z (b + 2 * q)) (cxAt z (b + 3 * q)))
  (List.range' 1 (q - 1)).foldl (fun z j =>
    cxSet4 z (b + j) (b + q + j) (b + 2 * q + j) (b + 3 * q + j)
      (transform (cxAt z (b + j)) (cxAt z (b + q + j)) (cxAt z (b + 2 * q + j)) (cxAt z (b + 3 * q + j))
        (cosTable p k j) (cosTable p k (q - j)))) z

/-- FFTN(z, b, N), N = 2^k (R80). Sizes below 4 do not occur. -/
def fftnAt (p : Params) : Nat → Array Cx → Nat → Array Cx
  | 0, z, _ => z
  | 1, z, _ => z
  | 2, z, b => fft4At z b
  | 3, z, b => fft8At z b
  | k + 4, z, b =>
    let z := fftnAt p (k + 3) z b
    let z := fftnAt p (k + 2) z (b + 2 ^ (k + 3))
    let z := fftnAt p (k + 2) z (b + 3 * 2 ^ (k + 2))
    passAt p (k + 4) z b

/-- FFTCALC(z, N), N = 2^bits (R80). -/
def fftCalc (p : Params) (bits : Nat) (z : Array Cx) : Array Cx := fftnAt p bits z 0

/-! ### Buffers as floats -/

/-- A float buffer, (re, im) pairs, as complex elements (R72). -/
def cxOfFloats : List F32 → List Cx
  | re :: im :: fs => ⟨re, im⟩ :: cxOfFloats fs
  | _ => []

/-- Complex elements as a float buffer (R72). -/
def floatsOfCx (zs : List Cx) : List F32 := zs.flatMap fun z => [z.re, z.im]

end Sys2Proof.Machine
end

