-- ==== Sys2Proof/Machine/Rdft.lean ====
section
/-!
DEFINITION. The real transforms: RDFT (42_transform_rdft_dct.md R88, R89) and the DCT and DST types
(R91 to R96), in binary32, on a float buffer that is updated in place.
-/

namespace Sys2Proof.Machine

open Sys2Proof

/-- Element i of a float buffer. -/
def fAt (d : Array F32) (i : Nat) : F32 := d.getD i F32.zero

/-- A float buffer with element i replaced. -/
def fSet (d : Array F32) (i : Nat) (v : F32) : Array F32 := d.setIfInBounds i v

/-! ### RDFT -/

/-- The RDFT types in code order (10_state.md R32). -/
inductive RdftType where
  | dftR2C
  | idftC2R
  | idftR2C
  | dftC2R
  deriving DecidableEq, Repr

/-- The type with a given code (R32). -/
def rdftTypeOf (t : BitVec 2) : RdftType :=
  if t = 0#2 then .dftR2C else if t = 1#2 then .idftC2R else if t = 2#2 then .idftR2C else .dftC2R

/-- `inverse` = 1 iff t is IDFT_C2R or DFT_C2R (R88). -/
def rdftInverse : RdftType → Bool
  | .dftR2C => false
  | .idftC2R => true
  | .idftR2C => false
  | .dftC2R => true

/-- `sign` = -1 iff t is DFT_R2C or IDFT_C2R (R88). -/
def rdftSignNeg : RdftType → Bool
  | .dftR2C => true
  | .idftC2R => true
  | .idftR2C => false
  | .dftC2R => false

/-- `fftinv` = 1 iff t is IDFT_C2R or IDFT_R2C (R88). -/
def rdftFftInv : RdftType → Bool
  | .dftR2C => false
  | .idftC2R => true
  | .idftR2C => true
  | .dftC2R => false

/-- The sine sign is negative iff t is DFT_R2C or DFT_C2R (R88). -/
def rdftSineNeg : RdftType → Bool
  | .dftR2C => true
  | .idftC2R => false
  | .idftR2C => false
  | .dftC2R => true

/-- CORE(d): the first n = 2^bits elements as n/2 complex values, permuted and transformed (R89). -/
def rdftCore (p : Params) (bits : Nat) (inv : Bool) (d : Array F32) : Array F32 :=
  let half := 2 ^ (bits - 1)
  let z := ((List.range half).map fun k => Cx.mk (fAt d (2 * k)) (fAt d (2 * k + 1))).toArray
  let z := fftCalc p (bits - 1) (permute (bits - 1) inv z)
  (List.range half).foldl (fun d k => fSet (fSet d (2 * k) (cxAt z k).re) (2 * k + 1) (cxAt z k).im) d

/-- One turn i of RDFT's loop (R89). -/
def rdftFold (p : Params) (bits : Nat) (t : RdftType) (d : Array F32) (i : Nat) : Array F32 :=
  let k1 := f32Half
  let k2 := if rdftInverse t then fneg f32Half else f32Half
  let tcos := cosTable p bits i
  let tsin := sinTable p bits (rdftSineNeg t) i
  let i1 := 2 * i
  let i2 := 2 ^ bits - i1
  let evre := fmul k1 (fadd (fAt d i1) (fAt d i2))
  let odim := fmul (fneg k2) (fsub (fAt d i1) (fAt d i2))
  let evim := fmul k1 (fsub (fAt d (i1 + 1)) (fAt d (i2 + 1)))
  let odre := fmul k2 (fadd (fAt d (i1 + 1)) (fAt d (i2 + 1)))
  let d := fSet d i1 (fsub (fadd evre (fmul odre tcos)) (fmul odim tsin))
  let d := fSet d (i1 + 1) (fadd (fadd evim (fmul odim tcos)) (fmul odre tsin))
  let d := fSet d i2 (fadd (fsub evre (fmul odre tcos)) (fmul odim tsin))
  fSet d (i2 + 1) (fadd (fadd (fneg evim) (fmul odim tcos)) (fmul odre tsin))

/-- RDFT(d, bits, t) (R89). -/
def rdft (p : Params) (bits : Nat) (t : RdftType) (d : Array F32) : Array F32 :=
  let n := 2 ^ bits
  let d := if rdftInverse t then d else rdftCore p bits (rdftFftInv t) d
  let ev := fAt d 0
  let d1 := fAt d 1
  let d := fSet (fSet d 0 (fadd ev d1)) 1 (fsub ev d1)
  let d := (List.range' 1 (n / 4 - 1)).foldl (rdftFold p bits t) d
  let d := if rdftSignNeg t then fSet d (n / 2 + 1) (fneg (fAt d (n / 2 + 1))) else d
  if rdftInverse t then
    rdftCore p bits (rdftFftInv t) (fSet (fSet d 0 (fmul (fAt d 0) f32Half)) 1 (fmul (fAt d 1) f32Half))
  else d

/-! ### DCT and DST -/

/-- The DCT types in code order (10_state.md R32). -/
inductive DctType where
  | dctI
  | dctII
  | dctIII
  | dstI
  deriving DecidableEq, Repr

/-- The type with a given code (R32). -/
def dctTypeOf (t : BitVec 2) : DctType :=
  if t = 0#2 then .dctI else if t = 1#2 then .dctII else if t = 2#2 then .dctIII else .dstI

/-- COS(x) = T_{4n}[x], n = 2^bits (R91). -/
def dctCos (p : Params) (bits x : Nat) : F32 := cosTable p (bits + 2) x

/-- SIN(x) = T_{4n}[n - x] (R91). -/
def dctSin (p : Params) (bits x : Nat) : F32 := cosTable p (bits + 2) (2 ^ bits - x)

/-- The negation of 0.5 in binary32. -/
def f32NegHalf : F32 := fneg f32Half

/-- DCT_I on d[0..n] (R93). -/
def dctI (p : Params) (bits : Nat) (d : Array F32) : Array F32 :=
  let n := 2 ^ bits
  let next := fmul f32NegHalf (fsub (fAt d 0) (fAt d n))
  let (d, next) := (List.range (n / 2)).foldl (fun (d, next) i =>
    let tmp1 := fAt d i
    let tmp2 := fAt d (n - i)
    let diff := fsub tmp1 tmp2
    let s := fmul (dctSin p bits (2 * i)) diff
    let c := fmul (dctCos p bits (2 * i)) diff
    let tmp1 := fmul (fadd tmp1 tmp2) f32Half
    (fSet (fSet d i (fsub tmp1 s)) (n - i) (fadd tmp1 s), fadd next c)) (d, next)
  let d := rdft p bits .dftR2C d
  let d := fSet (fSet d n (fAt d 1)) 1 next
  (List.range (n / 2 - 1)).foldl (fun d k =>
    let i := 2 * k + 3
    fSet d i (fsub (fAt d (i - 2)) (fAt d i))) d

/-- DCT_II on d[0..n-1] (R94). -/
def dctII (p : Params) (bits : Nat) (d : Array F32) : Array F32 :=
  let n := 2 ^ bits
  let d := (List.range (n / 2)).foldl (fun d i =>
    let tmp1 := fAt d i
    let tmp2 := fAt d (n - i - 1)
    let s := fmul (dctSin p bits (2 * i + 1)) (fsub tmp1 tmp2)
    let tmp1 := fmul (fadd tmp1 tmp2) f32Half
    fSet (fSet d i (fadd tmp1 s)) (n - i - 1) (fsub tmp1 s)) d
  let d := rdft p bits .dftR2C d
  let next := fmul (fAt d 1) f32Half
  let d := fSet d 1 (fneg (fAt d 1))
  ((List.range (n / 2)).foldl (fun (d, next) k =>
    let i := n - 2 - 2 * k
    let inr := fAt d i
    let ini := fAt d (i + 1)
    let c := dctCos p bits i
    let s := dctSin p bits i
    let d := fSet d i (fadd (fmul c inr) (fmul s ini))
    (fSet d (i + 1) next, fadd next (fsub (fmul s inr) (fmul c ini)))) (d, next)).1

/-- DCT_III on d[0..n-1], with inv_n = rne32(1/n) (R95). -/
def dctIII (p : Params) (bits : Nat) (d : Array F32) : Array F32 :=
  let n := 2 ^ bits
  let invN := rne32 (numPow2 (-(bits : Int)))
  let next := fAt d (n - 1)
  let d := (List.range (n / 2 - 1)).foldl (fun d k =>
    let i := n - 2 - 2 * k
    let val1 := fAt d i
    let val2 := fsub (fAt d (i - 1)) (fAt d (i + 1))
    let c := dctCos p bits i
    let s := dctSin p bits i
    fSet (fSet d i (fadd (fmul c val1) (fmul s val2))) (i + 1) (fsub (fmul s val1) (fmul c val2))) d
  let d := fSet d 1 (fmul f32Two next)
  let d := rdft p bits .idftC2R d
  (List.range (n / 2)).foldl (fun d i =>
    let tmp1 := fmul (fAt d i) invN
    let tmp2 := fmul (fAt d (n - i - 1)) invN
    let csc := fmul (csc2Table p bits i) (fsub tmp1 tmp2)
    let tmp1 := fadd tmp1 tmp2
    fSet (fSet d i (fadd tmp1 csc)) (n - i - 1) (fsub tmp1 csc)) d

/-- DST_I on d[0..n-1] (R96). -/
def dstI (p : Params) (bits : Nat) (d : Array F32) : Array F32 :=
  let n := 2 ^ bits
  let d := fSet d 0 F32.zero
  let d := (List.range' 1 (n / 2 - 1)).foldl (fun d i =>
    let tmp1 := fAt d i
    let tmp2 := fAt d (n - i)
    let s := fmul (dctSin p bits (2 * i)) (fadd tmp1 tmp2)
    let tmp1 := fmul (fsub tmp1 tmp2) f32Half
    fSet (fSet d i (fadd s tmp1)) (n - i) (fsub s tmp1)) d
  let d := fSet d (n / 2) (fmul (fAt d (n / 2)) f32Two)
  let d := rdft p bits .dftR2C d
  let d := fSet d 0 (fmul (fAt d 0) f32Half)
  let d := (List.range (n / 2 - 1)).foldl (fun d k =>
    let i := 2 * k + 1
    let d := fSet d (i + 1) (fadd (fAt d (i + 1)) (fAt d (i - 1)))
    fSet d i (fneg (fAt d (i + 2)))) d
  fSet d (n - 1) F32.zero

/-- DCT(d, bits, t) (R92). -/
def dct (p : Params) (bits : Nat) (t : DctType) (d : Array F32) : Array F32 :=
  match t with
  | .dctI => dctI p bits d
  | .dctII => dctII p bits d
  | .dctIII => dctIII p bits d
  | .dstI => dstI p bits d

end Sys2Proof.Machine
end

