-- ==== Sys2Proof/Machine/AudioBlock.lean ====
section
/-!
DEFINITION. One audio block (44_audio.md R119 to R128): the bit reader, the spectral coefficients,
the track transform, the conversion to int16 and the overlap-add.
-/

namespace Sys2Proof.Machine

open Sys2Proof

/-! ### The bit reader -/

/-- A packet's bitstream snapshot: its bytes as one little-endian integer, so that bit k of the
stream is bit k of it (20_memory.md R45), and NBITS (44_audio.md R119).
DESIGN CHOICE: NBITS and the bit position are unbounded naturals, as lengths and addresses are
(00_scope.md R8), and not i32 values that wrap (R9; each rule defers to the other): log entry 26. -/
structure BitSource where
  bits : Nat
  size : Nat
  deriving DecidableEq, Repr

/-- The bitstream held by some bytes in ascending address order (R45, R119). -/
def bitSourceOf (bs : List Byte) : BitSource := ⟨natOfBytes bs, 8 * bs.length⟩

/-- A reader over the bit position pos; it fails with the position before the failing read. -/
abbrev BitReader (α : Type) := StateT Nat (Except Nat) α

/-- `get(n)` (R119). -/
def getBits (b : BitSource) (n : Nat) : BitReader Nat := fun pos =>
  if b.size < pos + n then .error pos else .ok ((b.bits >>> pos) % 2 ^ n, pos + n)

/-- `getFloat()` (R120): exponent, mantissa, sign. -/
def getFloat (b : BitSource) : BitReader F32 := do
  let power ← getBits b 5
  let mant ← getBits b 23
  let sign ← getBits b 1
  let f := rne32 (.fin false mant ((power : Int) - 23))
  pure (if sign = 1 then fneg f else f)

/-! ### Spectral coefficients -/

/-- QUANT(v) (R123). -/
def quantStep (p : Params) (root : F32) (v : Nat) : F32 :=
  fmul (EXPF p (fmul (f32OfNat (min v p.quantValueMax.toNat)) ⟨p.quantExpK⟩)) root

/-- The band steps quant[0..n-1], an 8-bit value each (R121). -/
def readQuants (p : Params) (root : F32) (b : BitSource) : Nat → BitReader (List F32)
  | 0 => pure []
  | n + 1 => do
    let v ← getBits b 8
    let qs ← readQuants p root b n
    pure (quantStep p root v :: qs)

/-- RLE[0..15] (R124). -/
def rleTable : List Nat := [2, 3, 4, 5, 6, 8, 9, 10, 11, 12, 13, 14, 15, 16, 32, 64]

/-- What RUNS carries from coefficient to coefficient (R125): the next band k, the current step q,
and the coefficients. -/
structure RunState where
  k : Nat
  q : F32
  coef : Array F32
  deriving DecidableEq, Repr

/-- BANDS[k] (10_state.md R36). -/
def bandAt (t : Track) (k : Nat) : Nat := (t.bands.toArray.getD k 0#32).toNat

/-- Entering band k: `q <- quant[k]; k <- k + 1` (R125). -/
def enterBand (quants : List F32) (r : RunState) : RunState :=
  { r with q := quants.getD r.k F32.zero, k := r.k + 1 }

/-- `while BANDS[k] < i: q <- quant[k]; k <- k + 1` (R125). There are 26 boundaries. -/
def catchUp (t : Track) (quants : List F32) (i : Nat) : Nat → RunState → RunState
  | 0, r => r
  | n + 1, r => if bandAt t r.k < i then catchUp t quants i n (enterBand quants r) else r

/-- `coef[i .. i+n-1] <- +0.0` (R125). -/
def zeroRun (coef : Array F32) (i n : Nat) : Array F32 :=
  (List.range n).foldl (fun c k => fSet c (i + k) F32.zero) coef

/-- One coefficient of a nonzero run: its magnitude, its sign if it has one, and its value (R125). -/
def readCoef (p : Params) (b : BitSource) (width : Nat) (q : F32) : BitReader F32 := do
  let v ← getBits b width
  if v ≠ 0 then
    let sign ← getBits b 1
    pure (if sign = 1 then fmul (fneg q) (f32OfNat v) else fmul q (f32OfNat v))
  else
    let _ ← getBits b (match p.zeroSignBit with | .present => 1 | .absent => 0)
    pure F32.zero

/-- The n coefficients of a nonzero run, from coefficient i on (R125). -/
def nonzeroRun (p : Params) (t : Track) (quants : List F32) (b : BitSource) (width : Nat) :
    Nat → Nat → RunState → BitReader RunState
  | 0, _, r => pure r
  | n + 1, i, r => do
    let r := if bandAt t r.k = i then enterBand quants r else r
    let x ← readCoef p b width r.q
    nonzeroRun p t quants b width n (i + 1) { r with coef := fSet r.coef i x }

/-- The end of the next run before it is cut at F: a 1-bit flag, then 8 coefficients or 8·RLE[index]
(R124, R125). -/
def readRunEnd (b : BitSource) (i : Nat) : BitReader Nat := do
  let flag ← getBits b 1
  if flag = 1 then
    let index ← getBits b 4
    pure (i + 8 * rleTable.getD index 0)
  else pure (i + 8)

/-- RUNS's outer loop from coefficient i on (R125). Every turn moves i up, so F turns suffice. -/
def runsFrom (p : Params) (t : Track) (quants : List F32) (b : BitSource) :
    Nat → Nat → RunState → BitReader RunState
  | 0, _, r => pure r
  | n + 1, i, r =>
    let F := t.frameLen.toNat
    if F ≤ i then pure r
    else do
      let e ← readRunEnd b i
      let j := min e F
      let width ← getBits b 4
      if width = 0 then
        runsFrom p t quants b n j (catchUp t quants j 26 { r with coef := zeroRun r.coef i (j - i) })
      else do
        let r ← nonzeroRun p t quants b width (j - i) i r
        runsFrom p t quants b n j r

/-- The coefficients of one channel (R121): two floats, the band steps, the runs. -/
def readChannel (p : Params) (t : Track) (b : BitSource) : BitReader (Array F32) := do
  let F := t.frameLen.toNat
  let c0 ← getFloat b
  let c1 ← getFloat b
  let coef := fSet (fSet (Array.replicate F F32.zero) 0 (fmul c0 t.root)) 1 (fmul c1 t.root)
  let quants ← readQuants p t.root b t.nBands.toNat
  let r ← runsFrom p t quants b F 2 ⟨0, quants.getD 0 F32.zero, coef⟩
  pure r.coef

/-- The n channels of a block, one after the other (R121). -/
def readChannels (p : Params) (t : Track) (b : BitSource) : Nat → BitReader (List (Array F32))
  | 0 => pure []
  | n + 1 => do
    let c ← readChannel p t b
    let cs ← readChannels p t b n
    pure (c :: cs)

/-- The bits of one block (R121, R122): the DCT codec's prefix, then the channels' coefficients. -/
def readBlockBits (p : Params) (t : Track) (b : BitSource) : BitReader (List (Array F32)) := do
  let _ ← getBits b (match t.codec with | .dct => p.dctBlockSkipBits.toNat | .rdft => 0)
  readChannels p t b t.ch.toNat

/-! ### Samples -/

/-- TRANSFORM(coef) (R126). -/
def trackTransform (p : Params) (t : Track) (coef : Array F32) : Array F32 :=
  let bits := t.xfBits.toNat
  match t.codec with
  | .rdft => rdft p bits .dftC2R coef
  | .dct =>
    let coef := fSet coef 0 (fmul (fAt coef 0) f32Two)
    (dct p bits .dctIII coef).map fun x => fmul x (f32OfNat (t.frameLen.toNat / 2))

/-- `clamp(v, -32768, 32767)` as an int16 (R127). -/
def clampHalf (v : Int) : Half := BitVec.ofInt 16 (min (max v (-32768)) 32767)

/-- PCM(x) (R127); a NaN's int16 is draw number `n`. -/
def pcm (r : PcmRound) (n : Nat) (x : F32) : Half :=
  match f32Num x with
  | .nan => Config.pcmDraw n
  | .inf neg => if neg then clampHalf (-32768) else clampHalf 32767
  | .fin neg m e =>
    match r with
    | .halfUp => clampHalf (roundHalfUp neg m e)
    | .halfEven => clampHalf (roundHalfEven neg m e)

/-- F·C, the samples of a block before the overlap (R121). -/
def blockSamples (t : Track) : Nat := t.frameLen.toNat * t.ch.toNat

/-- out[i·C + c] = PCM(coef[c][i]) (R121, R127); sample o draws number draws + o. -/
def pcmSamples (p : Params) (t : Track) (draws : Nat) (chans : List (Array F32)) : Array Half :=
  ((List.range (blockSamples t)).map fun o =>
    pcm p.pcmRound (draws + o) (fAt (chans.getD (o % t.ch.toNat) #[]) (o / t.ch.toNat))).toArray

/-- OVERLAP·C (R128). -/
def overlapCount (t : Track) : Nat := t.overlap.toNat * t.ch.toNat

/-- Sample i of a PCM array. -/
def sampleAt (out : Array Half) (i : Nat) : Half := out.getD i 0#16

/-- PREV[i] (10_state.md R37). -/
def prevAt (t : Track) (i : Nat) : Half := t.prev.toArray.getD i 0#16

/-- (PREV[i]·(count - i) + out[i]·i) >> log2(count) (R128). -/
def crossfade (prev out : Half) (count i : Nat) : Half :=
  BitVec.ofInt 16 ((prev.toInt * ((count : Int) - i) + out.toInt * i) / 2 ^ count.log2)

/-- The samples of a block after the overlap-add (R128). -/
def overlapAdd (t : Track) (out : Array Half) : Array Half :=
  if t.first then out
  else
    (List.range (overlapCount t)).foldl (fun o i =>
      o.setIfInBounds i (crossfade (prevAt t i) (sampleAt out i) (overlapCount t) i)) out

/-- PREV[0 .. count-1] ← out[BLOCKSIZE .. BLOCKSIZE+count-1] (R128). -/
def cacheTail (t : Track) (out : Array Half) : Vector Half 256 :=
  ⟨((List.range 256).map fun i =>
    if i < overlapCount t then sampleAt out (t.blockSize.toNat + i) else prevAt t i).toArray, by simp⟩

/-- BLOCK()'s emitted samples: out[0 .. BLOCKSIZE-1] (R121, R128). -/
def emitted (t : Track) (out : Array Half) : List Half :=
  (List.range t.blockSize.toNat).map (sampleAt out)

end Sys2Proof.Machine
end

