-- ==== Sys2Proof/Machine/Audio.lean ====
section
/-!
DEFINITION. AUD_PKT: one audio packet to int16 PCM (44_audio.md R116 to R118).
-/

namespace Sys2Proof.Machine

open Sys2Proof

/-- FAULT ← 1 (R117, R118). -/
def faultTrack (s : State) : State := { s with track := { s.track with fault := true } }

/-- A completed block's writes (R117, R128): its samples at dst + 2·OUTCNT, OUTCNT, PREV and FIRST.
Each of its F·C samples uses up one draw number (log entry 7). -/
def commitBlock (dst : Nat) (chans : List (Array F32)) (s : State) : State :=
  let t := s.track
  let pcms := overlapAdd t (pcmSamples s.params t s.draws (chans.map (trackTransform s.params t)))
  { store s (dst + 2 * t.outCnt.toNat) ((emitted t pcms).flatMap bytesOfHalf) with
    draws := s.draws + blockSamples t
    track := { t with outCnt := t.outCnt + t.blockSize, prev := cacheTail t pcms, first := false } }

/-- After each block, the bit position goes up to a multiple of 32 (R117). -/
def alignPos (pos : Nat) : Nat := if pos % 32 = 0 then pos else pos + 32 - pos % 32

/-- ERRINFO of BIT_OVERRUN: the bit position before the failing read (R119, 60_exceptions.md R129).
DESIGN CHOICE: a position of 2^32 or more, which DMEM_SIZE ≤ 2^31 admits, does not fit the 32-bit
ERRINFO and R129 states no truncation for it; ERRINFO is then a free value (log entry 25). -/
def bitPosWord (pos : Nat) : Word := if pos < 2 ^ 32 then BitVec.ofNat 32 pos else Config.bitPosFar pos

/-- The block loop of AUD_PKT from bit position pos on (R117). Every block of a configured track
reads at least one bit, so NBITS + 1 turns suffice (log entry 14). -/
def packetLoop (b : BitSource) (dst cap : Nat) : Nat → Nat → State → Out
  | 0, _, s => complete 4 s
  | n + 1, pos, s =>
    if b.size ≤ pos then complete 4 s
    else if cap < s.track.outCnt.toNat + s.track.blockSize.toNat then
      raise .audOutOvf s.track.outCnt (faultTrack s)
    else
      match readBlockBits s.params s.track b pos with
      | .error q => raise .bitOverrun (bitPosWord q) (faultTrack s)
      | .ok (chans, pos') => packetLoop b dst cap n (alignPos pos') (commitBlock dst chans s)

/-- The packet registers at the start of a packet (R117, 10_state.md R35). -/
def beginPacket (src len reported : Word) (s : State) : State :=
  { s with track := { s.track with
      pktLen := len
      next := BitVec.ofNat 32 (src.toNat + 4 + len.toNat)
      outCnt := 0#32
      reported := reported } }

/-- The packet's bitstream: bytes src + 8 .. src + 4 + L - 1 (R116). -/
def packetBits (src len : Word) (s : State) : BitSource :=
  bitSourceOf (readBytes s (src.toNat + 8) (len.toNat - 4))

/-- AUD_PKT's effect once its checks have passed (R117). The packet is read whole before anything is
written (20_memory.md R50). -/
def audPacket (src len dst cap : Word) (s : State) : Out :=
  if len.toNat < 4 then complete 4 (beginPacket src len 0#32 s)
  else
    let b := packetBits src len s
    packetLoop b dst.toNat cap.toNat (b.size + 1) 0
      (beginPacket src len (readWord s (src.toNat + 4)) s)

/-- AUD_PKT src, avail, dst, cap (R117): its six checks in order, then the packet. -/
def execAudPkt (src avail dst cap : Word) (s : State) : Out :=
  check (s.track.valid && !s.track.fault) .audState (acfgWord s.track) s
    (check (alignedTo 2 dst) .align dst s
      (check (inDmem s src.toNat avail.toNat) .addr src s
        (check (inDmem s dst.toNat (2 * cap.toNat)) .addr dst s
          (check (decide (4 ≤ avail.toNat)) .audPktLen avail s
            (let len := readWord s src.toNat
             check (decide (len.toNat + 4 ≤ avail.toNat)) .audPktLen len s
               (audPacket src len dst cap s))))))

end Sys2Proof.Machine
end

