-- ==== Sys2Proof/Machine/Control.lean ====
section
/-!
DEFINITION. The control commands (40_control.md R68, R69).
-/

namespace Sys2Proof.Machine

open Sys2Proof

/-- NOP (R68): the cycle advances CMDPTR by 4. -/
def execNop (s : State) : Out := complete 0 s

/-- END (R69): CMDPTR past itself, BUSY ← 0, DONE ← 1. -/
def execEndList (s : State) : Out := .next (endRun s)

end Sys2Proof.Machine
end

