-- ==== Sys2Proof/Machine/Idct.lean ====
section
/-!
DEFINITION. The 8×8 integer inverse DCT (43_motion.md R105, R106) and the dequantization arithmetic
(R110), in wrapping i32 (00_scope.md R9).
-/

namespace Sys2Proof.Machine

open Sys2Proof

/-- IDCT8 with munge function M (R105). -/
def idct8 (M : Word → Word) (s0 s1 s2 s3 s4 s5 s6 s7 : Word) : List Word :=
  let A1 : Word := 2896#32
  let A2 : Word := 2217#32
  let A3 : Word := 3784#32
  let A4 : Word := -5352#32
  let a0 := s0 + s4
  let a1 := s0 - s4
  let a2 := s2 + s6
  let a3 := (A1 * (s2 - s6)).sshiftRight 11
  let a4 := s5 + s3
  let a5 := s5 - s3
  let a6 := s1 + s7
  let a7 := s1 - s7
  let b0 := a4 + a6
  let b1 := (A3 * (a5 + a7)).sshiftRight 11
  let b2 := (A4 * a5).sshiftRight 11 - b0 + b1
  let b3 := (A1 * (a6 - a4)).sshiftRight 11 - b2
  let b4 := (A2 * a7).sshiftRight 11 + b3 - b1
  [M (a0 + a2 + b0), M (a1 + a3 - a2 + b2), M (a1 - a3 + a2 + b3), M (a0 - a2 - b4),
   M (a0 - a2 + b4), M (a1 - a3 + a2 - b3), M (a1 + a3 - a2 - b2), M (a0 + a2 - b0)]

/-- The column pass keeps its value (R106). -/
def mungeColumn (x : Word) : Word := x

/-- The row pass: M(x) = (x + 0x7F) >> 8 (R106). -/
def mungeRow (x : Word) : Word := (x + 0x7F#32).sshiftRight 8

/-- Word k of a block; outside it, 0 (a block has 64 words). -/
def wordAt (b : List Word) (k : Nat) : Word := b.getD k 0#32

/-- Column `col` of a block transformed: t[col + 8k] for k = 0..7 (R106). -/
def idctColumn (b : List Word) (col : Nat) : List Word :=
  idct8 mungeColumn (wordAt b col) (wordAt b (col + 8)) (wordAt b (col + 16)) (wordAt b (col + 24))
    (wordAt b (col + 32)) (wordAt b (col + 40)) (wordAt b (col + 48)) (wordAt b (col + 56))

/-- Row `row` of the column-transformed block: out[8·row + k] for k = 0..7 (R106). -/
def idctRow (cols : List (List Word)) (row : Nat) : List Word :=
  let t := fun col => wordAt (cols.getD col []) row
  idct8 mungeRow (t 0) (t 1) (t 2) (t 3) (t 4) (t 5) (t 6) (t 7)

/-- IDCT(blk) → out[0..63] (R106). -/
def idct (b : List Word) : List Word :=
  let cols := (List.range 8).map (idctColumn b)
  (List.range 8).flatMap (idctRow cols)

/-- `clamp(v, lo, hi)` on unbounded integers (00_scope.md R9). -/
def clamp (v lo hi : Int) : Int := min (max v lo) hi

/-- (coeff · quant) >> 11 in wrapping i32 (R110). -/
def dequantProduct (c q : Word) : Word := (c * q).sshiftRight 11

/-- Entry k of a dequantized block: AC entries are clamped to int16, DC is not (R110). -/
def dequantEntry (k : Nat) (c q : Word) : Word :=
  if k = 0 then dequantProduct c q
  else BitVec.ofInt 32 (clamp (dequantProduct c q).toInt (-32768) 32767)

/-- A dequantized block (R110). -/
def dequant (c q : List Word) : List Word :=
  (List.range 64).map fun k => dequantEntry k (wordAt c k) (wordAt q k)

/-- v mod 256, the byte a pixel store keeps (R104, R107, R108). -/
def lowByte (w : Word) : Byte := w.setWidth 8

end Sys2Proof.Machine
end

