-- ==== Sys2Proof/Machine/Motion.lean ====
section
/-!
DEFINITION. The MC commands (43_motion.md R102 to R104, R107 to R111). Each reads all its inputs
before it writes (20_memory.md R50).
-/

namespace Sys2Proof.Machine

open Sys2Proof

/-- The reference block of a motion vector: the bytes src[r][c] of MCCOPY in raster order (R103). -/
def refBlock (s : State) (p : PlaneIdx) (pos : BlockPos) (dx dy : BitVec 8) : List Byte :=
  readBlock s (refBase s p pos dx dy) (planePitch s p)

/-- The destination block written with 64 bytes in raster order (R99). -/
def putBlock (p : PlaneIdx) (pos : BlockPos) (px : List Byte) (s : State) : State :=
  writeBlock s (blockDst s p pos) (planePitch s p) px

/-- The destination block lies in DMEM (R99, log entry 15). -/
def touchDst (p : PlaneIdx) (pos : BlockPos) (s : State) (k : Out) : Out :=
  touchBlock (blockDst s p pos) (planePitch s p) s k

/-- The reference block lies in DMEM (R100, log entry 15). -/
def touchRef (p : PlaneIdx) (pos : BlockPos) (dx dy : BitVec 8) (s : State) (k : Out) : Out :=
  touchBlock (refBase s p pos dx dy) (planePitch s p) s k

/-- MCCOPY(p, bx, by, dx, dy) and the end of a one-argument command (R103). -/
def mcCopy (p : PlaneIdx) (pos : BlockPos) (dx dy : BitVec 8) (s : State) : Out :=
  touchRef p pos dx dy s (touchDst p pos s
    (complete 1 (putBlock p pos (refBlock s p pos dx dy) s)))

/-- MC_SKIP p, bx, by (R102). -/
def execMcSkip (p : PlaneIdx) (pos : BlockPos) (s : State) : Out :=
  checkBlock p pos s (mcCopy p pos 0#8 0#8 s)

/-- MC_MOTION p, bx, by, dx, dy (R103). -/
def execMcMotion (p : PlaneIdx) (dx dy : BitVec 8) (pos : BlockPos) (s : State) : Out :=
  checkBlock p pos s (checkBounds p pos dx dy s (mcCopy p pos dx dy s))

/-- Bytes plus the low bytes of words, modulo 256 (R104, R108). -/
def addPixels (px : List Byte) (ws : List Word) : List Byte := List.zipWith (fun b w => b + lowByte w) px ws

/-- MC_RESIDUE p, bx, by, dx, dy, blk (R104). -/
def execMcResidue (p : PlaneIdx) (dx dy : BitVec 8) (pos : BlockPos) (blk : Word) (s : State) : Out :=
  checkBlock p pos s (checkBounds p pos dx dy s (checkCoefs blk s
    (touchRef p pos dx dy s (touchDst p pos s
      (complete 2 (putBlock p pos (addPixels (refBlock s p pos dx dy) (readCoefs s blk)) s))))))

/-- MC_IDCT_PUT p, bx, by, blk (R107). -/
def execMcIdctPut (p : PlaneIdx) (pos : BlockPos) (blk : Word) (s : State) : Out :=
  checkBlock p pos s (checkCoefs blk s (touchDst p pos s
    (complete 2 (putBlock p pos ((idct (readCoefs s blk)).map lowByte) s))))

/-- The current bytes of the destination block (R108). -/
def curBlock (s : State) (p : PlaneIdx) (pos : BlockPos) : List Byte :=
  readBlock s (blockDst s p pos) (planePitch s p)

/-- MC_IDCT_ADD p, bx, by, blk (R108). -/
def execMcIdctAdd (p : PlaneIdx) (pos : BlockPos) (blk : Word) (s : State) : Out :=
  checkBlock p pos s (checkCoefs blk s (touchDst p pos s
    (complete 2 (putBlock p pos (addPixels (curBlock s p pos) (idct (readCoefs s blk))) s))))

/-- A coefficient block replaced (R109, R110). -/
def putCoefs (blk : Word) (ws : List Word) (s : State) : State := store s blk.toNat (bytesOfWords ws)

/-- MC_IDCT blk (R109). -/
def execMcIdct (blk : Word) (s : State) : Out :=
  checkCoefs blk s (complete 1 (putCoefs blk (idct (readCoefs s blk)) s))

/-- MC_DEQUANT blk, qtab (R110). -/
def execMcDequant (blk qtab : Word) (s : State) : Out :=
  checkCoefs blk s (checkCoefs qtab s
    (complete 2 (putCoefs blk (dequant (readCoefs s blk) (readCoefs s qtab)) s)))

/-- MC_SWAP (R111): CUR ← 1 - CUR. -/
def execMcSwap (s : State) : Out := complete 0 { s with cur := otherBuffer s.cur }

end Sys2Proof.Machine
end

