-- ==== Sys2Proof/Machine/Xf.lean ====
section
/-!
DEFINITION. The XF commands (41_transform_fft.md R73 to R75).
-/

namespace Sys2Proof.Machine

open Sys2Proof

/-- Context c written whole (R73). -/
def setContext (s : State) (c : CtxIdx) (x : Context) : State := { s with ctx := s.ctx.set c x }

/-- The word that names context c in ERRINFO (60_exceptions.md R129, XF_CTX). -/
def ctxWord (c : CtxIdx) : Word := BitVec.ofNat 32 c.val

/-- XF_CFG c, kind, type, bits (R73). -/
def execXfCfg (c : CtxIdx) (kind : XfKind) (type : BitVec 2) (bits : BitVec 8) (s : State) : Out :=
  check (bitsInRange kind bits) .xfBits (bits.setWidth 32) s
    (complete 0 (setContext s c ⟨kind, type, bits.setWidth 5⟩))

/-- An FFT buffer permuted: the float images are moved, their bits unchanged (R74). -/
def permutedWords (x : Context) (ws : List Word) : List Word :=
  let z := (cxOfFloats (ws.map F32.mk)).toArray
  (floatsOfCx (permute x.bits.toNat (x.type == 1#2) z).toList).map F32.bits

/-- XF_PERM c, addr (R74). -/
def execXfPerm (c : CtxIdx) (addr : Word) (s : State) : Out :=
  let x := context s c
  check (x.kind == .fft) .xfCtx (ctxWord c) s
    (checkRegion 4 (bufferBytes x) addr s
      (complete 1 (store s addr.toNat
        (bytesOfWords (permutedWords x (readWords s addr.toNat (bufferElems x)))))))

/-- What XF_CALC makes of the buffer of a context (R75): the FFT without a permutation and without
regard to its type, the RDFT, or the DCT. -/
def calculated (p : Params) (x : Context) (d : List F32) : List F32 :=
  match x.kind with
  | .none => d
  | .fft => floatsOfCx (fftCalc p x.bits.toNat (cxOfFloats d).toArray).toList
  | .rdft => (rdft p x.bits.toNat (rdftTypeOf x.type) d.toArray).toList
  | .dct => (dct p x.bits.toNat (dctTypeOf x.type) d.toArray).toList

/-- XF_CALC c, addr (R75). -/
def execXfCalc (c : CtxIdx) (addr : Word) (s : State) : Out :=
  let x := context s c
  check (x.kind != .none) .xfCtx (ctxWord c) s
    (checkRegion 4 (bufferBytes x) addr s
      (complete 1 (storeFloats s addr.toNat
        (calculated s.params x (readFloats s addr.toNat (bufferElems x))))))

end Sys2Proof.Machine
end

