-- ==== Sys2Proof/Machine/Dispatch.lean ====
section
/-!
DEFINITION. The meaning of every command: one arm per constructor of `Instr`.
-/

namespace Sys2Proof.Machine

open Sys2Proof

def exec (i : Instr) (s : State) : Host.Outcome State Fault Refusal :=
  match i with
  | .nop => Sys2Proof.Machine.execNop s
  | .endList => Sys2Proof.Machine.execEndList s
  | .xfCfg c kind type bits => Sys2Proof.Machine.execXfCfg c kind type bits s
  | .xfPerm c addr => Sys2Proof.Machine.execXfPerm c addr s
  | .xfCalc c addr => Sys2Proof.Machine.execXfCalc c addr s
  | .audCfg rate flags => Sys2Proof.Machine.execAudCfg rate flags s
  | .audPkt src avail dst cap => Sys2Proof.Machine.execAudPkt src avail dst cap s
  | .mcSkip p pos => Sys2Proof.Machine.execMcSkip p pos s
  | .mcMotion p dx dy pos => Sys2Proof.Machine.execMcMotion p dx dy pos s
  | .mcResidue p dx dy pos blk => Sys2Proof.Machine.execMcResidue p dx dy pos blk s
  | .mcIdctPut p pos blk => Sys2Proof.Machine.execMcIdctPut p pos blk s
  | .mcIdctAdd p pos blk => Sys2Proof.Machine.execMcIdctAdd p pos blk s
  | .mcIdct blk => Sys2Proof.Machine.execMcIdct blk s
  | .mcDequant blk qtab => Sys2Proof.Machine.execMcDequant blk qtab s
  | .mcSwap => Sys2Proof.Machine.execMcSwap s

end Sys2Proof.Machine
end

