-- ==== Sys2Proof/Machine/Fetch.lean ====
section
/-!
DEFINITION. Fetching a command at CMDPTR (40_control.md R66): the header, its legality, then each
argument word; and placing a command where it will be fetched.
-/

namespace Sys2Proof.Machine

open Sys2Proof

/-- n argument words from address a on, or the address of the first one outside DMEM (R66). -/
def fetchArgs (s : State) : Nat → Nat → Except Nat (List Word)
  | 0, _ => .ok []
  | n + 1, a =>
    if inDmem s a 4 then
      match fetchArgs s n (a + 4) with
      | .ok ws => .ok (readWord s a :: ws)
      | .error x => .error x
    else .error a

/-- The command at CMDPTR, or the error its fetch raises with its info word: FETCH of the header,
ILLEGAL, FETCH of an argument, in that order (R66, 60_exceptions.md R131). -/
def fetchCommand (s : State) : Except (BteError × Word) Instr :=
  let a := s.cmdptr.toNat
  if inDmem s a 4 then
    let h := readWord s a
    match decodeHeader h with
    | .error _ => .error (.illegal, h)
    | .ok hd =>
      match fetchArgs s hd.argCount (a + 4) with
      | .error x => .error (.fetch, BitVec.ofNat 32 x)
      | .ok args =>
        match hd.build args with
        | some i => .ok i
        | none => .error (.illegal, h)
  else .error (.fetch, s.cmdptr)

/-- A state whose sequencer will fetch the given bytes next: they are stored at CMDPTR (at 0 where
they would not fit there), a run is under way, and no host move stands before it (log entry 12). -/
def placeCommand (s : State) (bs : List Byte) : State :=
  let a : Word := if inDmem s s.cmdptr.toNat bs.length then s.cmdptr else 0#32
  { store s a.toNat bs with cmdptr := a, busy := true, host := [] }

end Sys2Proof.Machine
end

