-- ==== Sys2Proof/Machine/Mmio.lean ====
section
/-!
DEFINITION. The host's MMIO window (10_state.md R19 to R37, 70_reset_and_hazards.md R146): what each
offset reads, and what a write to it does.
-/

namespace Sys2Proof.Machine

open Sys2Proof

/-- Index `k mod 4` of a group of four registers. -/
def quadIndex (k : Nat) : Fin 4 := Fin.ofNat 4 k

/-- Index `k mod 2` of the two plane buffers. -/
def bufferIndex (k : Nat) : Fin 2 := Fin.ofNat 2 k

/-- What a 4-aligned offset of the window reads (R19); reserved offsets read 0 (R20). -/
def mmioValue (s : State) (off : Nat) : Word :=
  if off = 0x000 then 0x4B4E4942#32
  else if off = 0x004 then 0x00000007#32
  else if off = 0x008 then ctrlWord s
  else if off = 0x00C then statusWord s
  else if off = 0x010 then s.cmdptr
  else if off = 0x014 then s.errCode.setWidth 32
  else if off = 0x018 then s.errPc
  else if off = 0x01C then s.errInfo
  else if off = 0x020 then planeselWord s
  else if off = 0x024 then BitVec.ofNat 32 s.params.dmemSize
  else if 0x040 ≤ off ∧ off < 0x060 then
    (s.pbase[bufferIndex ((off - 0x040) / 16)])[quadIndex ((off - 0x040) / 4)]
  else if 0x060 ≤ off ∧ off < 0x070 then pdimWord s (quadIndex ((off - 0x060) / 4))
  else if 0x070 ≤ off ∧ off < 0x080 then ppitchWord s (quadIndex ((off - 0x070) / 4))
  else if 0x080 ≤ off ∧ off < 0x090 then xctxWord s.ctx[quadIndex ((off - 0x080) / 4)]
  else if off = 0x100 then acfgWord s.track
  else if off = 0x104 then s.track.frameLen
  else if off = 0x108 then s.track.overlap
  else if off = 0x10C then s.track.blockSize
  else if off = 0x110 then s.track.nBands
  else if off = 0x114 then s.track.root.bits
  else if off = 0x118 then s.track.xfBits
  else if off = 0x11C then s.track.effRate
  else if off = 0x120 then s.track.pktLen
  else if off = 0x124 then s.track.reported
  else if off = 0x128 then s.track.outCnt
  else if off = 0x12C then s.track.next
  else if 0x180 ≤ off ∧ off < 0x1E8 then abandWord s.track ((off - 0x180) / 4)
  else if 0x200 ≤ off ∧ off < 0x400 then aprevWord s.track ((off - 0x200) / 4)
  else 0#32

/-- A write to CTRL (R23, R24): IRQEN always; START only while BUSY = 0. -/
def writeCtrl (s : State) (v : Word) : State :=
  let s := { s with irqEn := v.getLsbD 1 }
  if v.getLsbD 0 && !s.busy then startRun s else s

/-- A write to STATUS (R25): a 1 in bit 1 clears DONE, a 1 in bit 2 clears ERR. -/
def writeStatus (s : State) (v : Word) : State :=
  { s with done := s.done && !v.getLsbD 1, err := s.err && !v.getLsbD 2 }

/-- PBASE[b][p] written (R29). -/
def writePbase (s : State) (b : Fin 2) (p : PlaneIdx) (v : Word) : State :=
  { s with pbase := s.pbase.set b ((s.pbase[b]).set p v) }

/-- PDIM[p] written (R30). -/
def writePdim (s : State) (p : PlaneIdx) (v : Word) : State :=
  { s with pw := s.pw.set p (v.extractLsb' 0 16), ph := s.ph.set p (v.extractLsb' 16 16) }

/-- PPITCH[p] written; bits 31:16 are ignored (R31). -/
def writePpitch (s : State) (p : PlaneIdx) (v : Word) : State :=
  { s with pitch := s.pitch.set p (v.extractLsb' 0 16) }

/-- A write to a register that ignores writes while BUSY = 1 (R146). -/
def writeWhenIdle (s s' : State) : State := if s.busy then s else s'

/-- A host write to a 4-aligned offset (R19 to R31). Read-only registers and reserved offsets ignore
writes (R20). -/
def mmioStore (s : State) (off : Nat) (v : Word) : State :=
  if off = 0x008 then writeCtrl s v
  else if off = 0x00C then writeStatus s v
  else if off = 0x010 then writeWhenIdle s { s with cmdptr := alignWord v }
  else if off = 0x020 then writeWhenIdle s { s with cur := bufferIndex v.toNat }
  else if 0x040 ≤ off ∧ off < 0x060 then
    writeWhenIdle s (writePbase s (bufferIndex ((off - 0x040) / 16)) (quadIndex ((off - 0x040) / 4)) v)
  else if 0x060 ≤ off ∧ off < 0x070 then writeWhenIdle s (writePdim s (quadIndex ((off - 0x060) / 4)) v)
  else if 0x070 ≤ off ∧ off < 0x080 then writeWhenIdle s (writePpitch s (quadIndex ((off - 0x070) / 4)) v)
  else s

end Sys2Proof.Machine
end

