-- ==== Sys2Proof/Machine/Sequencer.lean ====
section
/-!
DEFINITION. One step of the sequencer (40_control.md R66) and one move of the host
(70_reset_and_hazards.md R146, R147).
-/

namespace Sys2Proof.Machine

open Sys2Proof

/-- One turn of the command cycle (R66). When BUSY = 0 the sequencer takes no step: nothing changes
(R142, log entry 9). -/
def seqStep (s : State) : Out :=
  if s.busy then
    match fetchCommand s with
    | .error e => raise e.1 e.2 s
    | .ok i => exec i s
  else .next s

/-- MMIO is accessed with aligned 32-bit words only (20_memory.md R51). -/
def mmioAccessOk (width : AccessWidth) (off : BitVec 12) : Bool :=
  width == .word && off.toNat % 4 == 0

/-- A host access to DMEM has a move only while BUSY = 0 (R146), and only inside DMEM
(20_memory.md R42, log entry 11). -/
def hostDmem (s : State) (a : Word) (k : Out) : Out :=
  if s.busy then .refused (.hostDmemWhileBusy a)
  else if inDmem s a.toNat 1 then k
  else .refused (.hostDmemOutside a)

/-- One move of the host (R147). -/
def hostStep (m : HostMove) (s : State) : Out :=
  match m with
  | .wait => seqStep s
  | .mmioRead width off =>
    if mmioAccessOk width off then .next { s with hostRdata := mmioValue s off.toNat }
    else .refused (.hostMmioAccess off)
  | .mmioWrite width off v =>
    if mmioAccessOk width off then .next (mmioStore s off.toNat v)
    else .refused (.hostMmioAccess off)
  | .dmemRead a => hostDmem s a (.next { s with hostRdata := (readByte s a.toNat).setWidth 32 })
  | .dmemWrite a v => hostDmem s a (.next (store s a.toNat [v]))
  | .reset => .next (warmReset s)

end Sys2Proof.Machine
end

