-- ==== Sys2Proof/Machine/Step.lean ====
section
/-!
DEFINITION. The step of the machine: the host's next move where one is pending, else a turn of the
sequencer (20_memory.md R51: host accesses fall between sequencer steps; log entry 10).
-/

namespace Sys2Proof.Machine

open Sys2Proof

/-- One step. -/
def step (s : State) : Host.Outcome State Fault Refusal :=
  match s.host with
  | [] => seqStep s
  | m :: rest => hostStep m { s with host := rest }

/-- `s` with the command whose bits are `w` (numbered as spec/opcode_table.json numbers them) where
the next step fetches, so that the next step runs it (log entry 12). -/
def State.withFetchWord (s : State) (nbits w : Nat) : State := placeCommand s (tableBytes nbits w)

end Sys2Proof.Machine
end

