-- ==== Sys2Proof/Safety.lean ====
section
/-!
DEFINITION. What the statements about the BTE call a sound state and a safe run, and the readings
(rational values, fields of an address) they are phrased in.
-/

namespace Sys2Proof.Safety

open Sys2Proof Sys2Proof.Machine

/-! ### Invariants -/

/-- DMEM is in its canonical form and lists only addresses of DMEM (20_memory.md R40, R42). -/
def MemoryOk (s : State) : Prop := Memory.wf s.dmem ∧ Memory.within s.params.dmemSize s.dmem

/-- At most one of BUSY, DONE and ERR is 1 (10_state.md R25). -/
def FlagsOk (s : State) : Prop :=
  (s.busy && s.done) = false ∧ (s.busy && s.err) = false ∧ (s.done && s.err) = false

/-- Bits 1:0 of CMDPTR and ERRPC are 0 (10_state.md R18, R26). -/
def PointersOk (s : State) : Prop := s.cmdptr.toNat % 4 = 0 ∧ s.errPc.toNat % 4 = 0

/-- ERRCODE is a code of 60_exceptions.md R129, nonzero while ERR = 1, and 0 only with ERRPC and
ERRINFO 0 (10_state.md R26). -/
def ErrorsOk (s : State) : Prop :=
  s.errCode.toNat ≤ 14 ∧ (s.err = true → s.errCode ≠ 0#8) ∧
    (s.errCode = 0#8 → s.errPc = 0#32 ∧ s.errInfo = 0#32)

/-- A configuration of 41_transform_fft.md R73, or the reset value (10_state.md R32). -/
def ContextOk (x : Context) : Prop :=
  match x.kind with
  | .none => x.type = 0#2 ∧ x.bits = 0#5
  | .fft => x.type.toNat ≤ 1 ∧ 4 ≤ x.bits.toNat ∧ x.bits.toNat ≤ 16
  | .rdft => 5 ≤ x.bits.toNat ∧ x.bits.toNat ≤ 16
  | .dct => 5 ≤ x.bits.toNat ∧ x.bits.toNat ≤ 14

/-- Every transform context is legal. -/
def ContextsOk (s : State) : Prop := ∀ c : CtxIdx, ContextOk (context s c)

/-- A track with the given track's results and overlap buffer in place of its own: what AUD_PKT may
have changed since AUD_CFG (10_state.md R33, R35, R37). -/
def withResults (t u : Track) : Track :=
  { t with first := u.first, fault := u.fault, pktLen := u.pktLen, reported := u.reported,
           outCnt := u.outCnt, next := u.next, prev := u.prev }

/-- The track is the reset track, or one AUD_CFG has built, in which only what AUD_PKT writes may have
changed; entries of PREV at or beyond OVERLAP·CH are 0 (10_state.md R33 to R37). -/
def TrackOk (t : Track) : Prop :=
  t = Track.off ∨
    (t.rate ≠ 0#16 ∧ (∃ stereo : Bool, t = withResults (configuredTrack t.rate t.codec stereo) t) ∧
      ∀ i : Nat, overlapCount t ≤ i → prevAt t i = 0#16)

/-- The parameters are legal (00_scope.md R6) and the state meets every invariant. -/
structure Sound (s : State) : Prop where
  params : s.params.Legal
  memory : MemoryOk s
  flags : FlagsOk s
  pointers : PointersOk s
  errors : ErrorsOk s
  contexts : ContextsOk s
  track : TrackOk s.track

/-! ### Safe steps -/

/-- A command answers a next state: it neither faults nor is refused. -/
def Answers (o : Out) : Prop := ∃ t, o = .next t

/-- The sequencer may move: no host move is pending, and a run is under way. -/
def Running (s : State) : Prop := s.host = [] ∧ s.busy = true

/-! ### Runs -/

/-- n steps, stopping at the first fault or refusal. -/
def steps : Nat → State → Out
  | 0, s => .next s
  | n + 1, s =>
    match step s with
    | .next t => steps n t
    | .fault r => .fault r
    | .refused r => .refused r

/-! ### Headers -/

/-- The opcodes of 30_encoding.md R60. -/
def definedOpcodes : List (BitVec 8) :=
  [0x01#8, 0x02#8, 0x10#8, 0x11#8, 0x12#8, 0x20#8, 0x21#8, 0x30#8, 0x31#8, 0x32#8, 0x33#8, 0x34#8,
   0x35#8, 0x36#8, 0x37#8]

/-- The opcodes whose FA must be 0 (R60). -/
def opcodesWithoutIndex : List (BitVec 8) := [0x01#8, 0x02#8, 0x20#8, 0x21#8, 0x35#8, 0x36#8, 0x37#8]

/-- The opcodes whose FB and FC must be 0 (R60). -/
def opcodesWithoutFields : List (BitVec 8) :=
  [0x01#8, 0x02#8, 0x11#8, 0x12#8, 0x20#8, 0x21#8, 0x30#8, 0x33#8, 0x34#8, 0x35#8, 0x36#8, 0x37#8]

/-- The four grounds on which a header is illegal (30_encoding.md R62), one disjunct each. In the last,
kind = FB[5:4] and type = FB[1:0]; only (NONE, 0) with bits = 0, (FFT, 0 or 1), RDFT and DCT are legal. -/
def IllegalHeader (h : Word) : Prop :=
  opcField h ∉ definedOpcodes ∨
  (opcField h ∈ opcodesWithoutIndex ∧ faField h ≠ 0#8 ∨
    opcField h ∈ opcodesWithoutFields ∧ (fbField h ≠ 0#8 ∨ fcField h ≠ 0#8)) ∨
  (opcField h ∈ definedOpcodes ∧ opcField h ∉ opcodesWithoutIndex ∧ 3 < (faField h).toNat) ∨
  (opcField h = 0x10#8 ∧
    (h.extractLsb' 18 2 ≠ 0#2 ∨ h.extractLsb' 22 2 ≠ 0#2 ∨
      (h.extractLsb' 20 2 = 0#2 ∧ (h.extractLsb' 16 2 ≠ 0#2 ∨ fcField h ≠ 0#8)) ∨
      (h.extractLsb' 20 2 = 1#2 ∧ 1 < (h.extractLsb' 16 2).toNat)))

/-! ### Regions of DMEM -/

/-- `a` is one of the 64 pixel addresses of a block (43_motion.md R99). -/
def InBlock (base pitch a : Nat) : Prop := ∃ r c, r < 8 ∧ c < 8 ∧ a = pixelAddr base pitch r c

/-- `a` lies in the region of `len` bytes at `base`. -/
def InRegion (base len a : Nat) : Prop := base ≤ a ∧ a < base + len

/-- Every byte outside `R` reads in `t` as in `s`. -/
def SameOutside (R : Nat → Prop) (s t : State) : Prop := ∀ a, ¬ R a → readByte t a = readByte s a

/-- `MemRead(a, 2)` (00_scope.md R12): the i16 at `a`, least significant byte first. -/
def readHalf (s : State) (a : Nat) : Half := readByte s (a + 1) ++ readByte s a

/-- A region of `len` bytes at `a` is 4-aligned and inside DMEM (20_memory.md R46, R47). -/
def RegionOk (s : State) (a : Word) (len : Nat) : Prop :=
  a.toNat % 4 = 0 ∧ a.toNat + len ≤ s.params.dmemSize

/-! ### Planes -/

/-- Plane p is valid (43_motion.md R98). -/
def PlaneOk (s : State) (p : PlaneIdx) : Prop :=
  1 ≤ planeBW s p ∧ 1 ≤ planeBH s p ∧ 8 * planeBW s p ≤ planePitch s p ∧
    planeBase s 0 p + planeExtent s p ≤ s.params.dmemSize ∧
    planeBase s 1 p + planeExtent s p ≤ s.params.dmemSize

/-- A block position is legal (43_motion.md R99). -/
def PosOk (s : State) (p : PlaneIdx) (pos : BlockPos) : Prop :=
  pos.bx.toNat < planeBW s p ∧ pos.brow.toNat < planeBH s p

/-- The offset of a motion vector is legal (43_motion.md R100). -/
def RefOk (s : State) (p : PlaneIdx) (pos : BlockPos) (dx dy : BitVec 8) : Prop :=
  0 ≤ refOffset s p pos dx dy ∧ refOffset s p pos dx dy ≤ refOffsetMax s p

/-! ### Audio -/

/-- The six checks of AUD_PKT pass (44_audio.md R117). -/
def PacketOk (s : State) (src avail dst cap : Word) : Prop :=
  s.track.valid = true ∧ s.track.fault = false ∧ dst.toNat % 2 = 0 ∧
    src.toNat + avail.toNat ≤ s.params.dmemSize ∧ dst.toNat + 2 * cap.toNat ≤ s.params.dmemSize ∧
    4 ≤ avail.toNat ∧ (readWord s src.toNat).toNat + 4 ≤ avail.toNat

/-- Bit k of a bitstream held by bytes in ascending address order (20_memory.md R45, 44_audio.md R119). -/
def bitOf (bs : List Byte) (k : Nat) : Bool := (bs.getD (k / 8) 0#8).getLsbD (k % 8)

/-- The sum of bit(S, pos + j)·2^j for j < n (44_audio.md R119). -/
def bitSum (bs : List Byte) (pos : Nat) : Nat → Nat
  | 0 => 0
  | n + 1 => bitSum bs pos n + (if bitOf bs (pos + n) then 2 ^ n else 0)

/-- The blocks AUD_PKT decodes from bit position `pos` and state `s` on, to `pos'` and `s'`: each starts
while bits remain and its samples fit, and then the position goes up to a multiple of 32 (44_audio.md
R117). -/
inductive Blocks (b : BitSource) (dst cap : Nat) : Nat → State → Nat → State → Prop
  | stop (pos : Nat) (s : State) : Blocks b dst cap pos s pos s
  | block (pos q pos' : Nat) (s s' : State) (chans : List (Array F32)) :
      pos < b.size → s.track.outCnt.toNat + s.track.blockSize.toNat ≤ cap →
      readBlockBits s.params s.track b pos = .ok (chans, q) →
      Blocks b dst cap (alignPos q) (commitBlock dst chans s) pos' s' → Blocks b dst cap pos s pos' s'

/-! ### Coefficients of an audio channel -/

/-- n 8-bit values (44_audio.md R121). -/
def readValues (b : BitSource) : Nat → BitReader (List Nat)
  | 0 => pure []
  | n + 1 => do
    let v ← getBits b 8
    let vs ← readValues b n
    pure (v :: vs)

/-- The length of a run before it is cut: 8 coefficients, or 8·RLE[index] after a flag of 1 (R124, R125). -/
def runLength (b : BitSource) : BitReader Nat := do
  let flag ← getBits b 1
  if flag = 1 then
    let index ← getBits b 4
    pure (8 * [2, 3, 4, 5, 6, 8, 9, 10, 11, 12, 13, 14, 15, 16, 32, 64].getD index 0)
  else pure 8

/-- n coefficients of a nonzero run, from coefficient i on, each with its own step (R125). -/
def runCoefs (p : Params) (b : BitSource) (width : Nat) (stepAt : Nat → F32) :
    Nat → Nat → BitReader (List F32)
  | 0, _ => pure []
  | n + 1, i => do
    let x ← readCoef p b width (stepAt i)
    let xs ← runCoefs p b width stepAt n (i + 1)
    pure (x :: xs)

/-- The coefficients i .. F-1, run by run: a length, cut at F; a width; that many zeros where the width is
0, else that many magnitudes (R125). The first argument bounds the number of runs. -/
def runsByLength (p : Params) (b : BitSource) (F : Nat) (stepAt : Nat → F32) :
    Nat → Nat → BitReader (List F32)
  | 0, _ => pure []
  | n + 1, i =>
    if F ≤ i then pure []
    else do
      let len ← runLength b
      let width ← getBits b 4
      let m := min len (F - i)
      let xs ← if width = 0 then pure (List.replicate m F32.zero) else runCoefs p b width stepAt m i
      let ys ← runsByLength p b F stepAt n (i + m)
      pure (xs ++ ys)

/-! ### Real transforms -/

/-- Element i of a float list. -/
def floatAt (u : List F32) (i : Nat) : F32 := u.getD i F32.zero

/-- 0.5 in binary32. -/
def oneHalf : F32 := ⟨0x3F000000#32⟩

/-- -0.5 in binary32. -/
def minusHalf : F32 := ⟨0xBF000000#32⟩

/-- 2.0 in binary32. -/
def two32 : F32 := ⟨0x40000000#32⟩

/-- A row of 42_transform_rdft_dct.md R88: a type code; `inverse`; whether `sign` is -1; `fftinv`; whether
the sine sign is negative. -/
structure RdftRow where
  code : BitVec 2
  inverse : Bool
  signNeg : Bool
  fftInv : Bool
  sineNeg : Bool
  deriving DecidableEq, Repr

/-- The four RDFT types (R88): DFT_R2C, IDFT_C2R, IDFT_R2C and DFT_C2R. -/
def rdftRows : List RdftRow :=
  [⟨0#2, false, true, false, true⟩, ⟨1#2, true, true, true, false⟩,
   ⟨2#2, false, false, true, false⟩, ⟨3#2, true, false, false, true⟩]

/-- `CORE(d)` of R89: the buffer as n/2 = 2^(bits-1) complex values, permuted and transformed. -/
def coreOf (p : Params) (bits : Nat) (inv : Bool) (u : List F32) : List F32 :=
  floatsOfCx (fftCalc p (bits - 1) (permute (bits - 1) inv (cxOfFloats u).toArray)).toList

/-- `v` is what R89's statements between the two CORE lines make of `u`, n = 2^bits elements: the DC and
Nyquist pair, the middle pair, and for 1 ≤ i < n/4 the elements 2i, 2i+1, n-2i and n-2i+1. -/
def RdftFolds (p : Params) (bits : Nat) (r : RdftRow) (u v : List F32) : Prop :=
  v.length = 2 ^ bits ∧
  floatAt v 0 = fadd (floatAt u 0) (floatAt u 1) ∧ floatAt v 1 = fsub (floatAt u 0) (floatAt u 1) ∧
  floatAt v (2 ^ bits / 2) = floatAt u (2 ^ bits / 2) ∧
  floatAt v (2 ^ bits / 2 + 1) =
    (if r.signNeg then fneg (floatAt u (2 ^ bits / 2 + 1)) else floatAt u (2 ^ bits / 2 + 1)) ∧
  ∀ i, 1 ≤ i → i < 2 ^ bits / 4 →
    let k2 := if r.inverse then minusHalf else oneHalf
    let tcos := cosTable p bits i
    let tsin := sinTable p bits r.sineNeg i
    let i2 := 2 ^ bits - 2 * i
    let evre := fmul oneHalf (fadd (floatAt u (2 * i)) (floatAt u i2))
    let odim := fmul (fneg k2) (fsub (floatAt u (2 * i)) (floatAt u i2))
    let evim := fmul oneHalf (fsub (floatAt u (2 * i + 1)) (floatAt u (i2 + 1)))
    let odre := fmul k2 (fadd (floatAt u (2 * i + 1)) (floatAt u (i2 + 1)))
    floatAt v (2 * i) = fsub (fadd evre (fmul odre tcos)) (fmul odim tsin) ∧
    floatAt v (2 * i + 1) = fadd (fadd evim (fmul odim tcos)) (fmul odre tsin) ∧
    floatAt v i2 = fadd (fsub evre (fmul odre tcos)) (fmul odim tsin) ∧
    floatAt v (i2 + 1) = fadd (fadd (fneg evim) (fmul odim tcos)) (fmul odre tsin)

/-- The two statements before the inverse types' CORE (R89): elements 0 and 1 times k1. -/
def halvedEnds (v : List F32) : List F32 :=
  fmul (floatAt v 0) oneHalf :: fmul (floatAt v 1) oneHalf :: v.drop 2

/-- What XF_CALC makes of `u` on an RDFT context of the given type and size. -/
def rdftOf (p : Params) (type : BitVec 2) (bits : BitVec 5) (u : List F32) : List F32 :=
  calculated p ⟨.rdft, type, bits⟩ u

/-- COS(x) of R91: entry x of the cosine table of size 4n. -/
def cosAt (p : Params) (bits x : Nat) : F32 := cosTable p (bits + 2) x

/-- SIN(x) of R91: entry n - x of the same table. -/
def sinAt (p : Params) (bits x : Nat) : F32 := cosTable p (bits + 2) (2 ^ bits - x)

/-- DCT_I (42_transform_rdft_dct.md R93) before its RDFT: `d` of n + 1 elements to `u` of n. -/
def DctIBefore (p : Params) (bits : Nat) (d u : List F32) : Prop :=
  u.length = 2 ^ bits ∧ floatAt u (2 ^ bits / 2) = floatAt d (2 ^ bits / 2) ∧
  ∀ i, i < 2 ^ bits / 2 →
    let half := fmul (fadd (floatAt d i) (floatAt d (2 ^ bits - i))) oneHalf
    let s := fmul (sinAt p bits (2 * i)) (fsub (floatAt d i) (floatAt d (2 ^ bits - i)))
    floatAt u i = fsub half s ∧ (i ≠ 0 → floatAt u (2 ^ bits - i) = fadd half s)

/-- R93's `next` when its first loop is done. -/
def dctINext (p : Params) (bits : Nat) (d : List F32) : F32 :=
  (List.range (2 ^ bits / 2)).foldl
    (fun next i => fadd next (fmul (cosAt p bits (2 * i)) (fsub (floatAt d i) (floatAt d (2 ^ bits - i)))))
    (fmul minusHalf (fsub (floatAt d 0) (floatAt d (2 ^ bits))))

/-- DCT_I after its RDFT (R93): `r` to `y` of n + 1 elements. -/
def DctIAfter (p : Params) (bits : Nat) (d r y : List F32) : Prop :=
  y.length = 2 ^ bits + 1 ∧ floatAt y (2 ^ bits) = floatAt r 1 ∧ floatAt y 1 = dctINext p bits d ∧
  ∀ i, i < 2 ^ bits / 2 → floatAt y (2 * i) = floatAt r (2 * i) ∧
    (i ≠ 0 → floatAt y (2 * i + 1) = fsub (floatAt y (2 * i - 1)) (floatAt r (2 * i + 1)))

/-- DCT_II before its RDFT (R94). -/
def DctIIBefore (p : Params) (bits : Nat) (d u : List F32) : Prop :=
  u.length = 2 ^ bits ∧
  ∀ i, i < 2 ^ bits / 2 →
    let half := fmul (fadd (floatAt d i) (floatAt d (2 ^ bits - i - 1))) oneHalf
    let s := fmul (sinAt p bits (2 * i + 1)) (fsub (floatAt d i) (floatAt d (2 ^ bits - i - 1)))
    floatAt u i = fadd half s ∧ floatAt u (2 ^ bits - i - 1) = fsub half s

/-- DCT_II after its RDFT (R94): `next` starts at r[1]·0.5 in the last element and is carried down the odd
elements; element 1 of `r` is negated before it is read in the last turn. -/
def DctIIAfter (p : Params) (bits : Nat) (r y : List F32) : Prop :=
  y.length = 2 ^ bits ∧ floatAt y (2 ^ bits - 1) = fmul (floatAt r 1) oneHalf ∧
  ∀ k, k < 2 ^ bits / 2 →
    let c := cosAt p bits (2 * k)
    let s := sinAt p bits (2 * k)
    let inr := floatAt r (2 * k)
    let ini := if k = 0 then fneg (floatAt r 1) else floatAt r (2 * k + 1)
    floatAt y (2 * k) = fadd (fmul c inr) (fmul s ini) ∧
    (k ≠ 0 → floatAt y (2 * k - 1) =
      fadd (floatAt y (2 * k + 1)) (fsub (fmul s inr) (fmul c ini)))

/-- DCT_III before its RDFT (R95). -/
def DctIIIBefore (p : Params) (bits : Nat) (d u : List F32) : Prop :=
  u.length = 2 ^ bits ∧ floatAt u 0 = floatAt d 0 ∧
  floatAt u 1 = fmul two32 (floatAt d (2 ^ bits - 1)) ∧
  ∀ k, 1 ≤ k → k < 2 ^ bits / 2 →
    let c := cosAt p bits (2 * k)
    let s := sinAt p bits (2 * k)
    let val2 := fsub (floatAt d (2 * k - 1)) (floatAt d (2 * k + 1))
    floatAt u (2 * k) = fadd (fmul c (floatAt d (2 * k))) (fmul s val2) ∧
    floatAt u (2 * k + 1) = fsub (fmul s (floatAt d (2 * k))) (fmul c val2)

/-- DCT_III after its RDFT (R95), inv_n = 2^-bits. -/
def DctIIIAfter (p : Params) (bits : Nat) (r y : List F32) : Prop :=
  y.length = 2 ^ bits ∧
  ∀ i, i < 2 ^ bits / 2 →
    let a := fmul (floatAt r i) (rne32 (numPow2 (-(bits : Int))))
    let b := fmul (floatAt r (2 ^ bits - i - 1)) (rne32 (numPow2 (-(bits : Int))))
    let csc := fmul (csc2Table p bits i) (fsub a b)
    floatAt y i = fadd (fadd a b) csc ∧ floatAt y (2 ^ bits - i - 1) = fsub (fadd a b) csc

/-- DST_I before its RDFT (R96). -/
def DstIBefore (p : Params) (bits : Nat) (d u : List F32) : Prop :=
  u.length = 2 ^ bits ∧ floatAt u 0 = F32.zero ∧
  floatAt u (2 ^ bits / 2) = fmul (floatAt d (2 ^ bits / 2)) two32 ∧
  ∀ i, 1 ≤ i → i < 2 ^ bits / 2 →
    let s := fmul (sinAt p bits (2 * i)) (fadd (floatAt d i) (floatAt d (2 ^ bits - i)))
    let half := fmul (fsub (floatAt d i) (floatAt d (2 ^ bits - i))) oneHalf
    floatAt u i = fadd s half ∧ floatAt u (2 ^ bits - i) = fsub s half

/-- DST_I after its RDFT (R96): a running sum over the even elements, the odd ones negated and moved. -/
def DstIAfter (bits : Nat) (r y : List F32) : Prop :=
  y.length = 2 ^ bits ∧ floatAt y 0 = fmul (floatAt r 0) oneHalf ∧
  floatAt y (2 ^ bits - 1) = F32.zero ∧
  ∀ k, 1 ≤ k → k < 2 ^ bits / 2 →
    floatAt y (2 * k) = fadd (floatAt r (2 * k)) (floatAt y (2 * k - 2)) ∧
    floatAt y (2 * k - 1) = fneg (floatAt r (2 * k + 1))

/-! ### Values -/

/-- The rational ±m·2^e. -/
def ratOf (neg : Bool) (m : Nat) (e : Int) : ℚ := (if neg then -1 else 1) * (m : ℚ) * (2 : ℚ) ^ e

/-- The rational a datum stands for, if it is finite. -/
def numValue : FNum → Option ℚ
  | .fin neg m e => some (ratOf neg m e)
  | _ => none

/-- The rational a binary32 stands for, if it is finite (00_scope.md R11). -/
def f32Value (x : F32) : Option ℚ := numValue (f32Num x)

end Sys2Proof.Safety
end

