-- ==== Sys2Proof/Certificates/Slice0/Obligations.lean ====
section
/-!
DEFINITION. The statements about the BTE for the provers. Each docstring names the rule of spec/ it
states and, where a clause is the model's own convention, the log entry (notes/assumptions).

An equation `t = { s with dmem := t.dmem, ... }` says that `t` is `s` but for the named fields: every
register it does not name is unchanged. DMEM is compared byte by byte through `readByte`.
-/

open Sys2Proof Sys2Proof.Machine Sys2Proof.Safety

/-! ### Encoding -/

/-- R57 to R60, R63: decoding the bytes of a well-formed command gives it back, with every operand at
every value, whatever follows it. -/
def Obligations.DecodeOfEncode : Prop :=
  ∀ (i : Instr) (rest : List Byte), i.wellFormed = true → decode (encode i ++ rest) = .ok (i, rest)

/-- R63: what decodes is a well-formed command, and the bytes it was read from are its encoding: no
header bit is ignored. -/
def Obligations.DecodedBytesAreTheEncoding : Prop :=
  ∀ (bs rest : List Byte) (i : Instr), decode bs = .ok (i, rest) →
    i.wellFormed = true ∧ bs = encode i ++ rest

/-- R62: a header is rejected exactly on the rule's four grounds; a run that fetches such a header raises
ILLEGAL with the header word, wherever its argument words would lie; and no other header raises it. -/
def Obligations.IllegalHeadersRaiseIllegal : Prop :=
  (∀ h : Word, (∃ r, decodeHeader h = .error r) ↔ IllegalHeader h) ∧
  (∀ s : State, Running s → s.cmdptr.toNat + 4 ≤ s.params.dmemSize →
    IllegalHeader (readWord s s.cmdptr.toNat) →
    step s = .next (takeError .illegal (readWord s s.cmdptr.toNat) s)) ∧
  (∀ s t : State, Running s → s.cmdptr.toNat + 4 ≤ s.params.dmemSize → step s = .next t →
    t.err = true → t.errCode = errorCode .illegal → s.err = false →
    IllegalHeader (readWord s s.cmdptr.toNat))

/-- Words as spec/opcode_table.json numbers their bits (the header in bits 31:0, argument i above it): NOP's
(R60), every command of the lists P1, P2 and P3 of 95_test_vectors.md, the AUD_CFG of V1.16, and the illegal
headers of V1.4 to V1.8, which R62 rejects. -/
def Obligations.SpecWordsDecode : Prop :=
  decodeTableWord 32 0x00000001 = some .nop ∧
  decodeTableWord 32 0x00000002 = some .endList ∧
  decodeTableWord 32 0x04100010 = some (.xfCfg 0 .fft 0#2 4#8) ∧
  decodeTableWord 32 0x04110110 = some (.xfCfg 1 .fft 1#2 4#8) ∧
  decodeTableWord 64 0x0000010000000011 = some (.xfPerm 0 0x100#32) ∧
  decodeTableWord 64 0x0000010000000012 = some (.xfCalc 0 0x100#32) ∧
  decodeTableWord 64 0x0000010000000111 = some (.xfPerm 1 0x100#32) ∧
  decodeTableWord 64 0x0000010000000112 = some (.xfCalc 1 0x100#32) ∧
  decodeTableWord 64 0x0000562200000020 = some (.audCfg 22050#16 0#16) ∧
  decodeTableWord 64 0x2000AC4400000020 = some (.audCfg 44100#16 0x2000#16) ∧
  decodeTableWord 160 0x0000078000002000000000500000100000000021 =
    some (.audPkt 0x1000#32 80#32 0x2000#32 1920#32) ∧
  decodeTableWord 64 0x0000000001030031 = some (.mcMotion 0 3#8 1#8 ⟨0#16, 0#16⟩) ∧
  decodeTableWord 64 0x0000000100000030 = some (.mcSkip 0 ⟨1#16, 0#16⟩) ∧
  decodeTableWord 64 0x0001000000FF0031 = some (.mcMotion 0 0xFF#8 0#8 ⟨0#16, 1#16⟩) ∧
  decodeTableWord 64 0x0001000100000030 = some (.mcSkip 0 ⟨1#16, 1#16⟩) ∧
  decodeTableWord 96 0x000012000001000100000034 = some (.mcIdctAdd 0 ⟨1#16, 1#16⟩ 0x1200#32) ∧
  decodeTableWord 32 0x00000037 = some .mcSwap ∧
  decodeTableWord 32 0x00000101 = none ∧
  decodeTableWord 64 0x00000411 = none ∧
  decodeTableWord 32 0x04140010 = none ∧
  decodeTableWord 32 0x01000010 = none ∧
  decodeTableWord 32 0x00000038 = none

/-! ### The command cycle -/

/-- R66: while a run is under way, a step is `exec` of the command that the bytes at CMDPTR decode to
(the n bytes read lie in DMEM). Nothing is added around it: `exec` itself advances CMDPTR. With a host
move `wait` pending, the step is the same and uses up that move (log entry 10). -/
def Obligations.StepRunsDecodedCommand : Prop :=
  ∀ (s : State) (i : Instr) (n : Nat) (rest : List Byte),
    s.busy = true → s.cmdptr.toNat + n ≤ s.params.dmemSize →
    decode (readBytes s s.cmdptr.toNat n) = .ok (i, rest) →
    (s.host = [] → step s = exec i s) ∧
    ∀ ms, s.host = .wait :: ms → step s = exec i { s with host := ms }

/-- R66, R131 items 1 and 3: a header word that does not lie in DMEM raises FETCH with its address; after
a legal header, so does the first argument word that does not. -/
def Obligations.FetchOutsideDmemRaises : Prop :=
  ∀ s : State, Running s →
    (s.params.dmemSize < s.cmdptr.toNat + 4 → step s = .next (takeError .fetch s.cmdptr s)) ∧
    ∀ (hd : Header) (j : Nat), s.cmdptr.toNat + 4 ≤ s.params.dmemSize →
      decodeHeader (readWord s s.cmdptr.toNat) = .ok hd → j < hd.argCount →
      s.cmdptr.toNat + 4 + 4 * j ≤ s.params.dmemSize →
      s.params.dmemSize < s.cmdptr.toNat + 4 + 4 * j + 4 →
      step s = .next (takeError .fetch (BitVec.ofNat 32 (s.cmdptr.toNat + 4 + 4 * j)) s)

/-- R66, R142: when BUSY = 0 the sequencer takes no step. That the model's step then answers the same
state is the model's form of it (log entry 9). -/
def Obligations.IdleSequencerChangesNothing : Prop :=
  ∀ s : State, s.host = [] → s.busy = false → step s = .next s

/-- R67, R148: with legal parameters and CMDPTR aligned, every run ends by itself with END or an error,
after at most DMEM_SIZE / 4 completed commands and the step that ends it (log entry 22: the rule's count
leaves out a final FETCH). At its end BUSY = 0 and exactly one of DONE and ERR is 1. -/
def Obligations.EveryRunEnds : Prop :=
  ∀ s : State, Running s → s.params.Legal → s.cmdptr.toNat % 4 = 0 → s.done = false → s.err = false →
    ∃ n t, n ≤ s.params.dmemSize / 4 + 1 ∧ steps n s = .next t ∧ t.busy = false ∧
      (t.done = true ∧ t.err = false ∨ t.done = false ∧ t.err = true)

/-- R71, R130: every command, in every state, answers a next state: it completes or raises an error, and
neither faults nor is refused. So does every step of the sequencer. In particular the model's own guard
dmemOutside, which no rule of the spec asks for, is never reached (log entry 15). -/
def Obligations.CommandsAlwaysAnswer : Prop :=
  (∀ (i : Instr) (s : State), Answers (exec i s)) ∧ ∀ s : State, s.host = [] → Answers (step s)

/-- R18, R66, R130, R132: a command that is not END either completes (CMDPTR moves past it, STATUS and the
error registers stay) or raises exactly one error of R129 (ERRPC and CMDPTR hold its own address, BUSY
falls, ERR rises, DONE stays). END completes. -/
def Obligations.CommandCompletesOrRaisesOnce : Prop :=
  ∀ (i : Instr) (s t : State), exec i s = .next t →
    (i ≠ .endList ∧ t.cmdptr = s.cmdptr + BitVec.ofNat 32 (4 * (1 + i.argCount)) ∧ t.busy = s.busy ∧
      t.done = s.done ∧ t.err = s.err ∧ t.errCode = s.errCode ∧ t.errPc = s.errPc ∧
      t.errInfo = s.errInfo) ∨
    (i ≠ .endList ∧ t.cmdptr = s.cmdptr ∧ t.errPc = s.cmdptr ∧ t.busy = false ∧ t.err = true ∧
      t.done = s.done ∧ ∃ e : BteError, t.errCode = errorCode e) ∨
    (i = .endList ∧ t = { s with cmdptr := s.cmdptr + 4#32, busy := false, done := true })

/-- R132: raising error E with info v at the command at CMDPTR, and nothing else changes; the IRQ output
is then IRQEN. -/
def Obligations.ErrorEntry : Prop :=
  ∀ (e : BteError) (v : Word) (s : State),
    raise e v s = .next { s with errCode := errorCode e, errPc := s.cmdptr, errInfo := v,
                                 cmdptr := s.cmdptr, busy := false, err := true } ∧
    irq (takeError e v s) = s.irqEn

/-- R131: an error of classes 1 to 4 is raised before the command writes anything. Only AUD_PKT's
AUD_OUT_OVF (11) and BIT_OVERRUN (10) come later. -/
def Obligations.ErrorsPrecedeWrites : Prop :=
  ∀ (i : Instr) (s t : State), s.busy = true → s.err = false → exec i s = .next t → t.err = true →
    t.errCode ≠ errorCode .bitOverrun → t.errCode ≠ errorCode .audOutOvf →
    ∃ (e : BteError) (v : Word), t = takeError e v s

/-! ### Invariants -/

/-- R40, R42: every step keeps DMEM in its canonical form, with addresses inside DMEM only (the form is
the model's: log entry 8). -/
def Obligations.MemoryFormKept : Prop :=
  ∀ s t : State, MemoryOk s → step s = .next t → MemoryOk t

/-- R25: at most one of BUSY, DONE and ERR is 1, and every step keeps it so. -/
def Obligations.StatusFlagsStayExclusive : Prop :=
  ∀ s t : State, FlagsOk s → step s = .next t → FlagsOk t

/-- R18, R26, R129: bits 1:0 of CMDPTR and ERRPC stay 0; ERRCODE stays a code of R129, nonzero while
ERR = 1, and where it is 0, ERRPC and ERRINFO are 0. -/
def Obligations.SequencerRegistersStayLegal : Prop :=
  ∀ s t : State, PointersOk s → ErrorsOk s → step s = .next t → PointersOk t ∧ ErrorsOk t

/-- R32, R73: every transform context stays at its reset value or a legal configuration. -/
def Obligations.ContextsStayLegal : Prop :=
  ∀ s t : State, ContextsOk s → step s = .next t → ContextsOk t

/-- R33 to R37, R113: the track stays the reset track or one that AUD_CFG builds; PREV stays 0 at and
beyond OVERLAP·CH. -/
def Obligations.TrackStaysConfigured : Prop :=
  ∀ s t : State, TrackOk s.track → step s = .next t → TrackOk t.track

/-- R16, R32, R33, R71, R111: which command may write which state. No command writes a plane register,
IRQEN, a parameter or the host's side; only XF_CFG writes a context, and only its own; only AUD_CFG and
AUD_PKT write the track; only MC_SWAP writes CUR. -/
def Obligations.EachUnitWritesItsOwnState : Prop :=
  ∀ (i : Instr) (s t : State), exec i s = .next t →
    (t.params = s.params ∧ t.irqEn = s.irqEn ∧ t.pbase = s.pbase ∧ t.pw = s.pw ∧ t.ph = s.ph ∧
      t.pitch = s.pitch ∧ t.host = s.host ∧ t.hostRdata = s.hostRdata) ∧
    (∀ c : CtxIdx, (∀ kind type bits, i ≠ .xfCfg c kind type bits) → context t c = context s c) ∧
    ((∀ rate flags, i ≠ .audCfg rate flags) → (∀ src avail dst cap, i ≠ .audPkt src avail dst cap) →
      t.track = s.track) ∧
    (i ≠ .mcSwap → t.cur = s.cur)

/-- R143, R144: the state after power-on reset meets every invariant, and every register of the host's
window reads the value R19 and R143 give: 0 but for ID, VERSION and DMEMSIZE. A reset while powered, even
while BUSY = 1, makes every register read so, and leaves every byte of DMEM as it was. That it also keeps
the parameters, the draw counter, the host's last read value and its pending moves is the model's choice:
no rule names these fields (log entries 7, 10 and 17). -/
def Obligations.ResetState : Prop :=
  Sound State.reset ∧ irq State.reset = false ∧
  (∀ off : Nat, off ≠ 0x000 → off ≠ 0x004 → off ≠ 0x024 → mmioValue State.reset off = 0#32) ∧
  mmioValue State.reset 0x000 = 0x4B4E4942#32 ∧ mmioValue State.reset 0x004 = 0x00000007#32 ∧
  mmioValue State.reset 0x024 = BitVec.ofNat 32 State.reset.params.dmemSize ∧
  ∀ (s : State) (ms : List HostMove), s.host = .reset :: ms → ∃ t, step s = .next t ∧
    t = { State.reset with params := s.params, dmem := s.dmem, draws := s.draws, host := ms,
                           hostRdata := s.hostRdata } ∧
    ∀ a, readByte t a = readByte s a

/-! ### Control commands -/

/-- R68: NOP completes in every state and only advances CMDPTR by 4. -/
def Obligations.NopAdvances : Prop :=
  ∀ s : State, exec .nop s = .next { s with cmdptr := s.cmdptr + 4#32 }

/-- R69: END completes in every state: CMDPTR past itself, BUSY ← 0, DONE ← 1; the IRQ output is then
IRQEN, and nothing else changes. -/
def Obligations.EndStopsTheRun : Prop :=
  ∀ s : State, ∃ t, exec .endList s = .next t ∧
    t = { s with cmdptr := s.cmdptr + 4#32, busy := false, done := true } ∧ irq t = s.irqEn

/-! ### Transform commands -/

/-- R73: a well-formed XF_CFG whose size is in its kind's range completes and writes its context whole,
no other context and nothing else but CMDPTR. The context register then reads as R32 lays it out. -/
def Obligations.XfCfgConfiguresContext : Prop :=
  ∀ (c : CtxIdx) (kind : XfKind) (type : BitVec 2) (bits : BitVec 8) (s : State),
    (Instr.xfCfg c kind type bits).wellFormed = true →
    (kind = .fft → 4 ≤ bits.toNat ∧ bits.toNat ≤ 16) →
    (kind = .rdft → 5 ≤ bits.toNat ∧ bits.toNat ≤ 16) →
    (kind = .dct → 5 ≤ bits.toNat ∧ bits.toNat ≤ 14) →
    ∃ t, exec (.xfCfg c kind type bits) s = .next t ∧
      t = { s with ctx := t.ctx, cmdptr := s.cmdptr + 4#32 } ∧
      (context t c).kind = kind ∧ (context t c).type = type ∧ (context t c).bits.toNat = bits.toNat ∧
      (∀ d : CtxIdx, d ≠ c → context t d = context s d) ∧
      mmioValue t (0x080 + 4 * c.val) =
        BitVec.ofNat 32 (kind.code.toNat + 16 * type.toNat + 256 * bits.toNat)

/-- R74, R79: on an FFT context of N = 2^bits points and a region of 8N bytes that is aligned and inside
DMEM, XF_PERM completes; element j moves to index revtab[j] with its bits unchanged, and nothing outside
the region and but for CMDPTR changes. -/
def Obligations.XfPermMovesElements : Prop :=
  ∀ (c : CtxIdx) (addr : Word) (s : State), (context s c).kind = .fft →
    RegionOk s addr (8 * 2 ^ (context s c).bits.toNat) →
    ∃ t, exec (.xfPerm c addr) s = .next t ∧
      t = { s with dmem := t.dmem, cmdptr := s.cmdptr + 8#32 } ∧
      (∀ j, j < 2 ^ (context s c).bits.toNat →
        let k := (revtab (context s c).bits.toNat ((context s c).type == 1#2)).getD j 0
        readWord t (addr.toNat + 8 * k) = readWord s (addr.toNat + 8 * j) ∧
        readWord t (addr.toNat + 8 * k + 4) = readWord s (addr.toNat + 8 * j + 4)) ∧
      SameOutside (InRegion addr.toNat (8 * 2 ^ (context s c).bits.toNat)) s t

/-- R78: for every size and direction, revtab is a permutation of 0 .. N-1, and
`revtab[(-srp(i, N, inv)) mod N] = i`. -/
def Obligations.RevtabIsAPermutation : Prop :=
  ∀ (k : Nat) (inv : Bool),
    (revtab k inv).size = 2 ^ k ∧
    (∀ i, i < 2 ^ k → revIndex k inv i < 2 ^ k ∧ (revtab k inv).getD (revIndex k inv i) 0 = i) ∧
    ∀ j, j < 2 ^ k → (revtab k inv).getD j 0 < 2 ^ k ∧ revIndex k inv ((revtab k inv).getD j 0) = j

/-- R75: on a configured context, with its buffer aligned and inside DMEM, XF_CALC completes; word k of the
buffer becomes the image of element k of the context's transform of the floats that stood there, and
nothing outside the buffer changes but CMDPTR and the model's draw counter. A NaN's image holds for every
draw (log entries 4 and 7). -/
def Obligations.XfCalcStoresTransform : Prop :=
  ∀ (c : CtxIdx) (addr : Word) (s : State), (context s c).kind ≠ .none →
    RegionOk s addr (bufferBytes (context s c)) →
    ∃ t, exec (.xfCalc c addr) s = .next t ∧
      t = { s with dmem := t.dmem, draws := t.draws, cmdptr := s.cmdptr + 8#32 } ∧
      (calculated s.params (context s c)
        (readFloats s addr.toNat (bufferElems (context s c)))).length = bufferElems (context s c) ∧
      (∀ k, k < bufferElems (context s c) →
        readWord t (addr.toNat + 4 * k) =
          floatImage (s.draws + k) ((calculated s.params (context s c)
            (readFloats s addr.toNat (bufferElems (context s c)))).getD k F32.zero)) ∧
      SameOutside (InRegion addr.toNat (bufferBytes (context s c))) s t

/-- R75, R80, R150: XF_CALC on an FFT context neither permutes nor reads its TYPE: it is R80's recursion on
the elements as they stand, for either direction. R88, R89: on an RDFT context the type code chooses the
constants of R88; a forward type runs the core FFT and then the fold, element by element, an inverse type the
fold, the halving of elements 0 and 1, and then the core FFT. -/
def Obligations.FftAndRdftFollowTheirProcedures : Prop :=
  (∀ (p : Params) (x : Context) (d : List F32), x.kind = .fft →
    calculated p x d = floatsOfCx (fftnAt p x.bits.toNat (cxOfFloats d).toArray 0).toList ∧
    ∀ type : BitVec 2, calculated p { x with type := type } d = calculated p x d) ∧
  ∀ (p : Params) (x : Context) (d : List F32), x.kind = .rdft → 5 ≤ x.bits.toNat → x.bits.toNat ≤ 16 →
    d.length = 2 ^ x.bits.toNat →
    ∀ r ∈ rdftRows, x.type = r.code →
      (r.inverse = false →
        RdftFolds p x.bits.toNat r (coreOf p x.bits.toNat r.fftInv d) (calculated p x d)) ∧
      (r.inverse = true → ∃ v, RdftFolds p x.bits.toNat r d v ∧
        calculated p x d = coreOf p x.bits.toNat r.fftInv (halvedEnds v))

/-- R91 to R96: on a DCT context the type code chooses the procedure: DCT_I (0) on n + 1 elements, DCT_II (1),
DCT_III (2) and DST_I (3) on n. Each folds its buffer, runs the RDFT of n samples (IDFT_C2R for DCT_III,
DFT_R2C for the others) and unfolds the result, element by element. -/
def Obligations.DctTypesFollowTheirProcedures : Prop :=
  ∀ (p : Params) (x : Context) (d : List F32), x.kind = .dct → 5 ≤ x.bits.toNat → x.bits.toNat ≤ 14 →
    (x.type = 0#2 → d.length = 2 ^ x.bits.toNat + 1 → ∃ u, DctIBefore p x.bits.toNat d u ∧
      DctIAfter p x.bits.toNat d (rdftOf p 0#2 x.bits u) (calculated p x d)) ∧
    (x.type = 1#2 → d.length = 2 ^ x.bits.toNat → ∃ u, DctIIBefore p x.bits.toNat d u ∧
      DctIIAfter p x.bits.toNat (rdftOf p 0#2 x.bits u) (calculated p x d)) ∧
    (x.type = 2#2 → d.length = 2 ^ x.bits.toNat → ∃ u, DctIIIBefore p x.bits.toNat d u ∧
      DctIIIAfter p x.bits.toNat (rdftOf p 1#2 x.bits u) (calculated p x d)) ∧
    (x.type = 3#2 → d.length = 2 ^ x.bits.toNat → ∃ u, DstIBefore p x.bits.toNat d u ∧
      DstIAfter x.bits.toNat (rdftOf p 0#2 x.bits u) (calculated p x d))

/-- R72 to R75, R131: the errors of the XF commands, in their order, each before any write: XF_BITS with the
size where it is outside its kind's range, XF_CTX with the context, ALIGN and ADDR with the address. -/
def Obligations.XfErrorsInOrder : Prop :=
  ∀ (c : CtxIdx) (addr : Word) (kind : XfKind) (type : BitVec 2) (bits : BitVec 8) (s : State),
    ((kind = .fft ∧ (bits.toNat < 4 ∨ 16 < bits.toNat) ∨
        kind = .rdft ∧ (bits.toNat < 5 ∨ 16 < bits.toNat) ∨
        kind = .dct ∧ (bits.toNat < 5 ∨ 14 < bits.toNat)) →
      exec (.xfCfg c kind type bits) s = .next (takeError .xfBits (BitVec.ofNat 32 bits.toNat) s)) ∧
    ((context s c).kind ≠ .fft →
      exec (.xfPerm c addr) s = .next (takeError .xfCtx (BitVec.ofNat 32 c.val) s)) ∧
    ((context s c).kind = .fft → addr.toNat % 4 ≠ 0 →
      exec (.xfPerm c addr) s = .next (takeError .align addr s)) ∧
    ((context s c).kind = .fft → addr.toNat % 4 = 0 →
      s.params.dmemSize < addr.toNat + 8 * 2 ^ (context s c).bits.toNat →
      exec (.xfPerm c addr) s = .next (takeError .addr addr s)) ∧
    ((context s c).kind = .none →
      exec (.xfCalc c addr) s = .next (takeError .xfCtx (BitVec.ofNat 32 c.val) s)) ∧
    ((context s c).kind ≠ .none → addr.toNat % 4 ≠ 0 →
      exec (.xfCalc c addr) s = .next (takeError .align addr s)) ∧
    ((context s c).kind ≠ .none → addr.toNat % 4 = 0 →
      s.params.dmemSize < addr.toNat + bufferBytes (context s c) →
      exec (.xfCalc c addr) s = .next (takeError .addr addr s))

/-- R10: `rne32` of a datum whose rounding is finite is a binary32 value nearest to it; no other binary32
value is as near unless the datum lies half-way, and then the result's last bit is 0. A datum of magnitude
at least 2^128 - 2^103 overflows to the infinity of its sign, and only such a one does. The result has the
sign of the datum, a zero too. -/
def Obligations.RoundsToNearestEven : Prop :=
  ∀ (neg : Bool) (m : Nat) (e : Int),
    (∀ q : ℚ, f32Value (rne32 (.fin neg m e)) = some q →
      ∀ (y : F32) (v : ℚ), f32Value y = some v →
        |ratOf neg m e - q| ≤ |ratOf neg m e - v| ∧
        (v ≠ q → |ratOf neg m e - q| = |ratOf neg m e - v| →
          (rne32 (.fin neg m e)).bits.getLsbD 0 = false)) ∧
    (f32Num (rne32 (.fin neg m e)) = .inf neg ↔ (2 : ℚ) ^ (128 : ℕ) - 2 ^ (103 : ℕ) ≤ (m : ℚ) * (2 : ℚ) ^ e) ∧
    f32Num (rne32 (.fin neg m e)) ≠ .nan ∧ (rne32 (.fin neg m e)).bits.getLsbD 31 = neg

/-- R10: a sum, difference or product of finite binary32 values is `rne32` of one exact datum whose value is
the exact sum, difference or product: one rounding, no wider intermediate. Unary minus flips the sign bit. -/
def Obligations.FloatOperationsRoundOnce : Prop :=
  ∀ (a b : F32) (x y : ℚ), f32Value a = some x → f32Value b = some y →
    (∃ neg m e, fadd a b = rne32 (.fin neg m e) ∧ ratOf neg m e = x + y) ∧
    (∃ neg m e, fsub a b = rne32 (.fin neg m e) ∧ ratOf neg m e = x - y) ∧
    (∃ neg m e, fmul a b = rne32 (.fin neg m e) ∧ ratOf neg m e = x * y) ∧
    f32Value (fneg a) = some (-x) ∧ (fneg a).bits = a.bits ^^^ 0x80000000#32

/-! ### Audio commands -/

/-- R113: AUD_CFG with a nonzero rate completes and builds the track; bit 12 of the flags chooses the DCT
codec, bit 13 stereo, no other flag bit matters; interleaved stereo (RDFT with two output channels) doubles
the frame and the effective rate and has one internal channel. ROOT is 2/sqrt(F) in binary32. The track is
the configured track whose NBANDS and BANDS the statement BandBoundaries gives. Nothing but the track and
CMDPTR changes. With rate 0 it raises AUD_CFG with the argument word. -/
def Obligations.AudCfgBuildsTrack : Prop :=
  ∀ (rate flags : Half) (s : State),
    (rate = 0#16 → exec (.audCfg rate flags) s = .next (takeError .audCfg (flags ++ rate) s)) ∧
    (rate ≠ 0#16 →
      let dct := flags.getLsbD 12
      let stereo := flags.getLsbD 13
      let inter := !dct && stereo
      let fb := (if rate.toNat < 22050 then 9 else if rate.toNat < 44100 then 10 else 11) +
        (if inter then 1 else 0)
      let ch := if !inter && stereo then 2 else 1
      ∃ t, exec (.audCfg rate flags) s = .next t ∧
        t = { s with track := t.track, cmdptr := s.cmdptr + 8#32 } ∧
        t.track.valid = true ∧ t.track.first = true ∧ t.track.fault = false ∧
        t.track.codec = (if dct then .dct else .rdft) ∧ t.track.ch.toNat = ch ∧
        t.track.outCh.toNat = (if stereo then 2 else 1) ∧ t.track.rate = rate ∧
        t.track.frameLen.toNat = 2 ^ fb ∧ t.track.overlap.toNat = 2 ^ fb / 16 ∧
        t.track.blockSize.toNat = (2 ^ fb - 2 ^ fb / 16) * ch ∧ t.track.xfBits.toNat = fb ∧
        t.track.effRate.toNat = (if inter then 2 * rate.toNat else rate.toNat) ∧
        t.track.root.bits = (if fb = 9 then 0x3DB504F3#32 else if fb = 10 then 0x3D800000#32
          else if fb = 11 then 0x3D3504F3#32 else 0x3D000000#32) ∧
        t.track.pktLen = 0#32 ∧ t.track.reported = 0#32 ∧ t.track.outCnt = 0#32 ∧ t.track.next = 0#32 ∧
        (∀ i, prevAt t.track i = 0#16) ∧
        t.track = configuredTrack rate (if dct then .dct else .rdft) stereo)

/-- R114, R115: the bands of a configured track. NBANDS is the least n of 1 .. 25 with n = 25 or half the
effective rate (rounded up) at most CRIT[n-1]; the boundaries are 2, the scaled critical frequencies, F,
then 0; they never fall, and the inner ones are even and less than F. -/
def Obligations.BandBoundaries : Prop :=
  ∀ (rate : Half) (codec : Codec) (stereo : Bool), rate ≠ 0#16 →
    let t := configuredTrack rate codec stereo
    let F := t.frameLen.toNat
    let srh := (t.effRate.toNat + 1) / 2
    let nb := t.nBands.toNat
    1 ≤ nb ∧ nb ≤ 25 ∧ (∀ k, k + 1 < nb → crit k < srh) ∧ (nb = 25 ∨ srh ≤ crit (nb - 1)) ∧
    bandAt t 0 = 2 ∧ bandAt t nb = F ∧ (∀ i, nb < i → bandAt t i = 0) ∧
    (∀ i, 1 ≤ i → i < nb → bandAt t i = 2 * (crit (i - 1) * (F / 2) / srh) ∧ bandAt t i % 2 = 0 ∧
      bandAt t i < F) ∧
    ∀ i j, i ≤ j → j ≤ nb → bandAt t i ≤ bandAt t j

/-- R117: AUD_PKT's six checks, in order, each before any write: AUD_STATE with ACFG, ALIGN of dst, ADDR of
src, ADDR of dst, AUD_PKT_LEN of avail, AUD_PKT_LEN of the packet's length word L. -/
def Obligations.AudPktChecksInOrder : Prop :=
  ∀ (src avail dst cap : Word) (s : State),
    let L := readWord s src.toNat
    let out := exec (.audPkt src avail dst cap) s
    (s.track.valid = false ∨ s.track.fault = true →
      out = .next (takeError .audState (mmioValue s 0x100) s)) ∧
    (s.track.valid = true → s.track.fault = false →
      (dst.toNat % 2 ≠ 0 → out = .next (takeError .align dst s)) ∧
      (dst.toNat % 2 = 0 →
        (s.params.dmemSize < src.toNat + avail.toNat → out = .next (takeError .addr src s)) ∧
        (src.toNat + avail.toNat ≤ s.params.dmemSize →
          (s.params.dmemSize < dst.toNat + 2 * cap.toNat → out = .next (takeError .addr dst s)) ∧
          (dst.toNat + 2 * cap.toNat ≤ s.params.dmemSize →
            (avail.toNat < 4 → out = .next (takeError .audPktLen avail s)) ∧
            (4 ≤ avail.toNat → avail.toNat < L.toNat + 4 →
              out = .next (takeError .audPktLen L s))))))

/-- R116, R117: a packet that passes the checks with L < 4 has no blocks: AUD_PKT completes, records L and
where the packet ends, and writes no sample. -/
def Obligations.AudPktEmptyPacket : Prop :=
  ∀ (src avail dst cap : Word) (s : State), PacketOk s src avail dst cap →
    (readWord s src.toNat).toNat < 4 →
    exec (.audPkt src avail dst cap) s = .next { s with
      track := { s.track with
        pktLen := readWord s src.toNat, reported := 0#32, outCnt := 0#32
        next := BitVec.ofNat 32 (src.toNat + 4 + (readWord s src.toNat).toNat) }
      cmdptr := s.cmdptr + 20#32 }

/-- R117, R121, R128: a packet of one block, whose samples fit, completes. The block's samples stand at dst;
the packet registers, OUTCNT, PREV and FIRST are updated; nothing else changes but CMDPTR and the model's
draw counter. Statement for a track that AUD_CFG may have built. That 8·(L - 4) does not wrap for packets of
2^28 bytes and more is the model's choice (log entry 26). -/
def Obligations.AudPktOneBlock : Prop :=
  ∀ (src avail dst cap : Word) (s : State) (chans : List (Array F32)) (q : Nat),
    PacketOk s src avail dst cap → TrackOk s.track → 4 < (readWord s src.toNat).toNat →
    s.track.blockSize.toNat ≤ cap.toNat →
    readBlockBits s.params s.track (packetBits src (readWord s src.toNat) s) 0 = .ok (chans, q) →
    8 * ((readWord s src.toNat).toNat - 4) ≤ alignPos q →
    let out := overlapAdd s.track
      (pcmSamples s.params s.track s.draws (chans.map (trackTransform s.params s.track)))
    ∃ t, exec (.audPkt src avail dst cap) s = .next t ∧
      t = { s with dmem := t.dmem, draws := t.draws, track := t.track, cmdptr := s.cmdptr + 20#32 } ∧
      t.track = { s.track with
        pktLen := readWord s src.toNat, reported := readWord s (src.toNat + 4)
        next := BitVec.ofNat 32 (src.toNat + 4 + (readWord s src.toNat).toNat)
        outCnt := s.track.blockSize, first := false, prev := t.track.prev } ∧
      (∀ i, i < s.track.blockSize.toNat → readHalf t (dst.toNat + 2 * i) = sampleAt out i) ∧
      (∀ i, i < overlapCount s.track →
        prevAt t.track i = sampleAt out (s.track.blockSize.toNat + i)) ∧
      (∀ i, overlapCount s.track ≤ i → prevAt t.track i = prevAt s.track i) ∧
      SameOutside (InRegion dst.toNat (2 * s.track.blockSize.toNat)) s t

/-- R117, R118, R121: a packet that passes the checks with L ≥ 4 is decoded block by block while unread bits
remain. It completes once none remain; else the next block does not fit (AUD_OUT_OVF with OUTCNT) or reads
past the end (BIT_OVERRUN with the position of the failing read, where 32 bits hold it: log entry 25), FAULT
is set, and the blocks before it stay as committed. That NBITS = 8·(L - 4) and the position are unbounded, so
that decoding goes on through packets of 2^28 bytes and more, is the model's choice (log entry 26). -/
def Obligations.AudPktDecodesBlocksInOrder : Prop :=
  ∀ (src avail dst cap : Word) (s : State), PacketOk s src avail dst cap → TrackOk s.track →
    4 ≤ (readWord s src.toNat).toNat →
    let L := readWord s src.toNat
    let b := packetBits src L s
    ∃ pos u, Blocks b dst.toNat cap.toNat 0 (beginPacket src L (readWord s (src.toNat + 4)) s) pos u ∧
      (b.size ≤ pos ∧ exec (.audPkt src avail dst cap) s = .next { u with cmdptr := s.cmdptr + 20#32 } ∨
       pos < b.size ∧ cap.toNat < u.track.outCnt.toNat + u.track.blockSize.toNat ∧
        exec (.audPkt src avail dst cap) s =
          .next (takeError .audOutOvf u.track.outCnt { u with track := { u.track with fault := true } }) ∨
       ∃ (q : Nat) (info : Word), (q < 2 ^ 32 → info.toNat = q) ∧ pos < b.size ∧
        u.track.outCnt.toNat + u.track.blockSize.toNat ≤ cap.toNat ∧
        readBlockBits u.params u.track b pos = .error q ∧
        exec (.audPkt src avail dst cap) s =
          .next (takeError .bitOverrun info { u with track := { u.track with fault := true } }))

/-- R48, R117: whatever AUD_PKT does, it writes no byte outside its output area of 2·cap bytes at dst, and no
register but the track's, CMDPTR and the error state's. -/
def Obligations.AudPktWritesOnlyItsOutput : Prop :=
  ∀ (src avail dst cap : Word) (s t : State), exec (.audPkt src avail dst cap) s = .next t →
    t = { s with dmem := t.dmem, draws := t.draws, track := t.track, cmdptr := t.cmdptr, busy := t.busy,
                 err := t.err, errCode := t.errCode, errPc := t.errPc, errInfo := t.errInfo } ∧
    SameOutside (InRegion dst.toNat (2 * cap.toNat)) s t

/-- R118: an AUD_PKT that ends in AUD_OUT_OVF or BIT_OVERRUN leaves FAULT set; while it is set every AUD_PKT
raises AUD_STATE; and no command but AUD_CFG clears it. -/
def Obligations.FaultedTrackStaysFaulted : Prop :=
  (∀ (src avail dst cap : Word) (s t : State), s.busy = true → s.err = false →
    exec (.audPkt src avail dst cap) s = .next t → t.err = true →
    t.errCode = errorCode .audOutOvf ∨ t.errCode = errorCode .bitOverrun → t.track.fault = true) ∧
  (∀ (src avail dst cap : Word) (s : State), s.track.fault = true →
    exec (.audPkt src avail dst cap) s = .next (takeError .audState (mmioValue s 0x100) s)) ∧
  ∀ (i : Instr) (s t : State), s.track.fault = true → (∀ rate flags, i ≠ .audCfg rate flags) →
    exec i s = .next t → t.track.fault = true

/-- R45, R119: `get(n)` at a position reads n bits, the first one least significant, from the bytes of the
bitstream in ascending address order, and moves past them; where fewer remain, it fails with that position.
R119 states this for n up to 23; that larger n are read by the same formula is the model's inference (log
entry 19), and that NBITS and the position never wrap, however long the bitstream, its choice (log entry 26). -/
def Obligations.BitReaderReadsLsbFirst : Prop :=
  ∀ (bs : List Byte) (n pos : Nat),
    (pos + n ≤ 8 * bs.length → getBits (bitSourceOf bs) n pos = .ok (bitSum bs pos n, pos + n)) ∧
    (8 * bs.length < pos + n → getBits (bitSourceOf bs) n pos = .error pos)

/-- R120: `getFloat()` reads a 5-bit exponent, a 23-bit mantissa and a sign, in that order, and its value is
±mant·2^(power - 23), exactly; a zero keeps its sign. Each of the three reads fails at its own position (R119;
that positions of 2^31 and more do not wrap is the model's choice: log entry 26). -/
def Obligations.GetFloatIsExact : Prop :=
  ∀ (bs : List Byte) (pos : Nat),
    (pos + 29 ≤ 8 * bs.length → ∃ f, getFloat (bitSourceOf bs) pos = .ok (f, pos + 29) ∧
      f32Value f = some (ratOf (bitOf bs (pos + 28)) (bitSum bs (pos + 5) 23)
        ((bitSum bs pos 5 : Int) - 23)) ∧
      f.bits.getLsbD 31 = bitOf bs (pos + 28)) ∧
    (8 * bs.length < pos + 5 → getFloat (bitSourceOf bs) pos = .error pos) ∧
    (pos + 5 ≤ 8 * bs.length → 8 * bs.length < pos + 28 →
      getFloat (bitSourceOf bs) pos = .error (pos + 5)) ∧
    (pos + 28 ≤ 8 * bs.length → 8 * bs.length < pos + 29 →
      getFloat (bitSourceOf bs) pos = .error (pos + 28))

/-- R121 to R125: a DCT block begins with DCT_BLOCK_SKIP_BITS bits that are read and discarded, an RDFT block
does not. A channel is two floats times ROOT, NBANDS 8-bit values, and runs of 8 or 8·RLE[index]
coefficients, the last one cut at F, zeros where the width is 0; every other coefficient is read with the step
of the band it lies in, QUANT of that band's value. A zero magnitude is +0.0 and is followed by a sign bit only
where ZERO_SIGN_BIT is PRESENT; any other is followed by one, and is the step, negated where it is 1, times the
magnitude. QUANT multiplies by ROOT the exponential of the value, clamped at QUANT_VALUE_MAX, times
QUANT_EXP_K. Skips above 23 bits (log entry 19) and positions that never wrap (log entry 26) are the model's. -/
def Obligations.CoefficientsDecodeRunByRun : Prop :=
  (∀ (p : Params) (t : Track) (b : BitSource) (pos : Nat), t.codec = .dct →
    (b.size < pos + p.dctBlockSkipBits.toNat → readBlockBits p t b pos = .error pos) ∧
    (pos + p.dctBlockSkipBits.toNat ≤ b.size →
      readBlockBits p t b pos = readChannels p t b t.ch.toNat (pos + p.dctBlockSkipBits.toNat))) ∧
  (∀ (p : Params) (t : Track) (b : BitSource) (pos : Nat), t.codec = .rdft → pos ≤ b.size →
    readBlockBits p t b pos = readChannels p t b t.ch.toNat pos) ∧
  (∀ (p : Params) (t : Track) (b : BitSource) (stepAt : List Nat → Nat → F32), TrackOk t → t.valid = true →
    (∀ vs k i, k < t.nBands.toNat → bandAt t k ≤ i → i < bandAt t (k + 1) →
      stepAt vs i = quantStep p t.root (vs.getD k 0)) →
    readChannel p t b = do
      let c0 ← getFloat b
      let c1 ← getFloat b
      let vs ← readValues b t.nBands.toNat
      let cs ← runsByLength p b t.frameLen.toNat (stepAt vs) t.frameLen.toNat 2
      pure (fmul c0 t.root :: fmul c1 t.root :: cs).toArray) ∧
  (∀ (p : Params) (root : F32) (v : Nat),
    (v ≤ p.quantValueMax.toNat →
      quantStep p root v = fmul (EXPF p (fmul (f32OfNat v) ⟨p.quantExpK⟩)) root) ∧
    (p.quantValueMax.toNat ≤ v → quantStep p root v = quantStep p root p.quantValueMax.toNat)) ∧
  (quantStep Params.default ⟨0x3D800000#32⟩ 1).bits = 0x3D95253B#32 ∧
  (quantStep Params.default ⟨0x3D800000#32⟩ 95).bits = 0x47F81729#32 ∧
  ∀ (p : Params) (bs : List Byte) (width pos : Nat) (q : F32), pos + width + 1 ≤ 8 * bs.length →
    let v := bitSum bs pos width
    (v = 0 → p.zeroSignBit = .absent →
      readCoef p (bitSourceOf bs) width q pos = .ok (F32.zero, pos + width)) ∧
    (v = 0 → p.zeroSignBit = .present →
      readCoef p (bitSourceOf bs) width q pos = .ok (F32.zero, pos + width + 1)) ∧
    (v ≠ 0 → readCoef p (bitSourceOf bs) width q pos =
      .ok (fmul (if bitOf bs (pos + width) then fneg q else q) (f32OfNat v), pos + width + 1))

/-- R127: the PCM sample of a finite x is floor(x + 1/2), or x rounded to the nearest integer with ties to
even, clamped to int16; an infinity gives the end of the range on its side. A NaN's sample is the free
value drawn for it (log entry 6). -/
def Obligations.PcmRoundsAndClamps : Prop :=
  ∀ (n : Nat) (x : F32),
    (∀ q : ℚ, f32Value x = some q →
      (pcm .halfUp n x).toInt = min (max ⌊q + 1 / 2⌋ (-32768)) 32767 ∧
      ∃ z : ℤ, |q - z| ≤ 1 / 2 ∧ (|q - z| = 1 / 2 → Even z) ∧
        (pcm .halfEven n x).toInt = min (max z (-32768)) 32767) ∧
    (∀ r : PcmRound, (f32Num x = .inf false → (pcm r n x).toInt = 32767) ∧
      (f32Num x = .inf true → (pcm r n x).toInt = -32768) ∧
      (f32Num x = .nan → pcm r n x = Config.pcmDraw n))

/-- R128: over a count of samples that is a power of two, sample i of the overlap-add is
floor((prev·(count - i) + out·i) / count), which lies between its two inputs; the samples from count on,
and all samples of a first block, stay. -/
def Obligations.OverlapAddCrossfades : Prop :=
  (∀ (prev out : Half) (k i : Nat), i ≤ 2 ^ k →
    (crossfade prev out (2 ^ k) i).toInt =
      (prev.toInt * ((2 : Int) ^ k - i) + out.toInt * i) / (2 : Int) ^ k ∧
    min prev.toInt out.toInt ≤ (crossfade prev out (2 ^ k) i).toInt ∧
    (crossfade prev out (2 ^ k) i).toInt ≤ max prev.toInt out.toInt) ∧
  ∀ (t : Track) (out : Array Half),
    (t.first = true → overlapAdd t out = out) ∧
    (t.first = false → ∀ i, i < out.size → sampleAt (overlapAdd t out) i =
      if i < overlapCount t then crossfade (prevAt t i) (sampleAt out i) (overlapCount t) i
      else sampleAt out i)

/-! ### Motion-compensation commands -/

/-- R98, R99, R102: on a valid plane and a legal position MC_SKIP completes: each pixel of the block in the
cur buffer becomes the pixel at the same position of the old buffer; nothing else changes but CMDPTR. -/
def Obligations.McSkipCopiesBlock : Prop :=
  ∀ (p : PlaneIdx) (pos : BlockPos) (s : State), PlaneOk s p → PosOk s p pos →
    ∃ t, exec (.mcSkip p pos) s = .next t ∧
      t = { s with dmem := t.dmem, cmdptr := s.cmdptr + 8#32 } ∧
      (∀ r c, r < 8 → c < 8 →
        readByte t (pixelAddr (blockDst s p pos) (planePitch s p) r c) =
          readByte s (oldBase s p + (8 * pos.brow.toNat + r) * planePitch s p + 8 * pos.bx.toNat + c)) ∧
      SameOutside (InBlock (blockDst s p pos) (planePitch s p)) s t

/-- R98 to R100, R103: where also the reference offset o is legal, MC_MOTION completes: pixel (r, c) of the
block becomes the old buffer's byte at o + r·PITCH + c, all read before any is written; nothing else changes
but CMDPTR. -/
def Obligations.McMotionCopiesDisplaced : Prop :=
  ∀ (p : PlaneIdx) (dx dy : BitVec 8) (pos : BlockPos) (s : State), PlaneOk s p → PosOk s p pos →
    RefOk s p pos dx dy →
    ∃ t, exec (.mcMotion p dx dy pos) s = .next t ∧
      t = { s with dmem := t.dmem, cmdptr := s.cmdptr + 8#32 } ∧
      (∀ r c, r < 8 → c < 8 →
        readByte t (pixelAddr (blockDst s p pos) (planePitch s p) r c) =
          readByte s (pixelAddr (oldBase s p + (refOffset s p pos dx dy).toNat) (planePitch s p) r c)) ∧
      SameOutside (InBlock (blockDst s p pos) (planePitch s p)) s t

/-- R104: MC_RESIDUE adds the low byte of residue word 8r + c to the displaced pixel, modulo 256. -/
def Obligations.McResidueAddsResidue : Prop :=
  ∀ (p : PlaneIdx) (dx dy : BitVec 8) (pos : BlockPos) (blk : Word) (s : State), PlaneOk s p →
    PosOk s p pos → RefOk s p pos dx dy → RegionOk s blk 256 →
    ∃ t, exec (.mcResidue p dx dy pos blk) s = .next t ∧
      t = { s with dmem := t.dmem, cmdptr := s.cmdptr + 12#32 } ∧
      (∀ r c, r < 8 → c < 8 →
        readByte t (pixelAddr (blockDst s p pos) (planePitch s p) r c) =
          readByte s (pixelAddr (oldBase s p + (refOffset s p pos dx dy).toNat) (planePitch s p) r c) +
            (readWord s (blk.toNat + 4 * (8 * r + c))).setWidth 8) ∧
      SameOutside (InBlock (blockDst s p pos) (planePitch s p)) s t

/-- R107: MC_IDCT_PUT stores the low byte of each output of the inverse DCT of the block at blk. -/
def Obligations.McIdctPutStoresOutputs : Prop :=
  ∀ (p : PlaneIdx) (pos : BlockPos) (blk : Word) (s : State), PlaneOk s p → PosOk s p pos →
    RegionOk s blk 256 →
    ∃ t, exec (.mcIdctPut p pos blk) s = .next t ∧
      t = { s with dmem := t.dmem, cmdptr := s.cmdptr + 12#32 } ∧
      (∀ r c, r < 8 → c < 8 →
        readByte t (pixelAddr (blockDst s p pos) (planePitch s p) r c) =
          (wordAt (idct (readWords s blk.toNat 64)) (8 * r + c)).setWidth 8) ∧
      SameOutside (InBlock (blockDst s p pos) (planePitch s p)) s t

/-- R108: MC_IDCT_ADD adds each output's low byte to the pixel of the cur buffer, modulo 256. -/
def Obligations.McIdctAddAddsOutputs : Prop :=
  ∀ (p : PlaneIdx) (pos : BlockPos) (blk : Word) (s : State), PlaneOk s p → PosOk s p pos →
    RegionOk s blk 256 →
    ∃ t, exec (.mcIdctAdd p pos blk) s = .next t ∧
      t = { s with dmem := t.dmem, cmdptr := s.cmdptr + 12#32 } ∧
      (∀ r c, r < 8 → c < 8 →
        readByte t (pixelAddr (blockDst s p pos) (planePitch s p) r c) =
          readByte s (pixelAddr (blockDst s p pos) (planePitch s p) r c) +
            (wordAt (idct (readWords s blk.toNat 64)) (8 * r + c)).setWidth 8) ∧
      SameOutside (InBlock (blockDst s p pos) (planePitch s p)) s t

/-- R101, R109: on an aligned block inside DMEM MC_IDCT completes and replaces its 64 words with their inverse
DCT; nothing else changes but CMDPTR. -/
def Obligations.McIdctReplacesBlock : Prop :=
  ∀ (blk : Word) (s : State), RegionOk s blk 256 →
    ∃ t, exec (.mcIdct blk) s = .next t ∧
      t = { s with dmem := t.dmem, cmdptr := s.cmdptr + 8#32 } ∧
      (∀ k, k < 64 → readWord t (blk.toNat + 4 * k) = wordAt (idct (readWords s blk.toNat 64)) k) ∧
      SameOutside (InRegion blk.toNat 256) s t

/-- R101, R110: MC_DEQUANT replaces word k of the block with (c·q) >> 11, the product wrapping at 32 bits
first; every word but word 0 is clamped to int16. The quantizer is read before anything is written. -/
def Obligations.McDequantScalesBlock : Prop :=
  ∀ (blk qtab : Word) (s : State), RegionOk s blk 256 → RegionOk s qtab 256 →
    ∃ t, exec (.mcDequant blk qtab) s = .next t ∧
      t = { s with dmem := t.dmem, cmdptr := s.cmdptr + 12#32 } ∧
      (∀ k, k < 64 →
        let scaled := (readWord s (blk.toNat + 4 * k) * readWord s (qtab.toNat + 4 * k)).toInt / 2048
        (readWord t (blk.toNat + 4 * k)).toInt =
          if k = 0 then scaled else min (max scaled (-32768)) 32767) ∧
      SameOutside (InRegion blk.toNat 256) s t

/-- R27, R98, R111: MC_SWAP completes in every state, toggles CUR and changes nothing else but CMDPTR: no
pixel is copied, and the two buffers of every plane change roles. -/
def Obligations.McSwapTogglesBuffers : Prop :=
  ∀ s : State, ∃ t, exec .mcSwap s = .next t ∧
    t = { s with cur := t.cur, cmdptr := s.cmdptr + 4#32 } ∧ t.cur.val = 1 - s.cur.val ∧
    ∀ p : PlaneIdx, curBase t p = oldBase s p ∧ oldBase t p = curBase s p

/-- R98 to R101, R131: the errors of the MC commands, in their order, each before any write: MC_GEOM with the
plane, MC_BLOCK with the position, MC_BOUNDS with the offset modulo 2^32, then ALIGN and ADDR of blk, then
ALIGN and ADDR of qtab. -/
def Obligations.McErrorsInOrder : Prop :=
  ∀ (p : PlaneIdx) (dx dy : BitVec 8) (pos : BlockPos) (blk qtab : Word) (s : State),
    (∀ i ∈ [Instr.mcSkip p pos, .mcMotion p dx dy pos, .mcResidue p dx dy pos blk, .mcIdctPut p pos blk,
        .mcIdctAdd p pos blk],
      (¬ PlaneOk s p → exec i s = .next (takeError .mcGeom (BitVec.ofNat 32 p.val) s)) ∧
      (PlaneOk s p → ¬ PosOk s p pos →
        exec i s = .next (takeError .mcBlock (pos.brow ++ pos.bx) s))) ∧
    (∀ i ∈ [Instr.mcMotion p dx dy pos, .mcResidue p dx dy pos blk],
      PlaneOk s p → PosOk s p pos → ¬ RefOk s p pos dx dy →
        exec i s = .next (takeError .mcBounds (BitVec.ofInt 32 (refOffset s p pos dx dy)) s)) ∧
    (∀ i ∈ [Instr.mcResidue p dx dy pos blk, .mcIdctPut p pos blk, .mcIdctAdd p pos blk, .mcIdct blk,
        .mcDequant blk qtab],
      (i = .mcResidue p dx dy pos blk → RefOk s p pos dx dy) →
      (i ≠ .mcIdct blk → i ≠ .mcDequant blk qtab → PlaneOk s p ∧ PosOk s p pos) →
      (blk.toNat % 4 ≠ 0 → exec i s = .next (takeError .align blk s)) ∧
      (blk.toNat % 4 = 0 → s.params.dmemSize < blk.toNat + 256 →
        exec i s = .next (takeError .addr blk s))) ∧
    (RegionOk s blk 256 →
      (qtab.toNat % 4 ≠ 0 → exec (.mcDequant blk qtab) s = .next (takeError .align qtab s)) ∧
      (qtab.toNat % 4 = 0 → s.params.dmemSize < qtab.toNat + 256 →
        exec (.mcDequant blk qtab) s = .next (takeError .addr qtab s)))

/-- R99, R100: on a valid plane every pixel of a legal block lies inside the cur buffer, and every reference
pixel of a legal offset inside the old one; a co-located block is always a legal reference; and with
DMEM_SIZE ≤ 2^31 every offset lies strictly between -2^24 and 2^32. -/
def Obligations.BlocksStayInsideBuffers : Prop :=
  ∀ (p : PlaneIdx) (dx dy : BitVec 8) (pos : BlockPos) (s : State), PlaneOk s p → PosOk s p pos →
    (∀ r c, r < 8 → c < 8 →
      InRegion (curBase s p) (planeExtent s p) (pixelAddr (blockDst s p pos) (planePitch s p) r c) ∧
      (RefOk s p pos dx dy → InRegion (oldBase s p) (planeExtent s p)
        (pixelAddr (refBase s p pos dx dy) (planePitch s p) r c))) ∧
    RefOk s p pos 0#8 0#8 ∧
    (s.params.dmemSize ≤ 2 ^ 31 →
      -(2 : Int) ^ 24 < refOffset s p pos dx dy ∧ refOffset s p pos dx dy < (2 : Int) ^ 32)

/-- R105, R106: a column whose seven AC inputs are 0 comes out of the column pass as eight copies of its first
input, so skipping it, as the reference does, changes nothing; and a block with only a DC coefficient d
gives (d + 0x7F) >> 8 everywhere, the addition wrapping. -/
def Obligations.IdctOfSparseBlocks : Prop :=
  (∀ (b : List Word) (col : Nat), (∀ k, 1 ≤ k → k < 8 → wordAt b (col + 8 * k) = 0#32) →
    idctColumn b col = List.replicate 8 (wordAt b col)) ∧
  ∀ (b : List Word) (k : Nat), (∀ j, 1 ≤ j → j < 64 → wordAt b j = 0#32) → k < 64 →
    wordAt (idct b) k = (wordAt b 0 + 0x7F#32).sshiftRight 8

/-! ### The host -/

/-- R23, R24: a host write to CTRL with bit 0 = 1 while BUSY = 0 starts a run; every other write to CTRL only
updates IRQEN. -/
def Obligations.HostStartsRun : Prop :=
  ∀ (v : Word) (s : State) (ms : List HostMove), s.host = .mmioWrite .word 0x008#12 v :: ms →
    (v.getLsbD 0 = true → s.busy = false →
      step s = .next { s with host := ms, irqEn := v.getLsbD 1, done := false, err := false,
                              errCode := 0#8, errPc := 0#32, errInfo := 0#32, busy := true }) ∧
    (v.getLsbD 0 = false ∨ s.busy = true → step s = .next { s with host := ms, irqEn := v.getLsbD 1 })

/-- R25, R135: STATUS reads BUSY, DONE, ERR and IRQ in bits 0 to 3 and 0 above; IRQ = IRQEN and (DONE or ERR);
a host write of 1 to bit 1 clears DONE, to bit 2 clears ERR, and nothing else of a write to it matters. -/
def Obligations.StatusAndInterrupt : Prop :=
  ∀ s : State,
    irq s = (s.irqEn && (s.done || s.err)) ∧
    (mmioValue s 0x00C).getLsbD 0 = s.busy ∧ (mmioValue s 0x00C).getLsbD 1 = s.done ∧
    (mmioValue s 0x00C).getLsbD 2 = s.err ∧ (mmioValue s 0x00C).getLsbD 3 = irq s ∧
    (∀ k, 4 ≤ k → (mmioValue s 0x00C).getLsbD k = false) ∧
    ∀ (v : Word) (ms : List HostMove), s.host = .mmioWrite .word 0x00C#12 v :: ms →
      step s = .next { s with host := ms, done := s.done && !v.getLsbD 1, err := s.err && !v.getLsbD 2 }

/-- R20, R51, R146: a host read of a register changes nothing (but the model's own record of the value read:
log entry 10); while BUSY = 1 a write to any register but CTRL and STATUS is ignored, and one to STATUS too
where DONE = ERR = 0; writes to read-only registers and reserved offsets are always ignored, and reserved
offsets read 0; a byte, halfword or misaligned access has no move. -/
def Obligations.HostRegisterAccess : Prop :=
  ∀ (s : State) (ms : List HostMove) (width : AccessWidth) (off : BitVec 12) (v : Word),
    (s.host = .mmioRead width off :: ms →
      (width = .word ∧ off.toNat % 4 = 0 →
        step s = .next { s with host := ms, hostRdata := mmioValue s off.toNat }) ∧
      (¬ (width = .word ∧ off.toNat % 4 = 0) → step s = .refused (.hostMmioAccess off))) ∧
    (s.host = .mmioWrite width off v :: ms →
      (¬ (width = .word ∧ off.toNat % 4 = 0) → step s = .refused (.hostMmioAccess off)) ∧
      (width = .word → off.toNat % 4 = 0 →
        (s.busy = true → off ≠ 0x008#12 → off ≠ 0x00C#12 → step s = .next { s with host := ms }) ∧
        (s.busy = true → s.done = false → s.err = false → off = 0x00C#12 →
          step s = .next { s with host := ms }) ∧
        (off ≠ 0x008#12 → off ≠ 0x00C#12 → off ≠ 0x010#12 → off ≠ 0x020#12 →
          (off.toNat < 0x040 ∨ 0x080 ≤ off.toNat) → step s = .next { s with host := ms }))) ∧
    ((0x028 ≤ off.toNat ∧ off.toNat < 0x040 ∨ 0x090 ≤ off.toNat ∧ off.toNat < 0x100 ∨
        0x130 ≤ off.toNat ∧ off.toNat < 0x180 ∨ 0x1E8 ≤ off.toNat ∧ off.toNat < 0x200 ∨
        0x400 ≤ off.toNat) → mmioValue s off.toNat = 0#32)

/-- R18, R27, R29 to R31: a step that performs a host write while BUSY = 0 to CMDPTR (less bits 1:0), PLANESEL
(bit 0), PBASE, PDIM or PPITCH (bits 15:0) leaves that register holding, and reading, what was written, and
changes that register alone. -/
def Obligations.PlaneRegistersReadBack : Prop :=
  ∀ (s : State) (ms : List HostMove) (b : Fin 2) (p : PlaneIdx) (off : BitVec 12) (v : Word),
    s.busy = false → s.host = .mmioWrite .word off v :: ms →
    (off = 0x010#12 → step s = .next { s with host := ms, cmdptr := v &&& 0xFFFFFFFC#32 }) ∧
    (off = 0x020#12 → ∃ t, step s = .next t ∧ t = { s with host := ms, cur := t.cur } ∧
      mmioValue t 0x020 = v &&& 1#32) ∧
    (off.toNat = 0x040 + 16 * b.val + 4 * p.val → ∃ t, step s = .next t ∧
      t = { s with host := ms, pbase := t.pbase } ∧
      mmioValue t off.toNat = v ∧ planeBase t b p = v.toNat ∧
      ∀ (d : Fin 2) (q : PlaneIdx), (d, q) ≠ (b, p) → planeBase t d q = planeBase s d q) ∧
    (off.toNat = 0x060 + 4 * p.val → ∃ t, step s = .next t ∧
      t = { s with host := ms, pw := t.pw, ph := t.ph } ∧ mmioValue t off.toNat = v ∧
      ∀ q : PlaneIdx, q ≠ p → mmioValue t (0x060 + 4 * q.val) = mmioValue s (0x060 + 4 * q.val)) ∧
    (off.toNat = 0x070 + 4 * p.val → ∃ t, step s = .next t ∧
      t = { s with host := ms, pitch := t.pitch } ∧ mmioValue t off.toNat = v &&& 0xFFFF#32 ∧
      ∀ q : PlaneIdx, q ≠ p → mmioValue t (0x070 + 4 * q.val) = mmioValue s (0x070 + 4 * q.val))

/-- R52, R146, R147: while BUSY = 0 the host reads and writes single bytes of DMEM (that a host access is one
byte is the model's choice: log entry 11): a write changes that byte alone, a read changes nothing but the
model's record of it; while BUSY = 1 the host's DMEM accesses have no move. -/
def Obligations.HostDmemAccess : Prop :=
  ∀ (s : State) (ms : List HostMove) (a : Word) (v : Byte),
    (s.host = .dmemWrite a v :: ms →
      (s.busy = false → a.toNat < s.params.dmemSize → ∃ t, step s = .next t ∧
        t = { s with host := ms, dmem := t.dmem } ∧ readByte t a.toNat = v ∧
        SameOutside (fun x => x = a.toNat) s t) ∧
      (s.busy = true → step s = .refused (.hostDmemWhileBusy a))) ∧
    (s.host = .dmemRead a :: ms →
      (s.busy = false → a.toNat < s.params.dmemSize →
        step s = .next { s with host := ms, hostRdata := BitVec.ofNat 32 (readByte s a.toNat).toNat }) ∧
      (s.busy = true → step s = .refused (.hostDmemWhileBusy a)))

/-- R12, R44: a u32 stored at an address reads back whole; its least significant byte lies at that address,
and a narrower view sees the same bytes; no other byte changes. -/
def Obligations.MemoryIsLittleEndian : Prop :=
  ∀ (s : State) (a : Nat) (w : Word),
    let t := store s a (bytesOfWord w)
    readWord t a = w ∧ readByte t a = w.extractLsb' 0 8 ∧ readByte t (a + 3) = w.extractLsb' 24 8 ∧
    readHalf t (a + 2) = w.extractLsb' 16 16 ∧ SameOutside (InRegion a 4) s t
end

