-- ==== Sys2Proof/Laws/State.lean ====
section
/-!
SUPPORT. One lemma per field per state update, so that no later proof unfolds a record update.
-/

namespace Sys2Proof.Laws

open Sys2Proof Sys2Proof.Machine

/-! ### `store` -/

@[simp] theorem store_params (s : State) (a : Nat) (bs : List Byte) :
    (store s a bs).params = s.params := rfl
@[simp] theorem store_dmem (s : State) (a : Nat) (bs : List Byte) :
    (store s a bs).dmem = storeMem s.dmem a bs := rfl
@[simp] theorem store_busy (s : State) (a : Nat) (bs : List Byte) :
    (store s a bs).busy = s.busy := rfl
@[simp] theorem store_done (s : State) (a : Nat) (bs : List Byte) :
    (store s a bs).done = s.done := rfl
@[simp] theorem store_err (s : State) (a : Nat) (bs : List Byte) :
    (store s a bs).err = s.err := rfl
@[simp] theorem store_irqEn (s : State) (a : Nat) (bs : List Byte) :
    (store s a bs).irqEn = s.irqEn := rfl
@[simp] theorem store_cmdptr (s : State) (a : Nat) (bs : List Byte) :
    (store s a bs).cmdptr = s.cmdptr := rfl
@[simp] theorem store_errCode (s : State) (a : Nat) (bs : List Byte) :
    (store s a bs).errCode = s.errCode := rfl
@[simp] theorem store_errPc (s : State) (a : Nat) (bs : List Byte) :
    (store s a bs).errPc = s.errPc := rfl
@[simp] theorem store_errInfo (s : State) (a : Nat) (bs : List Byte) :
    (store s a bs).errInfo = s.errInfo := rfl
@[simp] theorem store_cur (s : State) (a : Nat) (bs : List Byte) :
    (store s a bs).cur = s.cur := rfl
@[simp] theorem store_pbase (s : State) (a : Nat) (bs : List Byte) :
    (store s a bs).pbase = s.pbase := rfl
@[simp] theorem store_pw (s : State) (a : Nat) (bs : List Byte) :
    (store s a bs).pw = s.pw := rfl
@[simp] theorem store_ph (s : State) (a : Nat) (bs : List Byte) :
    (store s a bs).ph = s.ph := rfl
@[simp] theorem store_pitch (s : State) (a : Nat) (bs : List Byte) :
    (store s a bs).pitch = s.pitch := rfl
@[simp] theorem store_ctx (s : State) (a : Nat) (bs : List Byte) :
    (store s a bs).ctx = s.ctx := rfl
@[simp] theorem store_track (s : State) (a : Nat) (bs : List Byte) :
    (store s a bs).track = s.track := rfl
@[simp] theorem store_draws (s : State) (a : Nat) (bs : List Byte) :
    (store s a bs).draws = s.draws := rfl
@[simp] theorem store_host (s : State) (a : Nat) (bs : List Byte) :
    (store s a bs).host = s.host := rfl
@[simp] theorem store_hostRdata (s : State) (a : Nat) (bs : List Byte) :
    (store s a bs).hostRdata = s.hostRdata := rfl

/-! ### `storeFloats` -/

@[simp] theorem storeFloats_params (s : State) (a : Nat) (fs : List F32) :
    (storeFloats s a fs).params = s.params := rfl
@[simp] theorem storeFloats_dmem (s : State) (a : Nat) (fs : List F32) :
    (storeFloats s a fs).dmem = storeMem s.dmem a (bytesOfWords (floatImages s.draws fs)) := rfl
@[simp] theorem storeFloats_busy (s : State) (a : Nat) (fs : List F32) :
    (storeFloats s a fs).busy = s.busy := rfl
@[simp] theorem storeFloats_done (s : State) (a : Nat) (fs : List F32) :
    (storeFloats s a fs).done = s.done := rfl
@[simp] theorem storeFloats_err (s : State) (a : Nat) (fs : List F32) :
    (storeFloats s a fs).err = s.err := rfl
@[simp] theorem storeFloats_irqEn (s : State) (a : Nat) (fs : List F32) :
    (storeFloats s a fs).irqEn = s.irqEn := rfl
@[simp] theorem storeFloats_cmdptr (s : State) (a : Nat) (fs : List F32) :
    (storeFloats s a fs).cmdptr = s.cmdptr := rfl
@[simp] theorem storeFloats_errCode (s : State) (a : Nat) (fs : List F32) :
    (storeFloats s a fs).errCode = s.errCode := rfl
@[simp] theorem storeFloats_errPc (s : State) (a : Nat) (fs : List F32) :
    (storeFloats s a fs).errPc = s.errPc := rfl
@[simp] theorem storeFloats_errInfo (s : State) (a : Nat) (fs : List F32) :
    (storeFloats s a fs).errInfo = s.errInfo := rfl
@[simp] theorem storeFloats_cur (s : State) (a : Nat) (fs : List F32) :
    (storeFloats s a fs).cur = s.cur := rfl
@[simp] theorem storeFloats_pbase (s : State) (a : Nat) (fs : List F32) :
    (storeFloats s a fs).pbase = s.pbase := rfl
@[simp] theorem storeFloats_pw (s : State) (a : Nat) (fs : List F32) :
    (storeFloats s a fs).pw = s.pw := rfl
@[simp] theorem storeFloats_ph (s : State) (a : Nat) (fs : List F32) :
    (storeFloats s a fs).ph = s.ph := rfl
@[simp] theorem storeFloats_pitch (s : State) (a : Nat) (fs : List F32) :
    (storeFloats s a fs).pitch = s.pitch := rfl
@[simp] theorem storeFloats_ctx (s : State) (a : Nat) (fs : List F32) :
    (storeFloats s a fs).ctx = s.ctx := rfl
@[simp] theorem storeFloats_track (s : State) (a : Nat) (fs : List F32) :
    (storeFloats s a fs).track = s.track := rfl
@[simp] theorem storeFloats_draws (s : State) (a : Nat) (fs : List F32) :
    (storeFloats s a fs).draws = s.draws + fs.length := rfl
@[simp] theorem storeFloats_host (s : State) (a : Nat) (fs : List F32) :
    (storeFloats s a fs).host = s.host := rfl
@[simp] theorem storeFloats_hostRdata (s : State) (a : Nat) (fs : List F32) :
    (storeFloats s a fs).hostRdata = s.hostRdata := rfl

/-! ### `endRun` -/

@[simp] theorem endRun_params (s : State) :
    (endRun s).params = s.params := rfl
@[simp] theorem endRun_dmem (s : State) :
    (endRun s).dmem = s.dmem := rfl
@[simp] theorem endRun_busy (s : State) :
    (endRun s).busy = false := rfl
@[simp] theorem endRun_done (s : State) :
    (endRun s).done = true := rfl
@[simp] theorem endRun_err (s : State) :
    (endRun s).err = s.err := rfl
@[simp] theorem endRun_irqEn (s : State) :
    (endRun s).irqEn = s.irqEn := rfl
@[simp] theorem endRun_cmdptr (s : State) :
    (endRun s).cmdptr = nextCommand s.cmdptr 0 := rfl
@[simp] theorem endRun_errCode (s : State) :
    (endRun s).errCode = s.errCode := rfl
@[simp] theorem endRun_errPc (s : State) :
    (endRun s).errPc = s.errPc := rfl
@[simp] theorem endRun_errInfo (s : State) :
    (endRun s).errInfo = s.errInfo := rfl
@[simp] theorem endRun_cur (s : State) :
    (endRun s).cur = s.cur := rfl
@[simp] theorem endRun_pbase (s : State) :
    (endRun s).pbase = s.pbase := rfl
@[simp] theorem endRun_pw (s : State) :
    (endRun s).pw = s.pw := rfl
@[simp] theorem endRun_ph (s : State) :
    (endRun s).ph = s.ph := rfl
@[simp] theorem endRun_pitch (s : State) :
    (endRun s).pitch = s.pitch := rfl
@[simp] theorem endRun_ctx (s : State) :
    (endRun s).ctx = s.ctx := rfl
@[simp] theorem endRun_track (s : State) :
    (endRun s).track = s.track := rfl
@[simp] theorem endRun_draws (s : State) :
    (endRun s).draws = s.draws := rfl
@[simp] theorem endRun_host (s : State) :
    (endRun s).host = s.host := rfl
@[simp] theorem endRun_hostRdata (s : State) :
    (endRun s).hostRdata = s.hostRdata := rfl

/-! ### `takeError` -/

@[simp] theorem takeError_params (e : BteError) (info : Word) (s : State) :
    (takeError e info s).params = s.params := rfl
@[simp] theorem takeError_dmem (e : BteError) (info : Word) (s : State) :
    (takeError e info s).dmem = s.dmem := rfl
@[simp] theorem takeError_busy (e : BteError) (info : Word) (s : State) :
    (takeError e info s).busy = false := rfl
@[simp] theorem takeError_done (e : BteError) (info : Word) (s : State) :
    (takeError e info s).done = s.done := rfl
@[simp] theorem takeError_err (e : BteError) (info : Word) (s : State) :
    (takeError e info s).err = true := rfl
@[simp] theorem takeError_irqEn (e : BteError) (info : Word) (s : State) :
    (takeError e info s).irqEn = s.irqEn := rfl
@[simp] theorem takeError_cmdptr (e : BteError) (info : Word) (s : State) :
    (takeError e info s).cmdptr = s.cmdptr := rfl
@[simp] theorem takeError_errCode (e : BteError) (info : Word) (s : State) :
    (takeError e info s).errCode = errorCode e := rfl
@[simp] theorem takeError_errPc (e : BteError) (info : Word) (s : State) :
    (takeError e info s).errPc = s.cmdptr := rfl
@[simp] theorem takeError_errInfo (e : BteError) (info : Word) (s : State) :
    (takeError e info s).errInfo = info := rfl
@[simp] theorem takeError_cur (e : BteError) (info : Word) (s : State) :
    (takeError e info s).cur = s.cur := rfl
@[simp] theorem takeError_pbase (e : BteError) (info : Word) (s : State) :
    (takeError e info s).pbase = s.pbase := rfl
@[simp] theorem takeError_pw (e : BteError) (info : Word) (s : State) :
    (takeError e info s).pw = s.pw := rfl
@[simp] theorem takeError_ph (e : BteError) (info : Word) (s : State) :
    (takeError e info s).ph = s.ph := rfl
@[simp] theorem takeError_pitch (e : BteError) (info : Word) (s : State) :
    (takeError e info s).pitch = s.pitch := rfl
@[simp] theorem takeError_ctx (e : BteError) (info : Word) (s : State) :
    (takeError e info s).ctx = s.ctx := rfl
@[simp] theorem takeError_track (e : BteError) (info : Word) (s : State) :
    (takeError e info s).track = s.track := rfl
@[simp] theorem takeError_draws (e : BteError) (info : Word) (s : State) :
    (takeError e info s).draws = s.draws := rfl
@[simp] theorem takeError_host (e : BteError) (info : Word) (s : State) :
    (takeError e info s).host = s.host := rfl
@[simp] theorem takeError_hostRdata (e : BteError) (info : Word) (s : State) :
    (takeError e info s).hostRdata = s.hostRdata := rfl

/-! ### `startRun` -/

@[simp] theorem startRun_params (s : State) :
    (startRun s).params = s.params := rfl
@[simp] theorem startRun_dmem (s : State) :
    (startRun s).dmem = s.dmem := rfl
@[simp] theorem startRun_busy (s : State) :
    (startRun s).busy = true := rfl
@[simp] theorem startRun_done (s : State) :
    (startRun s).done = false := rfl
@[simp] theorem startRun_err (s : State) :
    (startRun s).err = false := rfl
@[simp] theorem startRun_irqEn (s : State) :
    (startRun s).irqEn = s.irqEn := rfl
@[simp] theorem startRun_cmdptr (s : State) :
    (startRun s).cmdptr = s.cmdptr := rfl
@[simp] theorem startRun_errCode (s : State) :
    (startRun s).errCode = 0#8 := rfl
@[simp] theorem startRun_errPc (s : State) :
    (startRun s).errPc = 0#32 := rfl
@[simp] theorem startRun_errInfo (s : State) :
    (startRun s).errInfo = 0#32 := rfl
@[simp] theorem startRun_cur (s : State) :
    (startRun s).cur = s.cur := rfl
@[simp] theorem startRun_pbase (s : State) :
    (startRun s).pbase = s.pbase := rfl
@[simp] theorem startRun_pw (s : State) :
    (startRun s).pw = s.pw := rfl
@[simp] theorem startRun_ph (s : State) :
    (startRun s).ph = s.ph := rfl
@[simp] theorem startRun_pitch (s : State) :
    (startRun s).pitch = s.pitch := rfl
@[simp] theorem startRun_ctx (s : State) :
    (startRun s).ctx = s.ctx := rfl
@[simp] theorem startRun_track (s : State) :
    (startRun s).track = s.track := rfl
@[simp] theorem startRun_draws (s : State) :
    (startRun s).draws = s.draws := rfl
@[simp] theorem startRun_host (s : State) :
    (startRun s).host = s.host := rfl
@[simp] theorem startRun_hostRdata (s : State) :
    (startRun s).hostRdata = s.hostRdata := rfl

/-! ### `setContext` -/

@[simp] theorem setContext_params (s : State) (c : CtxIdx) (x : Context) :
    (setContext s c x).params = s.params := rfl
@[simp] theorem setContext_dmem (s : State) (c : CtxIdx) (x : Context) :
    (setContext s c x).dmem = s.dmem := rfl
@[simp] theorem setContext_busy (s : State) (c : CtxIdx) (x : Context) :
    (setContext s c x).busy = s.busy := rfl
@[simp] theorem setContext_done (s : State) (c : CtxIdx) (x : Context) :
    (setContext s c x).done = s.done := rfl
@[simp] theorem setContext_err (s : State) (c : CtxIdx) (x : Context) :
    (setContext s c x).err = s.err := rfl
@[simp] theorem setContext_irqEn (s : State) (c : CtxIdx) (x : Context) :
    (setContext s c x).irqEn = s.irqEn := rfl
@[simp] theorem setContext_cmdptr (s : State) (c : CtxIdx) (x : Context) :
    (setContext s c x).cmdptr = s.cmdptr := rfl
@[simp] theorem setContext_errCode (s : State) (c : CtxIdx) (x : Context) :
    (setContext s c x).errCode = s.errCode := rfl
@[simp] theorem setContext_errPc (s : State) (c : CtxIdx) (x : Context) :
    (setContext s c x).errPc = s.errPc := rfl
@[simp] theorem setContext_errInfo (s : State) (c : CtxIdx) (x : Context) :
    (setContext s c x).errInfo = s.errInfo := rfl
@[simp] theorem setContext_cur (s : State) (c : CtxIdx) (x : Context) :
    (setContext s c x).cur = s.cur := rfl
@[simp] theorem setContext_pbase (s : State) (c : CtxIdx) (x : Context) :
    (setContext s c x).pbase = s.pbase := rfl
@[simp] theorem setContext_pw (s : State) (c : CtxIdx) (x : Context) :
    (setContext s c x).pw = s.pw := rfl
@[simp] theorem setContext_ph (s : State) (c : CtxIdx) (x : Context) :
    (setContext s c x).ph = s.ph := rfl
@[simp] theorem setContext_pitch (s : State) (c : CtxIdx) (x : Context) :
    (setContext s c x).pitch = s.pitch := rfl
@[simp] theorem setContext_ctx (s : State) (c : CtxIdx) (x : Context) :
    (setContext s c x).ctx = s.ctx.set c x := rfl
@[simp] theorem setContext_track (s : State) (c : CtxIdx) (x : Context) :
    (setContext s c x).track = s.track := rfl
@[simp] theorem setContext_draws (s : State) (c : CtxIdx) (x : Context) :
    (setContext s c x).draws = s.draws := rfl
@[simp] theorem setContext_host (s : State) (c : CtxIdx) (x : Context) :
    (setContext s c x).host = s.host := rfl
@[simp] theorem setContext_hostRdata (s : State) (c : CtxIdx) (x : Context) :
    (setContext s c x).hostRdata = s.hostRdata := rfl

/-! ### `faultTrack` -/

@[simp] theorem faultTrack_params (s : State) :
    (faultTrack s).params = s.params := rfl
@[simp] theorem faultTrack_dmem (s : State) :
    (faultTrack s).dmem = s.dmem := rfl
@[simp] theorem faultTrack_busy (s : State) :
    (faultTrack s).busy = s.busy := rfl
@[simp] theorem faultTrack_done (s : State) :
    (faultTrack s).done = s.done := rfl
@[simp] theorem faultTrack_err (s : State) :
    (faultTrack s).err = s.err := rfl
@[simp] theorem faultTrack_irqEn (s : State) :
    (faultTrack s).irqEn = s.irqEn := rfl
@[simp] theorem faultTrack_cmdptr (s : State) :
    (faultTrack s).cmdptr = s.cmdptr := rfl
@[simp] theorem faultTrack_errCode (s : State) :
    (faultTrack s).errCode = s.errCode := rfl
@[simp] theorem faultTrack_errPc (s : State) :
    (faultTrack s).errPc = s.errPc := rfl
@[simp] theorem faultTrack_errInfo (s : State) :
    (faultTrack s).errInfo = s.errInfo := rfl
@[simp] theorem faultTrack_cur (s : State) :
    (faultTrack s).cur = s.cur := rfl
@[simp] theorem faultTrack_pbase (s : State) :
    (faultTrack s).pbase = s.pbase := rfl
@[simp] theorem faultTrack_pw (s : State) :
    (faultTrack s).pw = s.pw := rfl
@[simp] theorem faultTrack_ph (s : State) :
    (faultTrack s).ph = s.ph := rfl
@[simp] theorem faultTrack_pitch (s : State) :
    (faultTrack s).pitch = s.pitch := rfl
@[simp] theorem faultTrack_ctx (s : State) :
    (faultTrack s).ctx = s.ctx := rfl
@[simp] theorem faultTrack_track (s : State) :
    (faultTrack s).track = { s.track with fault := true } := rfl
@[simp] theorem faultTrack_draws (s : State) :
    (faultTrack s).draws = s.draws := rfl
@[simp] theorem faultTrack_host (s : State) :
    (faultTrack s).host = s.host := rfl
@[simp] theorem faultTrack_hostRdata (s : State) :
    (faultTrack s).hostRdata = s.hostRdata := rfl

/-! ### `beginPacket` -/

@[simp] theorem beginPacket_params (src len reported : Word) (s : State) :
    (beginPacket src len reported s).params = s.params := rfl
@[simp] theorem beginPacket_dmem (src len reported : Word) (s : State) :
    (beginPacket src len reported s).dmem = s.dmem := rfl
@[simp] theorem beginPacket_busy (src len reported : Word) (s : State) :
    (beginPacket src len reported s).busy = s.busy := rfl
@[simp] theorem beginPacket_done (src len reported : Word) (s : State) :
    (beginPacket src len reported s).done = s.done := rfl
@[simp] theorem beginPacket_err (src len reported : Word) (s : State) :
    (beginPacket src len reported s).err = s.err := rfl
@[simp] theorem beginPacket_irqEn (src len reported : Word) (s : State) :
    (beginPacket src len reported s).irqEn = s.irqEn := rfl
@[simp] theorem beginPacket_cmdptr (src len reported : Word) (s : State) :
    (beginPacket src len reported s).cmdptr = s.cmdptr := rfl
@[simp] theorem beginPacket_errCode (src len reported : Word) (s : State) :
    (beginPacket src len reported s).errCode = s.errCode := rfl
@[simp] theorem beginPacket_errPc (src len reported : Word) (s : State) :
    (beginPacket src len reported s).errPc = s.errPc := rfl
@[simp] theorem beginPacket_errInfo (src len reported : Word) (s : State) :
    (beginPacket src len reported s).errInfo = s.errInfo := rfl
@[simp] theorem beginPacket_cur (src len reported : Word) (s : State) :
    (beginPacket src len reported s).cur = s.cur := rfl
@[simp] theorem beginPacket_pbase (src len reported : Word) (s : State) :
    (beginPacket src len reported s).pbase = s.pbase := rfl
@[simp] theorem beginPacket_pw (src len reported : Word) (s : State) :
    (beginPacket src len reported s).pw = s.pw := rfl
@[simp] theorem beginPacket_ph (src len reported : Word) (s : State) :
    (beginPacket src len reported s).ph = s.ph := rfl
@[simp] theorem beginPacket_pitch (src len reported : Word) (s : State) :
    (beginPacket src len reported s).pitch = s.pitch := rfl
@[simp] theorem beginPacket_ctx (src len reported : Word) (s : State) :
    (beginPacket src len reported s).ctx = s.ctx := rfl
@[simp] theorem beginPacket_track (src len reported : Word) (s : State) :
    (beginPacket src len reported s).track = { s.track with pktLen := len, next := BitVec.ofNat 32 (src.toNat + 4 + len.toNat), outCnt := 0#32, reported := reported } := rfl
@[simp] theorem beginPacket_draws (src len reported : Word) (s : State) :
    (beginPacket src len reported s).draws = s.draws := rfl
@[simp] theorem beginPacket_host (src len reported : Word) (s : State) :
    (beginPacket src len reported s).host = s.host := rfl
@[simp] theorem beginPacket_hostRdata (src len reported : Word) (s : State) :
    (beginPacket src len reported s).hostRdata = s.hostRdata := rfl

/-! ### `warmReset` -/

@[simp] theorem warmReset_params (s : State) : (warmReset s).params = s.params := rfl
@[simp] theorem warmReset_dmem (s : State) : (warmReset s).dmem = s.dmem := rfl
@[simp] theorem warmReset_busy (s : State) : (warmReset s).busy = State.reset.busy := rfl
@[simp] theorem warmReset_done (s : State) : (warmReset s).done = State.reset.done := rfl
@[simp] theorem warmReset_err (s : State) : (warmReset s).err = State.reset.err := rfl
@[simp] theorem warmReset_irqEn (s : State) : (warmReset s).irqEn = State.reset.irqEn := rfl
@[simp] theorem warmReset_cmdptr (s : State) : (warmReset s).cmdptr = State.reset.cmdptr := rfl
@[simp] theorem warmReset_errCode (s : State) : (warmReset s).errCode = State.reset.errCode := rfl
@[simp] theorem warmReset_errPc (s : State) : (warmReset s).errPc = State.reset.errPc := rfl
@[simp] theorem warmReset_errInfo (s : State) : (warmReset s).errInfo = State.reset.errInfo := rfl
@[simp] theorem warmReset_cur (s : State) : (warmReset s).cur = State.reset.cur := rfl
@[simp] theorem warmReset_pbase (s : State) : (warmReset s).pbase = State.reset.pbase := rfl
@[simp] theorem warmReset_pw (s : State) : (warmReset s).pw = State.reset.pw := rfl
@[simp] theorem warmReset_ph (s : State) : (warmReset s).ph = State.reset.ph := rfl
@[simp] theorem warmReset_pitch (s : State) : (warmReset s).pitch = State.reset.pitch := rfl
@[simp] theorem warmReset_ctx (s : State) : (warmReset s).ctx = State.reset.ctx := rfl
@[simp] theorem warmReset_track (s : State) : (warmReset s).track = State.reset.track := rfl
@[simp] theorem warmReset_draws (s : State) : (warmReset s).draws = s.draws := rfl
@[simp] theorem warmReset_host (s : State) : (warmReset s).host = s.host := rfl
@[simp] theorem warmReset_hostRdata (s : State) : (warmReset s).hostRdata = s.hostRdata := rfl

/-! ### `commitBlock` -/

@[simp] theorem commitBlock_params (dst : Nat) (chans : List (Array F32)) (s : State) :
    (commitBlock dst chans s).params = s.params := rfl
@[simp] theorem commitBlock_busy (dst : Nat) (chans : List (Array F32)) (s : State) :
    (commitBlock dst chans s).busy = s.busy := rfl
@[simp] theorem commitBlock_done (dst : Nat) (chans : List (Array F32)) (s : State) :
    (commitBlock dst chans s).done = s.done := rfl
@[simp] theorem commitBlock_err (dst : Nat) (chans : List (Array F32)) (s : State) :
    (commitBlock dst chans s).err = s.err := rfl
@[simp] theorem commitBlock_irqEn (dst : Nat) (chans : List (Array F32)) (s : State) :
    (commitBlock dst chans s).irqEn = s.irqEn := rfl
@[simp] theorem commitBlock_cmdptr (dst : Nat) (chans : List (Array F32)) (s : State) :
    (commitBlock dst chans s).cmdptr = s.cmdptr := rfl
@[simp] theorem commitBlock_errCode (dst : Nat) (chans : List (Array F32)) (s : State) :
    (commitBlock dst chans s).errCode = s.errCode := rfl
@[simp] theorem commitBlock_errPc (dst : Nat) (chans : List (Array F32)) (s : State) :
    (commitBlock dst chans s).errPc = s.errPc := rfl
@[simp] theorem commitBlock_errInfo (dst : Nat) (chans : List (Array F32)) (s : State) :
    (commitBlock dst chans s).errInfo = s.errInfo := rfl
@[simp] theorem commitBlock_cur (dst : Nat) (chans : List (Array F32)) (s : State) :
    (commitBlock dst chans s).cur = s.cur := rfl
@[simp] theorem commitBlock_pbase (dst : Nat) (chans : List (Array F32)) (s : State) :
    (commitBlock dst chans s).pbase = s.pbase := rfl
@[simp] theorem commitBlock_pw (dst : Nat) (chans : List (Array F32)) (s : State) :
    (commitBlock dst chans s).pw = s.pw := rfl
@[simp] theorem commitBlock_ph (dst : Nat) (chans : List (Array F32)) (s : State) :
    (commitBlock dst chans s).ph = s.ph := rfl
@[simp] theorem commitBlock_pitch (dst : Nat) (chans : List (Array F32)) (s : State) :
    (commitBlock dst chans s).pitch = s.pitch := rfl
@[simp] theorem commitBlock_ctx (dst : Nat) (chans : List (Array F32)) (s : State) :
    (commitBlock dst chans s).ctx = s.ctx := rfl
@[simp] theorem commitBlock_host (dst : Nat) (chans : List (Array F32)) (s : State) :
    (commitBlock dst chans s).host = s.host := rfl
@[simp] theorem commitBlock_hostRdata (dst : Nat) (chans : List (Array F32)) (s : State) :
    (commitBlock dst chans s).hostRdata = s.hostRdata := rfl
@[simp] theorem commitBlock_draws (dst : Nat) (chans : List (Array F32)) (s : State) :
    (commitBlock dst chans s).draws = s.draws + blockSamples s.track := rfl

/-- The fields of the track that a block leaves. -/
theorem commitBlock_track (dst : Nat) (chans : List (Array F32)) (s : State) :
    (commitBlock dst chans s).track =
      { s.track with
        outCnt := s.track.outCnt + s.track.blockSize
        prev := cacheTail s.track (overlapAdd s.track
          (pcmSamples s.params s.track s.draws (chans.map (trackTransform s.params s.track))))
        first := false } := rfl

/-- The bytes a block writes. -/
theorem commitBlock_dmem (dst : Nat) (chans : List (Array F32)) (s : State) :
    (commitBlock dst chans s).dmem =
      storeMem s.dmem (dst + 2 * s.track.outCnt.toNat)
        ((emitted s.track (overlapAdd s.track
          (pcmSamples s.params s.track s.draws (chans.map (trackTransform s.params s.track))))).flatMap
            bytesOfHalf) := rfl

/-! ### Shared shapes -/

/-- A state update that leaves memory and parameters alone reads every byte as before. -/
theorem readByte_congr (s t : State) (h : t.dmem = s.dmem) (a : Nat) : readByte t a = readByte s a := by
  simp [readByte, h]

/-- Taking an error reads every byte as before. -/
@[simp] theorem readByte_takeError (e : BteError) (info : Word) (s : State) (a : Nat) :
    readByte (takeError e info s) a = readByte s a := rfl

/-- A completed command reads every byte as the state it completes. -/
@[simp] theorem readByte_cmdptr (s : State) (w : Word) (a : Nat) :
    readByte { s with cmdptr := w } a = readByte s a := rfl

end Sys2Proof.Laws
end

