-- ==== Sys2Proof/Laws/Memory.lean ====
section
/-!
SUPPORT. What the memory operations do: reading after a write, the canonical form, and byte order.
-/

namespace Sys2Proof.Laws

open Sys2Proof Sys2Proof.Machine

/-! ### Looking up -/

theorem lookupByte_append (m n : Memory) (x : Nat) :
    lookupByte (m ++ n) x = (lookupByte m x).or (lookupByte n x) := by
  induction m with
  | nil => simp [lookupByte]
  | cons c m ih =>
    obtain ⟨a, v⟩ := c
    by_cases h : a = x <;> simp [lookupByte, h, ih]

theorem lookupByte_filter_of (P : Nat → Bool) (m : Memory) (x : Nat) (h : P x = true) :
    lookupByte (m.filter fun c => P c.1) x = lookupByte m x := by
  induction m with
  | nil => rfl
  | cons c m ih =>
    obtain ⟨a, v⟩ := c
    by_cases ha : a = x
    · subst ha; simp [lookupByte, h]
    · by_cases hp : P a = true <;> simp [lookupByte, hp, ha, ih]

theorem lookupByte_filter_not (P : Nat → Bool) (m : Memory) (x : Nat) (h : P x = false) :
    lookupByte (m.filter fun c => P c.1) x = none := by
  induction m with
  | nil => rfl
  | cons c m ih =>
    obtain ⟨a, v⟩ := c
    by_cases ha : a = x
    · subst ha; simp [h, ih]
    · by_cases hp : P a = true <;> simp [lookupByte, hp, ha, ih]

theorem lookupByte_cellsAt (a : Nat) (bs : List Byte) (x : Nat) :
    lookupByte (cellsAt a bs) x = if a ≤ x then bs[x - a]? else none := by
  induction bs generalizing a with
  | nil => simp [cellsAt, lookupByte]
  | cons b bs ih =>
    rw [cellsAt, lookupByte, ih]
    rcases Nat.lt_trichotomy x a with h | h | h
    · have h1 : ¬ a ≤ x := by omega
      have h2 : ¬ a + 1 ≤ x := by omega
      have h3 : ¬ a = x := by omega
      simp [h1, h2, h3]
    · subst h; simp
    · have h1 : a ≤ x := by omega
      have h2 : a + 1 ≤ x := by omega
      have h3 : ¬ a = x := by omega
      have h4 : x - a = (x - (a + 1)) + 1 := by omega
      simp [h1, h2, h3, h4]

/-- What a write leaves at an address: the byte written there, or what was listed before. -/
theorem lookupByte_storeMem (m : Memory) (a : Nat) (bs : List Byte) (x : Nat) :
    lookupByte (storeMem m a bs) x =
      if a ≤ x ∧ x < a + bs.length then bs[x - a]? else lookupByte m x := by
  rw [storeMem, lookupByte_append, lookupByte_append, lookupByte_cellsAt]
  rcases Nat.lt_or_ge x a with h | h
  · have h1 : ¬ (a ≤ x ∧ x < a + bs.length) := by omega
    have h2 : ¬ a ≤ x := by omega
    rw [lookupByte_filter_of (fun y => decide (y < a)) m x (by simpa using h),
      lookupByte_filter_not (fun y => decide (a + bs.length ≤ y)) m x (by simp; omega)]
    simp [h2]
  · rw [lookupByte_filter_not (fun y => decide (y < a)) m x (by simp; omega)]
    by_cases h1 : x < a + bs.length
    · rw [lookupByte_filter_not (fun y => decide (a + bs.length ≤ y)) m x (by simp; omega)]
      simp [h, h1]
    · have h2 : bs[x - a]? = none := by simp; omega
      rw [lookupByte_filter_of (fun y => decide (a + bs.length ≤ y)) m x (by simp; omega)]
      simp [h1, h2]

/-- Reading a byte after a write (00_scope.md R12). -/
theorem readByte_store (s : State) (a : Nat) (bs : List Byte) (x : Nat) :
    readByte (store s a bs) x =
      if a ≤ x ∧ x < a + bs.length then bs.getD (x - a) 0#8 else readByte s x := by
  unfold readByte
  rw [store_dmem, lookupByte_storeMem]
  by_cases h : a ≤ x ∧ x < a + bs.length
  · have h2 : x - a < bs.length := by omega
    simp [h, h2]
  · simp only [h, if_false]

/-- A write leaves every byte outside its region. -/
theorem readByte_store_outside (s : State) (a : Nat) (bs : List Byte) (x : Nat)
    (h : x < a ∨ a + bs.length ≤ x) : readByte (store s a bs) x = readByte s x := by
  rw [readByte_store, if_neg (by omega)]

/-- A write leaves byte k of its bytes at a + k. -/
theorem readByte_store_inside (s : State) (a : Nat) (bs : List Byte) (k : Nat) (h : k < bs.length) :
    readByte (store s a bs) (a + k) = bs.getD k 0#8 := by
  rw [readByte_store, if_pos (by omega), Nat.add_sub_cancel_left]

/-! ### The canonical form -/

theorem cellsAt_bounds (a : Nat) (bs : List Byte) (c : Host.Cell) (h : c ∈ cellsAt a bs) :
    a ≤ c.1 ∧ c.1 < a + bs.length := by
  induction bs generalizing a with
  | nil => simp [cellsAt] at h
  | cons b bs ih =>
    rcases List.mem_cons.1 h with h | h
    · subst h; simp
    · have := ih _ h
      simp only [List.length_cons]; omega

theorem cellsAt_wf (a : Nat) (bs : List Byte) : Memory.wf (cellsAt a bs) := by
  induction bs generalizing a with
  | nil => exact List.Pairwise.nil
  | cons b bs ih =>
    refine List.Pairwise.cons (fun c hc => ?_) (ih _)
    have := (cellsAt_bounds _ _ _ hc).1
    simp only; omega

/-- A write keeps the canonical form. -/
theorem storeMem_wf (m : Memory) (a : Nat) (bs : List Byte) (h : Memory.wf m) :
    Memory.wf (storeMem m a bs) := by
  have hf : ∀ P : Host.Cell → Bool, (m.filter P).Pairwise fun c d => c.1 < d.1 :=
    fun P => List.Pairwise.filter P h
  refine List.pairwise_append.2 ⟨List.pairwise_append.2 ⟨hf _, cellsAt_wf a bs, ?_⟩, hf _, ?_⟩
  · intro c hc d hd
    have h1 := (List.mem_filter.1 hc).2
    have h2 := (cellsAt_bounds _ _ _ hd).1
    simp only [decide_eq_true_eq] at h1; omega
  · intro c hc d hd
    have h2 := (List.mem_filter.1 hd).2
    simp only [decide_eq_true_eq] at h2
    rcases List.mem_append.1 hc with hc | hc
    · have h1 := (List.mem_filter.1 hc).2
      simp only [decide_eq_true_eq] at h1; omega
    · have h1 := (cellsAt_bounds _ _ _ hc).2
      omega

/-- A write inside DMEM lists only addresses of DMEM. -/
theorem storeMem_within (m : Memory) (a : Nat) (bs : List Byte) (size : Nat)
    (hm : Memory.within size m) (h : a + bs.length ≤ size) :
    Memory.within size (storeMem m a bs) := by
  intro c hc
  rcases List.mem_append.1 hc with hc | hc
  · rcases List.mem_append.1 hc with hc | hc
    · exact hm c (List.mem_filter.1 hc).1
    · have := (cellsAt_bounds _ _ _ hc).2
      omega
  · exact hm c (List.mem_filter.1 hc).1

/-- Memory after reset has the canonical form: nothing has been written. -/
theorem reset_dmem_wf : Memory.wf State.reset.dmem := List.Pairwise.nil

/-! ### Reading groups of bytes -/

@[simp] theorem readBytes_length (s : State) (a n : Nat) : (readBytes s a n).length = n := by
  simp [readBytes]

theorem readBytes_getD (s : State) (a n k : Nat) (h : k < n) (d : Byte) :
    (readBytes s a n).getD k d = readByte s (a + k) := by
  simp [readBytes, h]

@[simp] theorem readWords_length (s : State) (a n : Nat) : (readWords s a n).length = n := by
  simp [readWords]

theorem readWords_getD (s : State) (a n k : Nat) (h : k < n) (d : Word) :
    (readWords s a n).getD k d = readWord s (a + 4 * k) := by
  simp [readWords, h]

@[simp] theorem readFloats_length (s : State) (a n : Nat) : (readFloats s a n).length = n := by
  simp [readFloats]

/-! ### Words and bytes -/

@[simp] theorem bytesOfWord_length (w : Word) : (bytesOfWord w).length = 4 := rfl

@[simp] theorem bytesOfHalf_length (h : Half) : (bytesOfHalf h).length = 2 := rfl

@[simp] theorem bytesOfWords_length (ws : List Word) : (bytesOfWords ws).length = 4 * ws.length := by
  induction ws with
  | nil => rfl
  | cons w ws ih =>
    simp only [bytesOfWords, List.flatMap_cons, List.length_append, bytesOfWord_length,
      List.length_cons] at ih ⊢
    omega

/-- The four bytes of a word make it up again. -/
@[simp] theorem wordOfBytes_extract (w : Word) :
    wordOfBytes (w.extractLsb' 0 8) (w.extractLsb' 8 8) (w.extractLsb' 16 8) (w.extractLsb' 24 8) = w := by
  apply BitVec.eq_of_getLsbD_eq
  intro i hi
  simp only [wordOfBytes, BitVec.getLsbD_append, BitVec.getLsbD_extractLsb']
  by_cases h1 : i < 8
  · simp [h1]
  · by_cases h2 : i < 16
    · have : i - 8 < 8 := by omega
      have e : 8 + (i - 8) = i := by omega
      simp [h1, this, e]
    · by_cases h3 : i < 24
      · have a1 : ¬ i - 8 < 8 := by omega
        have a2 : i - 8 - 8 < 8 := by omega
        have e : 16 + (i - 8 - 8) = i := by omega
        simp [h1, a1, a2, e]
      · have a1 : ¬ i - 8 < 8 := by omega
        have a2 : ¬ i - 8 - 8 < 8 := by omega
        have a3 : i - 8 - 8 - 8 < 8 := by omega
        have e : 24 + (i - 8 - 8 - 8) = i := by omega
        simp [h1, a1, a2, a3, e]

theorem bytesOfWords_getD (ws : List Word) (k j : Nat) (hk : k < ws.length) (hj : j < 4) (d : Byte) :
    (bytesOfWords ws).getD (4 * k + j) d = (bytesOfWord (ws.getD k 0#32)).getD j d := by
  induction ws generalizing k with
  | nil => simp at hk
  | cons w ws ih =>
    have hcons : bytesOfWords (w :: ws) = bytesOfWord w ++ bytesOfWords ws := rfl
    cases k with
    | zero =>
      rw [hcons]
      simp only [List.getD_eq_getElem?_getD, Nat.mul_zero, Nat.zero_add]
      rw [List.getElem?_append_left (by simpa using hj)]
      rfl
    | succ k =>
      have h := ih k (by simpa using hk)
      rw [hcons]
      simp only [List.getD_eq_getElem?_getD] at h ⊢
      rw [List.getElem?_append_right (by simp; omega), bytesOfWord_length,
        show 4 * (k + 1) + j - 4 = 4 * k + j by omega, h]
      simp

/-- Word k of consecutive words written at `a` reads back (20_memory.md R44). -/
theorem readWord_store_words (s : State) (a : Nat) (ws : List Word) (k : Nat) (h : k < ws.length) :
    readWord (store s a (bytesOfWords ws)) (a + 4 * k) = ws.getD k 0#32 := by
  have hb : ∀ j, j < 4 → readByte (store s a (bytesOfWords ws)) (a + 4 * k + j) =
      (bytesOfWord (ws.getD k 0#32)).getD j 0#8 := by
    intro j hj
    rw [Nat.add_assoc, readByte_store_inside _ _ _ _ (by simp; omega), bytesOfWords_getD _ _ _ h hj]
  have h0 := hb 0 (by omega)
  have h1 := hb 1 (by omega)
  have h2 := hb 2 (by omega)
  have h3 := hb 3 (by omega)
  rw [Nat.add_zero] at h0
  rw [readWord, h0, h1, h2, h3]
  exact wordOfBytes_extract _

@[simp] theorem floatImages_length (n : Nat) (fs : List F32) : (floatImages n fs).length = fs.length := by
  induction fs generalizing n with
  | nil => rfl
  | cons f fs ih => simp [floatImages, ih]

theorem floatImages_getD (n : Nat) (fs : List F32) (k : Nat) (h : k < fs.length) (d : Word) :
    (floatImages n fs).getD k d = floatImage (n + k) (fs.getD k F32.zero) := by
  induction fs generalizing n k with
  | nil => simp at h
  | cons f fs ih =>
    cases k with
    | zero => simp [floatImages]
    | succ k =>
      have h' := ih (n + 1) k (by simpa using h)
      simp only [List.getD_eq_getElem?_getD] at h' ⊢
      simp only [floatImages, List.getElem?_cons_succ, h']
      rw [show n + 1 + k = n + (k + 1) by omega]

end Sys2Proof.Laws
end

