-- ==== Sys2Proof/Laws/Ops.lean ====
section
/-!
SUPPORT. What each shared operation can do: if a check, a completion or an error answers `next t`, then
what `t` is.
-/

namespace Sys2Proof.Laws

open Sys2Proof Sys2Proof.Machine

/-! ### Checks and errors -/

@[simp] theorem check_true (e : BteError) (v : Word) (s : State) (k : Out) : check true e v s k = k := rfl

@[simp] theorem check_false (e : BteError) (v : Word) (s : State) (k : Out) :
    check false e v s k = .next (takeError e v s) := rfl

theorem check_of_true {ok : Bool} (h : ok = true) (e : BteError) (v : Word) (s : State) (k : Out) :
    check ok e v s k = k := by rw [h]; rfl

theorem check_of_false {ok : Bool} (h : ok = false) (e : BteError) (v : Word) (s : State) (k : Out) :
    check ok e v s k = .next (takeError e v s) := by rw [h]; rfl

/-- Everything a check can do. -/
theorem check_next {ok : Bool} {e : BteError} {v : Word} {s t : State} {k : Out}
    (h : check ok e v s k = .next t) :
    (ok = true ∧ k = .next t) ∨ (ok = false ∧ t = takeError e v s) := by
  cases ok with
  | true => exact .inl ⟨rfl, h⟩
  | false => exact .inr ⟨rfl, (Host.Outcome.next.inj h).symm⟩

theorem raise_eq (e : BteError) (v : Word) (s : State) : raise e v s = .next (takeError e v s) := rfl

theorem complete_eq (k : Nat) (s : State) :
    complete k s = .next { s with cmdptr := nextCommand s.cmdptr k } := rfl

theorem complete_next {k : Nat} {s t : State} (h : complete k s = .next t) :
    t = { s with cmdptr := nextCommand s.cmdptr k } := (Host.Outcome.next.inj h).symm

theorem alignedTo_iff (n : Nat) (a : Word) : alignedTo n a = true ↔ a.toNat % n = 0 := by
  simp [alignedTo]

theorem inDmem_iff (s : State) (a len : Nat) : inDmem s a len = true ↔ a + len ≤ s.params.dmemSize := by
  simp [inDmem]

/-- Everything the checks of one operand region can do. -/
theorem checkRegion_next {align len : Nat} {a : Word} {s t : State} {k : Out}
    (h : checkRegion align len a s k = .next t) :
    (a.toNat % align = 0 ∧ a.toNat + len ≤ s.params.dmemSize ∧ k = .next t) ∨
    (a.toNat % align ≠ 0 ∧ t = takeError .align a s) ∨
    (a.toNat % align = 0 ∧ s.params.dmemSize < a.toNat + len ∧ t = takeError .addr a s) := by
  rcases check_next h with ⟨ha, h⟩ | ⟨ha, h⟩
  · rw [alignedTo_iff] at ha
    rcases check_next h with ⟨hb, h⟩ | ⟨hb, h⟩
    · exact .inl ⟨ha, (inDmem_iff _ _ _).1 hb, h⟩
    · refine .inr (.inr ⟨ha, ?_, h⟩)
      have := (inDmem_iff s a.toNat len).not.1 (by simp [hb])
      omega
  · refine .inr (.inl ⟨?_, h⟩)
    exact (alignedTo_iff align a).not.1 (by simp [ha])

theorem checkRegion_pass {align len : Nat} {a : Word} {s : State} (k : Out)
    (h1 : a.toNat % align = 0) (h2 : a.toNat + len ≤ s.params.dmemSize) :
    checkRegion align len a s k = k := by
  rw [checkRegion, check_of_true ((alignedTo_iff _ _).2 h1), check_of_true ((inDmem_iff _ _ _).2 h2)]

theorem checkRegion_misaligned {align len : Nat} {a : Word} {s : State} (k : Out)
    (h1 : a.toNat % align ≠ 0) : checkRegion align len a s k = .next (takeError .align a s) := by
  refine check_of_false ?_ _ _ _ _
  rw [← Bool.not_eq_true, alignedTo_iff]; exact h1

theorem checkRegion_outside {align len : Nat} {a : Word} {s : State} (k : Out)
    (h1 : a.toNat % align = 0) (h2 : s.params.dmemSize < a.toNat + len) :
    checkRegion align len a s k = .next (takeError .addr a s) := by
  rw [checkRegion, check_of_true ((alignedTo_iff _ _).2 h1)]
  refine check_of_false ?_ _ _ _ _
  rw [← Bool.not_eq_true, inDmem_iff]; omega

/-- Everything the plane and position checks can do. -/
theorem checkBlock_next {p : PlaneIdx} {pos : BlockPos} {s t : State} {k : Out}
    (h : checkBlock p pos s k = .next t) :
    (planeValid s p = true ∧ blockLegal s p pos = true ∧ k = .next t) ∨
    (planeValid s p = false ∧ t = takeError .mcGeom (planeWord p) s) ∨
    (planeValid s p = true ∧ blockLegal s p pos = false ∧ t = takeError .mcBlock pos.word s) := by
  rcases check_next h with ⟨ha, h⟩ | ⟨ha, h⟩
  · rcases check_next h with ⟨hb, h⟩ | ⟨hb, h⟩
    · exact .inl ⟨ha, hb, h⟩
    · exact .inr (.inr ⟨ha, hb, h⟩)
  · exact .inr (.inl ⟨ha, h⟩)

theorem planeValid_iff (s : State) (p : PlaneIdx) : planeValid s p = true ↔
    1 ≤ planeBW s p ∧ 1 ≤ planeBH s p ∧ 8 * planeBW s p ≤ planePitch s p ∧
      planeBase s 0 p + planeExtent s p ≤ s.params.dmemSize ∧
      planeBase s 1 p + planeExtent s p ≤ s.params.dmemSize := by
  simp [planeValid, inDmem, and_assoc]

theorem blockLegal_iff (s : State) (p : PlaneIdx) (pos : BlockPos) : blockLegal s p pos = true ↔
    pos.bx.toNat < planeBW s p ∧ pos.brow.toNat < planeBH s p := by
  simp [blockLegal]

theorem refLegal_iff (s : State) (p : PlaneIdx) (pos : BlockPos) (dx dy : BitVec 8) :
    refLegal s p pos dx dy = true ↔
      0 ≤ refOffset s p pos dx dy ∧ refOffset s p pos dx dy ≤ refOffsetMax s p := by
  simp [refLegal]

/-- Either buffer of a valid plane lies inside DMEM. -/
theorem planeValid_base {s : State} {p : PlaneIdx} (h : planeValid s p = true) (b : Fin 2) :
    planeBase s b p + planeExtent s p ≤ s.params.dmemSize := by
  obtain ⟨-, -, -, h0, h1⟩ := (planeValid_iff s p).1 h
  match b with
  | 0 => exact h0
  | 1 => exact h1

end Sys2Proof.Laws
end

