-- ==== Sys2Proof/Laws/Arrays.lean ====
section
/-!
SUPPORT. The transforms keep the number of elements of their buffer; what a fold that writes in place
leaves at an element; the size and the elements of an audio block's arrays.
-/

namespace Sys2Proof.Laws

open Sys2Proof Sys2Proof.Machine

/-- A fold whose steps keep a size keeps it. -/
theorem foldl_size {α β : Type} (f : Array α → β → Array α) (h : ∀ a b, (f a b).size = a.size)
    (l : List β) (a : Array α) : (l.foldl f a).size = a.size := by
  induction l generalizing a with
  | nil => rfl
  | cons b l ih => rw [List.foldl_cons, ih, h]

/-- The same for a fold that carries a second value. -/
theorem foldl_size_pair {α β γ : Type} (f : Array α × γ → β → Array α × γ)
    (h : ∀ a b, (f a b).1.size = a.1.size) (l : List β) (a : Array α × γ) :
    (l.foldl f a).1.size = a.1.size := by
  induction l generalizing a with
  | nil => rfl
  | cons b l ih => rw [List.foldl_cons, ih, h]

@[simp] theorem cxSet_size (z : Array Cx) (k : Nat) (v : Cx) : (cxSet z k v).size = z.size := by
  simp [cxSet]

@[simp] theorem cxSet4_size (z : Array Cx) (i0 i1 i2 i3 : Nat) (v : Cx × Cx × Cx × Cx) :
    (cxSet4 z i0 i1 i2 i3 v).size = z.size := by simp [cxSet4]

@[simp] theorem fSet_size (d : Array F32) (i : Nat) (v : F32) : (fSet d i v).size = d.size := by
  simp [fSet]

@[simp] theorem revtab_size (k : Nat) (inv : Bool) : (revtab k inv).size = 2 ^ k := by
  rw [revtab, foldl_size _ (by simp)]; simp

@[simp] theorem permute_size (k : Nat) (inv : Bool) (z : Array Cx) : (permute k inv z).size = 2 ^ k := by
  rw [permute, foldl_size _ (by simp)]; simp

@[simp] theorem fft4At_size (z : Array Cx) (b : Nat) : (fft4At z b).size = z.size := by simp [fft4At]

@[simp] theorem fft8At_size (z : Array Cx) (b : Nat) : (fft8At z b).size = z.size := by simp [fft8At]

@[simp] theorem passAt_size (p : Params) (k : Nat) (z : Array Cx) (b : Nat) :
    (passAt p k z b).size = z.size := by
  simp only [passAt]; rw [foldl_size _ (by simp)]; simp

@[simp] theorem fftnAt_size (p : Params) (k : Nat) (z : Array Cx) (b : Nat) :
    (fftnAt p k z b).size = z.size := by
  induction k using Nat.strong_induction_on generalizing z b with
  | _ k ih =>
    match k, ih with
    | 0, _ => rfl
    | 1, _ => rfl
    | 2, _ => simp [fftnAt]
    | 3, _ => simp [fftnAt]
    | k + 4, ih => simp [fftnAt, ih (k + 3) (by omega), ih (k + 2) (by omega)]

@[simp] theorem fftCalc_size (p : Params) (bits : Nat) (z : Array Cx) :
    (fftCalc p bits z).size = z.size := by simp [fftCalc]

theorem cxOfFloats_length (d : List F32) : (cxOfFloats d).length = d.length / 2 := by
  match d with
  | [] => rfl
  | [_] => simp [cxOfFloats]
  | _ :: _ :: ds =>
    rw [cxOfFloats, List.length_cons, cxOfFloats_length ds]
    simp only [List.length_cons]; omega

@[simp] theorem floatsOfCx_length (zs : List Cx) : (floatsOfCx zs).length = 2 * zs.length := by
  induction zs with
  | nil => rfl
  | cons z zs ih =>
    have h : floatsOfCx (z :: zs) = z.re :: z.im :: floatsOfCx zs := rfl
    rw [h]; simp only [List.length_cons, ih]; omega

@[simp] theorem rdftCore_size (p : Params) (bits : Nat) (inv : Bool) (d : Array F32) :
    (rdftCore p bits inv d).size = d.size := by
  simp only [rdftCore]; rw [foldl_size _ (by simp)]

@[simp] theorem rdftFold_size (p : Params) (bits : Nat) (t : RdftType) (d : Array F32) (i : Nat) :
    (rdftFold p bits t d i).size = d.size := by simp [rdftFold]

@[simp] theorem rdft_size (p : Params) (bits : Nat) (t : RdftType) (d : Array F32) :
    (rdft p bits t d).size = d.size := by
  cases t <;> simp [rdft, rdftInverse, rdftSignNeg, foldl_size]

@[simp] theorem dctI_size (p : Params) (bits : Nat) (d : Array F32) : (dctI p bits d).size = d.size := by
  simp only [dctI]
  rw [foldl_size _ (by simp)]
  simp only [fSet_size, rdft_size]
  exact foldl_size_pair _ (by simp) _ _

@[simp] theorem dctII_size (p : Params) (bits : Nat) (d : Array F32) : (dctII p bits d).size = d.size := by
  simp only [dctII]
  rw [foldl_size_pair _ (by simp)]
  simp only [fSet_size, rdft_size]
  exact foldl_size _ (by simp) _ _

@[simp] theorem dctIII_size (p : Params) (bits : Nat) (d : Array F32) :
    (dctIII p bits d).size = d.size := by
  simp only [dctIII]
  rw [foldl_size _ (by simp)]
  simp only [fSet_size, rdft_size]
  exact foldl_size _ (by simp) _ _

@[simp] theorem dstI_size (p : Params) (bits : Nat) (d : Array F32) : (dstI p bits d).size = d.size := by
  simp only [dstI, fSet_size]
  rw [foldl_size _ (by simp)]
  simp only [fSet_size, rdft_size]
  rw [foldl_size _ (by simp)]
  simp

@[simp] theorem dct_size (p : Params) (bits : Nat) (t : DctType) (d : Array F32) :
    (dct p bits t d).size = d.size := by
  cases t <;> simp [dct]

/-- XF_CALC writes back as many floats as it read. -/
theorem calculated_length (p : Params) (x : Context) (d : List F32) (h : d.length = bufferElems x) :
    (calculated p x d).length = d.length := by
  obtain ⟨kind, type, bits⟩ := x
  cases kind with
  | none => rfl
  | fft =>
    simp only [bufferElems] at h
    simp only [calculated, floatsOfCx_length, Array.length_toList, fftCalc_size, List.size_toArray,
      cxOfFloats_length]
    omega
  | rdft => simp [calculated]
  | dct => simp [calculated]

/-! ### Audio blocks -/

/-! ### Folds that write in place -/

/-- An element that no turn of a fold touches keeps its value; `S i j` says that turn i touches element j. -/
theorem foldl_getElem?_untouched {α ι : Type} (S : ι → Nat → Prop) (f : Array α → ι → Array α)
    (hw : ∀ d i j, ¬ S i j → (f d i)[j]? = d[j]?) (l : List ι) (d : Array α) (j : Nat)
    (h : ∀ i ∈ l, ¬ S i j) : (l.foldl f d)[j]? = d[j]? := by
  induction l generalizing d with
  | nil => rfl
  | cons i l ih =>
    rw [List.foldl_cons, ih _ fun k hk => h k (List.mem_cons_of_mem _ hk), hw d i j (h i List.mem_cons_self)]

/-- Where the turns of a fold touch disjoint elements, and read only what they touch, an element that turn i
touches ends as that turn alone would leave it. -/
theorem foldl_getElem?_touched {α ι : Type} (S : ι → Nat → Prop) (f : Array α → ι → Array α)
    (hw : ∀ d i j, ¬ S i j → (f d i)[j]? = d[j]?)
    (hr : ∀ d d' i, (∀ m, S i m → d[m]? = d'[m]?) → ∀ j, S i j → (f d i)[j]? = (f d' i)[j]?)
    (l : List ι) (hl : l.Pairwise fun a b => ∀ m, S a m → ¬ S b m) (d : Array α) (i : ι) (hi : i ∈ l)
    (j : Nat) (hj : S i j) : (l.foldl f d)[j]? = (f d i)[j]? := by
  induction l generalizing d with
  | nil => cases hi
  | cons a l ih =>
    rw [List.pairwise_cons] at hl
    rw [List.foldl_cons]
    rcases List.mem_cons.1 hi with rfl | hi
    · exact foldl_getElem?_untouched S f hw l _ j fun b hb => hl.1 b hb j hj
    · rw [ih hl.2 _ hi]
      exact hr _ _ i (fun m hm => hw d a m fun ha => hl.1 i hi m ha hm) j hj

/-- Two arrays that agree at an index both have it or both lack it. -/
theorem lt_size_congr {α : Type} {d d' : Array α} {m : Nat} (h : d[m]? = d'[m]?) :
    m < d.size ↔ m < d'.size := by
  have h' : d[m]? = none ↔ d'[m]? = none := by rw [h]
  simp only [Array.getElem?_eq_none_iff] at h'
  omega

theorem fAt_eq (d : Array F32) (i : Nat) : fAt d i = d[i]?.getD F32.zero := by simp [fAt]

theorem fSet_getElem? (d : Array F32) (i j : Nat) (v : F32) :
    (fSet d i v)[j]? = if i = j ∧ j < d.size then some v else d[j]? := by
  rw [fSet, Array.getElem?_setIfInBounds]
  split
  · subst_vars; split <;> simp_all
  · simp_all

/-- A float buffer read after a write. -/
theorem fAt_fSet (d : Array F32) (i j : Nat) (v : F32) :
    fAt (fSet d i v) j = if i = j ∧ j < d.size then v else fAt d j := by
  rw [fAt_eq, fSet_getElem?]; split <;> simp [fAt_eq]

/-- The four elements that turn i of RDFT's loop touches (42_transform_rdft_dct.md R89). -/
def RdftTouches (bits i j : Nat) : Prop :=
  j = 2 * i ∨ j = 2 * i + 1 ∨ j = 2 ^ bits - 2 * i ∨ j = 2 ^ bits - 2 * i + 1

/-- A turn of RDFT's loop writes only what it touches. -/
theorem rdftFold_untouched (p : Params) (bits : Nat) (t : RdftType) (d : Array F32) (i j : Nat)
    (h : ¬ RdftTouches bits i j) : (rdftFold p bits t d i)[j]? = d[j]? := by
  simp only [RdftTouches, not_or] at h
  simp only [rdftFold, fSet_getElem?]
  rw [if_neg (by omega), if_neg (by omega), if_neg (by omega), if_neg (by omega)]

/-- A turn of RDFT's loop reads only what it touches. -/
theorem rdftFold_touched (p : Params) (bits : Nat) (t : RdftType) (d d' : Array F32) (i : Nat)
    (h : ∀ m, RdftTouches bits i m → d[m]? = d'[m]?) (j : Nat) (hj : RdftTouches bits i j) :
    (rdftFold p bits t d i)[j]? = (rdftFold p bits t d' i)[j]? := by
  have e : ∀ m, RdftTouches bits i m → fAt d m = fAt d' m := fun m hm => by rw [fAt_eq, fAt_eq, h m hm]
  have e1 := e (2 * i) (by simp [RdftTouches])
  have e2 := e (2 * i + 1) (by simp [RdftTouches])
  have e3 := e (2 ^ bits - 2 * i) (by simp [RdftTouches])
  have e4 := e (2 ^ bits - 2 * i + 1) (by simp [RdftTouches])
  simp only [rdftFold, fSet_getElem?, fSet_size, e1, e2, e3, e4, h j hj, lt_size_congr (h j hj)]

/-! ### Audio -/

/-- ERRINFO of BIT_OVERRUN is the bit position wherever 32 bits hold it (60_exceptions.md R129). -/
theorem bitPosWord_toNat {pos : Nat} (h : pos < 2 ^ 32) : (bitPosWord pos).toNat = pos := by
  rw [bitPosWord, if_pos h, BitVec.toNat_ofNat, Nat.mod_eq_of_lt h]

@[simp] theorem pcmSamples_size (p : Params) (t : Track) (draws : Nat) (chans : List (Array F32)) :
    (pcmSamples p t draws chans).size = blockSamples t := by simp [pcmSamples]

@[simp] theorem overlapAdd_size (t : Track) (out : Array Half) : (overlapAdd t out).size = out.size := by
  unfold overlapAdd
  split
  · rfl
  · exact foldl_size _ (by simp) _ _

@[simp] theorem emitted_length (t : Track) (out : Array Half) :
    (emitted t out).length = t.blockSize.toNat := by simp [emitted]

theorem prevAt_cacheTail (t : Track) (out : Array Half) (i : Nat) (h : i < 256) :
    prevAt { t with prev := cacheTail t out } i =
      if i < overlapCount t then sampleAt out (t.blockSize.toNat + i) else prevAt t i := by
  simp [prevAt, cacheTail, h]

theorem prevAt_beyond (t : Track) (i : Nat) (h : 256 ≤ i) : prevAt t i = 0#16 := by
  simp [prevAt, h]

end Sys2Proof.Laws
end

