-- ==== Sys2Proof/Laws/Block.lean ====
section
/-!
SUPPORT. Pixel blocks: reading one, writing one, and that the block and the reference of a command that
passed its checks lie inside DMEM.
-/

namespace Sys2Proof.Laws

open Sys2Proof Sys2Proof.Machine

@[simp] theorem readBlock_length (s : State) (base pitch : Nat) : (readBlock s base pitch).length = 64 := by
  simp [readBlock, List.length_flatMap]

/-- Pixel 8r + c of a block read. -/
theorem readBlock_getD (s : State) (base pitch r c : Nat) (hr : r < 8) (hc : c < 8) (d : Byte) :
    (readBlock s base pitch).getD (8 * r + c) d = readByte s (pixelAddr base pitch r c) := by
  have h : readBlock s base pitch =
      readBytes s (base + 0 * pitch) 8 ++ (readBytes s (base + 1 * pitch) 8 ++
      (readBytes s (base + 2 * pitch) 8 ++ (readBytes s (base + 3 * pitch) 8 ++
      (readBytes s (base + 4 * pitch) 8 ++ (readBytes s (base + 5 * pitch) 8 ++
      (readBytes s (base + 6 * pitch) 8 ++ (readBytes s (base + 7 * pitch) 8 ++ []))))))) := rfl
  rw [h, pixelAddr]
  interval_cases r <;> interval_cases c <;> rfl

/-- The rows written one after the other: byte by byte, when the rows do not overlap. -/
theorem writeRows_read (px : List Byte) (base pitch : Nat) (hp : 8 ≤ pitch) (hl : px.length = 64) (x : Nat) :
    ∀ (n : Nat), n ≤ 8 → ∀ s : State,
      ((∀ r c, r < n → c < 8 → x = pixelAddr base pitch r c →
        readByte ((List.range n).foldl
          (fun s r => store s (base + r * pitch) ((px.drop (8 * r)).take 8)) s) x = px.getD (8 * r + c) 0#8) ∧
      ((∀ r c, r < n → c < 8 → x ≠ pixelAddr base pitch r c) →
        readByte ((List.range n).foldl
          (fun s r => store s (base + r * pitch) ((px.drop (8 * r)).take 8)) s) x = readByte s x)) := by
  intro n
  induction n with
  | zero => intro _ s; exact ⟨fun r c hr => absurd hr (Nat.not_lt_zero r), fun _ => rfl⟩
  | succ n ih =>
    intro hn s
    obtain ⟨ih1, ih2⟩ := ih (by omega) s
    rw [List.range_succ, List.foldl_append]
    simp only [List.foldl_cons, List.foldl_nil]
    have hlen : ((px.drop (8 * n)).take 8).length = 8 := by simp; omega
    constructor
    · intro r c hr hc hx
      subst hx
      by_cases hrn : r = n
      · subst hrn
        rw [pixelAddr, readByte_store_inside _ _ _ _ (by omega)]
        rw [List.getD_eq_getElem?_getD, List.getElem?_take, if_pos hc, List.getElem?_drop,
          ← List.getD_eq_getElem?_getD]
      · have hrn' : r < n := by omega
        rw [readByte_store_outside _ _ _ _ ?_]
        · exact ih1 r c hrn' hc rfl
        · left
          have : (r + 1) * pitch ≤ n * pitch := Nat.mul_le_mul_right _ hrn'
          rw [Nat.succ_mul] at this
          simp only [pixelAddr]; omega
    · intro hx
      rw [readByte_store_outside _ _ _ _ ?_]
      · exact ih2 fun r c hr hc => hx r c (by omega) hc
      · rw [hlen]
        by_contra hcon
        push Not at hcon
        refine hx n (x - (base + n * pitch)) (by omega) (by omega) ?_
        simp only [pixelAddr]; omega

/-- A pixel of a block written. -/
theorem writeBlock_inside (s : State) (base pitch : Nat) (px : List Byte) (hp : 8 ≤ pitch)
    (hl : px.length = 64) (r c : Nat) (hr : r < 8) (hc : c < 8) :
    readByte (writeBlock s base pitch px) (pixelAddr base pitch r c) = px.getD (8 * r + c) 0#8 :=
  (writeRows_read px base pitch hp hl _ 8 (le_refl 8) s).1 r c hr hc rfl

/-- A byte that is no pixel of the block written. -/
theorem writeBlock_outside (s : State) (base pitch : Nat) (px : List Byte) (hp : 8 ≤ pitch)
    (hl : px.length = 64) (x : Nat) (hx : ∀ r c, r < 8 → c < 8 → x ≠ pixelAddr base pitch r c) :
    readByte (writeBlock s base pitch px) x = readByte s x :=
  (writeRows_read px base pitch hp hl x 8 (le_refl 8) s).2 hx

/-- Writing a block changes DMEM alone. -/
theorem writeBlock_eq (s : State) (base pitch : Nat) (px : List Byte) :
    writeBlock s base pitch px = { s with dmem := (writeBlock s base pitch px).dmem } := by
  have h : ∀ (l : List Nat) (s : State),
      l.foldl (fun s r => store s (base + r * pitch) ((px.drop (8 * r)).take 8)) s =
        { s with dmem := (l.foldl
          (fun s r => store s (base + r * pitch) ((px.drop (8 * r)).take 8)) s).dmem } := by
    intro l
    induction l with
    | nil => intro s; rfl
    | cons r l ih => intro s; rw [List.foldl_cons, ih]; rfl
  exact h _ s

/-- Writing a block keeps the canonical form of memory. -/
theorem writeBlock_wf (s : State) (base pitch : Nat) (px : List Byte) (h : Memory.wf s.dmem) :
    Memory.wf (writeBlock s base pitch px).dmem := by
  have hl : ∀ (l : List Nat) (s : State), Memory.wf s.dmem →
      Memory.wf (l.foldl (fun s r => store s (base + r * pitch) ((px.drop (8 * r)).take 8)) s).dmem := by
    intro l
    induction l with
    | nil => exact fun _ h => h
    | cons r l ih => exact fun s h => ih _ (storeMem_wf _ _ _ h)
  exact hl _ s h

/-- Writing a block inside DMEM lists no address outside it. -/
theorem writeBlock_within (s : State) (base pitch size : Nat) (px : List Byte)
    (hb : ∀ r, r < 8 → base + r * pitch + 8 ≤ size) (h : Memory.within size s.dmem) :
    Memory.within size (writeBlock s base pitch px).dmem := by
  have hl : ∀ (l : List Nat) (s : State), (∀ r ∈ l, r < 8) → Memory.within size s.dmem →
      Memory.within size
        (l.foldl (fun s r => store s (base + r * pitch) ((px.drop (8 * r)).take 8)) s).dmem := by
    intro l
    induction l with
    | nil => exact fun _ _ h => h
    | cons r l ih =>
      intro s hr h
      refine ih _ (fun x hx => hr x (List.mem_cons_of_mem _ hx)) (storeMem_within _ _ _ _ h ?_)
      have := hb r (hr r List.mem_cons_self)
      have : ((px.drop (8 * r)).take 8).length ≤ 8 := by simp
      omega
  exact hl _ s (by simp) h

/-! ### Blocks inside DMEM -/

/-- Everything a guarded block access can do. -/
theorem touchBlock_next {base pitch : Nat} {s t : State} {k : Out} (h : touchBlock base pitch s k = .next t) :
    (∀ r, r < 8 → base + r * pitch + 8 ≤ s.params.dmemSize) ∧ k = .next t := by
  unfold touchBlock at h
  split at h
  · rename_i hb
    refine ⟨fun r hr => ?_, h⟩
    have := (List.all_eq_true.1 hb) r (List.mem_range.2 hr)
    exact (inDmem_iff _ _ _).1 this
  · cases h

theorem touchBlock_pass {base pitch : Nat} {s : State} (k : Out)
    (h : base + 7 * pitch + 8 ≤ s.params.dmemSize) : touchBlock base pitch s k = k := by
  refine if_pos (List.all_eq_true.2 fun r hr => (inDmem_iff _ _ _).2 ?_)
  have : r * pitch ≤ 7 * pitch := Nat.mul_le_mul_right _ (by have := List.mem_range.1 hr; omega)
  omega

/-- The last pixel of a legal block lies inside its buffer (43_motion.md R99). -/
theorem blockDst_fits {s : State} {p : PlaneIdx} {pos : BlockPos} (hv : planeValid s p = true)
    (hl : blockLegal s p pos = true) :
    blockDst s p pos + 7 * planePitch s p + 8 ≤ curBase s p + planeExtent s p := by
  obtain ⟨hw, hh, hp, -, -⟩ := (planeValid_iff s p).1 hv
  obtain ⟨hx, hy⟩ := (blockLegal_iff s p pos).1 hl
  have h1 : planePitch s p * (8 * pos.brow.toNat + 8) ≤ planePitch s p * (8 * planeBH s p) :=
    Nat.mul_le_mul_left _ (by omega)
  rw [Nat.mul_add] at h1
  have e1 : 8 * pos.brow.toNat * planePitch s p = planePitch s p * (8 * pos.brow.toNat) := Nat.mul_comm _ _
  have e2 : planeExtent s p = planePitch s p * (8 * planeBH s p) := by
    rw [planeExtent, Nat.mul_assoc]
  rw [blockDst, e1, e2]
  omega

/-- The last pixel of a legal reference lies inside the old buffer (43_motion.md R100). -/
theorem refBase_fits {s : State} {p : PlaneIdx} {pos : BlockPos} {dx dy : BitVec 8}
    (hv : planeValid s p = true) (hr : refLegal s p pos dx dy = true) :
    refBase s p pos dx dy + 7 * planePitch s p + 8 ≤ oldBase s p + planeExtent s p := by
  obtain ⟨hw, hh, hp, -, -⟩ := (planeValid_iff s p).1 hv
  obtain ⟨h0, h1⟩ := (refLegal_iff s p pos dx dy).1 hr
  obtain ⟨w, hw'⟩ : ∃ w, planeBW s p = w + 1 := ⟨planeBW s p - 1, by omega⟩
  obtain ⟨h, hh'⟩ : ∃ h, planeBH s p = h + 1 := ⟨planeBH s p - 1, by omega⟩
  rw [refOffsetMax, hw', hh'] at h1
  have e1 : 8 * (planePitch s p : Int) * (((h + 1 : Nat) : Int) - 1) = ((8 * planePitch s p * h : Nat) : Int) := by
    push_cast; ring
  have e2 : planeExtent s p = 8 * planePitch s p * h + 8 * planePitch s p := by
    rw [planeExtent, hh']; ring
  rw [e1] at h1
  rw [refBase, e2]
  have : (refOffset s p pos dx dy).toNat ≤ 8 * w + 8 * planePitch s p * h := by omega
  omega

/-- A co-located block is a legal reference (43_motion.md R102). -/
theorem refLegal_zero {s : State} {p : PlaneIdx} {pos : BlockPos} (hl : blockLegal s p pos = true) :
    refLegal s p pos 0#8 0#8 = true := by
  obtain ⟨hx, hy⟩ := (blockLegal_iff s p pos).1 hl
  refine (refLegal_iff _ _ _ _ _).2 ⟨?_, ?_⟩
  · simp only [refOffset, show (0#8 : BitVec 8).toInt = 0 from rfl]
    positivity
  · simp only [refOffset, refOffsetMax, show (0#8 : BitVec 8).toInt = 0 from rfl, add_zero]
    have : (pos.brow.toNat : Int) * planePitch s p ≤ ((planeBH s p : Int) - 1) * planePitch s p :=
      mul_le_mul_of_nonneg_right (by omega) (by positivity)
    nlinarith

/-! ### The guarded blocks of the MC commands -/

theorem touchDst_pass {p : PlaneIdx} {pos : BlockPos} {s : State} (k : Out) (hv : planeValid s p = true)
    (hl : blockLegal s p pos = true) : touchDst p pos s k = k := by
  have h1 := blockDst_fits hv hl
  have h2 : curBase s p + planeExtent s p ≤ s.params.dmemSize := planeValid_base hv s.cur
  exact touchBlock_pass k (by omega)

theorem touchRef_pass {p : PlaneIdx} {pos : BlockPos} {dx dy : BitVec 8} {s : State} (k : Out)
    (hv : planeValid s p = true) (hr : refLegal s p pos dx dy = true) : touchRef p pos dx dy s k = k := by
  have h1 := refBase_fits hv hr
  have h2 : oldBase s p + planeExtent s p ≤ s.params.dmemSize := planeValid_base hv (otherBuffer s.cur)
  exact touchBlock_pass k (by omega)

theorem planeValid_pitch {s : State} {p : PlaneIdx} (hv : planeValid s p = true) : 8 ≤ planePitch s p := by
  obtain ⟨h1, -, h3, -, -⟩ := (planeValid_iff s p).1 hv
  omega

/-- Everything `putBlock` does: the 64 pixels of the destination, and no other byte or register. -/
theorem putBlock_spec {p : PlaneIdx} {pos : BlockPos} {s : State} {px : List Byte} (hp : 8 ≤ planePitch s p)
    (hl : px.length = 64) :
    putBlock p pos px s = { s with dmem := (putBlock p pos px s).dmem } ∧
    (∀ r c, r < 8 → c < 8 →
      readByte (putBlock p pos px s) (pixelAddr (blockDst s p pos) (planePitch s p) r c) =
        px.getD (8 * r + c) 0#8) ∧
    ∀ x, (∀ r c, r < 8 → c < 8 → x ≠ pixelAddr (blockDst s p pos) (planePitch s p) r c) →
      readByte (putBlock p pos px s) x = readByte s x :=
  ⟨writeBlock_eq _ _ _ _, fun r c hr hc => writeBlock_inside _ _ _ _ hp hl r c hr hc,
    fun x hx => writeBlock_outside _ _ _ _ hp hl x hx⟩

@[simp] theorem refBlock_length (s : State) (p : PlaneIdx) (pos : BlockPos) (dx dy : BitVec 8) :
    (refBlock s p pos dx dy).length = 64 := readBlock_length _ _ _

@[simp] theorem curBlock_length (s : State) (p : PlaneIdx) (pos : BlockPos) :
    (curBlock s p pos).length = 64 := readBlock_length _ _ _

@[simp] theorem readCoefs_length (s : State) (blk : Word) : (readCoefs s blk).length = 64 :=
  readWords_length _ _ _

@[simp] theorem idct8_length (M : Word → Word) (s0 s1 s2 s3 s4 s5 s6 s7 : Word) :
    (idct8 M s0 s1 s2 s3 s4 s5 s6 s7).length = 8 := rfl

@[simp] theorem idct_length (b : List Word) : (idct b).length = 64 := by
  simp [idct, idctRow, List.length_flatMap]

@[simp] theorem dequant_length (c q : List Word) : (dequant c q).length = 64 := by
  simp [dequant]

theorem addPixels_getD (px : List Byte) (ws : List Word) (k : Nat) (h1 : k < px.length)
    (h2 : k < ws.length) :
    (addPixels px ws).getD k 0#8 = px.getD k 0#8 + lowByte (wordAt ws k) := by
  simp [addPixels, wordAt, h1, h2]

end Sys2Proof.Laws
end

