-- ==== Sys2Proof/Laws/PerInstr.lean ====
section
/-!
SUPPORT. One lemma per constructor of `Instr`: a command's encoding is 4 × (1 + K) bytes long
(30_encoding.md R58).
-/

/-- The encoding of a command is as long as R58 says. -/
def Sys2Proof.Laws.EncodedLength.Statement (i : Sys2Proof.Instr) : Prop :=
  (Sys2Proof.encode i).length = i.length

open Sys2Proof

theorem Sys2Proof.Laws.EncodedLength.nop :
    Sys2Proof.Laws.EncodedLength.Statement .nop := rfl

theorem Sys2Proof.Laws.EncodedLength.endList :
    Sys2Proof.Laws.EncodedLength.Statement .endList := rfl

theorem Sys2Proof.Laws.EncodedLength.xfCfg (c : CtxIdx) (kind : XfKind) (type : BitVec 2) (bits : BitVec 8) :
    Sys2Proof.Laws.EncodedLength.Statement (.xfCfg c kind type bits) := rfl

theorem Sys2Proof.Laws.EncodedLength.xfPerm (c : CtxIdx) (addr : Word) :
    Sys2Proof.Laws.EncodedLength.Statement (.xfPerm c addr) := rfl

theorem Sys2Proof.Laws.EncodedLength.xfCalc (c : CtxIdx) (addr : Word) :
    Sys2Proof.Laws.EncodedLength.Statement (.xfCalc c addr) := rfl

theorem Sys2Proof.Laws.EncodedLength.audCfg (rate flags : Half) :
    Sys2Proof.Laws.EncodedLength.Statement (.audCfg rate flags) := rfl

theorem Sys2Proof.Laws.EncodedLength.audPkt (src avail dst cap : Word) :
    Sys2Proof.Laws.EncodedLength.Statement (.audPkt src avail dst cap) := rfl

theorem Sys2Proof.Laws.EncodedLength.mcSkip (p : PlaneIdx) (pos : BlockPos) :
    Sys2Proof.Laws.EncodedLength.Statement (.mcSkip p pos) := rfl

theorem Sys2Proof.Laws.EncodedLength.mcMotion (p : PlaneIdx) (dx dy : BitVec 8) (pos : BlockPos) :
    Sys2Proof.Laws.EncodedLength.Statement (.mcMotion p dx dy pos) := rfl

theorem Sys2Proof.Laws.EncodedLength.mcResidue (p : PlaneIdx) (dx dy : BitVec 8) (pos : BlockPos) (blk : Word) :
    Sys2Proof.Laws.EncodedLength.Statement (.mcResidue p dx dy pos blk) := rfl

theorem Sys2Proof.Laws.EncodedLength.mcIdctPut (p : PlaneIdx) (pos : BlockPos) (blk : Word) :
    Sys2Proof.Laws.EncodedLength.Statement (.mcIdctPut p pos blk) := rfl

theorem Sys2Proof.Laws.EncodedLength.mcIdctAdd (p : PlaneIdx) (pos : BlockPos) (blk : Word) :
    Sys2Proof.Laws.EncodedLength.Statement (.mcIdctAdd p pos blk) := rfl

theorem Sys2Proof.Laws.EncodedLength.mcIdct (blk : Word) :
    Sys2Proof.Laws.EncodedLength.Statement (.mcIdct blk) := rfl

theorem Sys2Proof.Laws.EncodedLength.mcDequant (blk qtab : Word) :
    Sys2Proof.Laws.EncodedLength.Statement (.mcDequant blk qtab) := rfl

theorem Sys2Proof.Laws.EncodedLength.mcSwap :
    Sys2Proof.Laws.EncodedLength.Statement .mcSwap := rfl
end

