-- ==== Sys2Proof/Tests/Slice0.lean ====
section
/-!
SUPPORT. Tests: the checks of WellFormed refuse an ill-formed term each, words written out from
30_encoding.md R60 and R64 decode, single steps give the values of the spec's worked examples
(95_test_vectors.md), and for each obligation with hypotheses a state and operands that meet them.
-/

set_option Elab.async false

namespace Sys2Proof.Tests

open Sys2Proof Sys2Proof.Machine Sys2Proof.Safety

/-! ### WellFormed refuses -/

/-- R60: NONE has type 0. -/
theorem test_ill_formed_none_type : (Instr.xfCfg 0 .none 1#2 0#8).wellFormed = false := by decide

/-- R60, V1.7: NONE has bits 0. -/
theorem test_ill_formed_none_bits : (Instr.xfCfg 0 .none 0#2 1#8).wellFormed = false := by decide

/-- R60: FFT has type 0 or 1. -/
theorem test_ill_formed_fft_type : (Instr.xfCfg 0 .fft 2#2 4#8).wellFormed = false := by decide

/-! ### Decoding words written out from the encoding tables -/

/-- Header bits FC FB FA OPC, R60: NOP is opcode 0x01. -/
theorem test_decode_nop :
    decodeTableWord 32 0b00000000_00000000_00000000_00000001 = some .nop := by decide +kernel

/-- R60: END is opcode 0x02. -/
theorem test_decode_end :
    decodeTableWord 32 0b00000000_00000000_00000000_00000010 = some .endList := by decide +kernel

/-- R59, R60: bits = FC = 10; FB: kind 2 in 5:4, type 3 in 1:0; c = FA = 2 (V2.4's DFT_C2R row). -/
theorem test_decode_xf_cfg :
    decodeTableWord 32 0b00001010_00100011_00000010_00010000 = some (.xfCfg 2 .rdft 3#2 10#8) := by
  decide +kernel

/-- P1: XF_PERM 1, 0x100 is 00000111 00000100. -/
theorem test_decode_xf_perm :
    decodeTableWord 64 0x00000100_00000111 = some (.xfPerm 1 0x100#32) := by decide +kernel

/-- P1: XF_CALC 1, 0x100 is 00000112 00000100. -/
theorem test_decode_xf_calc :
    decodeTableWord 64 0x00000100_00000112 = some (.xfCalc 1 0x100#32) := by decide +kernel

/-- V1.16: AUD_CFG 44100, 0x2000. -/
theorem test_decode_aud_cfg :
    decodeTableWord 64 0x2000AC44_00000020 = some (.audCfg 44100#16 0x2000#16) := by decide +kernel

/-- P2: AUD_PKT 0x1000, 80, 0x2000, 1920. -/
theorem test_decode_aud_pkt :
    decodeTableWord 160 0x00000780_00002000_00000050_00001000_00000021 =
      some (.audPkt 0x1000#32 80#32 0x2000#32 1920#32) := by decide +kernel

/-- P3: MC_SKIP Y, 1, 0 is 00000030 00000001. -/
theorem test_decode_mc_skip :
    decodeTableWord 64 0x00000001_00000030 = some (.mcSkip 0 ⟨1#16, 0#16⟩) := by decide +kernel

/-- P3: MC_MOTION Y, 0, 1, -1, 0 is 00FF0031 00010000. -/
theorem test_decode_mc_motion :
    decodeTableWord 64 0x00010000_00FF0031 = some (.mcMotion 0 0xFF#8 0#8 ⟨0#16, 1#16⟩) := by
  decide +kernel

/-- R60, R64: MC_RESIDUE 3, 2, 5, 4, -2, 0x1200 has header bits dy, dx, p, 0x32 and arguments pos, blk. -/
theorem test_decode_mc_residue :
    decodeTableWord 96 0x00001200_00050002_FE040332 =
      some (.mcResidue 3 4#8 0xFE#8 ⟨2#16, 5#16⟩ 0x1200#32) := by decide +kernel

/-- R60, R64: MC_IDCT_PUT 1, 2, 5, 0x1200. -/
theorem test_decode_mc_idct_put :
    decodeTableWord 96 0x00001200_00050002_00000133 =
      some (.mcIdctPut 1 ⟨2#16, 5#16⟩ 0x1200#32) := by decide +kernel

/-- P3: MC_IDCT_ADD Y, 1, 1, 0x1200 is 00000034 00010001 00001200. -/
theorem test_decode_mc_idct_add :
    decodeTableWord 96 0x00001200_00010001_00000034 =
      some (.mcIdctAdd 0 ⟨1#16, 1#16⟩ 0x1200#32) := by decide +kernel

/-- R64: MC_IDCT 0x1200. -/
theorem test_decode_mc_idct :
    decodeTableWord 64 0x00001200_00000035 = some (.mcIdct 0x1200#32) := by decide +kernel

/-- R64: MC_DEQUANT 0x1200, 0x1300. -/
theorem test_decode_mc_dequant :
    decodeTableWord 96 0x00001300_00001200_00000036 = some (.mcDequant 0x1200#32 0x1300#32) := by
  decide +kernel

/-- P3: MC_SWAP is 00000037. -/
theorem test_decode_mc_swap :
    decodeTableWord 32 0b00000000_00000000_00000000_00110111 = some .mcSwap := by decide +kernel

/-- V1.4 to V1.8: a reserved field, an index above 3, a reserved FB bit and an undefined opcode. -/
theorem test_decode_rejects :
    decode (bytesOfWords [0x00000101#32]) = .error .reservedField ∧
    decode (bytesOfWords [0x00000411#32]) = .error .badIndex ∧
    decode (bytesOfWords [0x04140010#32]) = .error .badXfCombination ∧
    decode (bytesOfWords [0x01000010#32]) = .error .badXfCombination ∧
    decode (bytesOfWords [0x00000038#32]) = .error .undefinedOpcode ∧
    decode (bytesOfWords [0x00000011#32]) = .error .truncated := by decide +kernel

/-! ### Small states -/

/-- A run under way at address 0, with the given words there and the given words at 0x100. -/
def running (code data : List Word) : State :=
  { State.reset with dmem := cellsAt 0 (bytesOfWords code) ++ cellsAt 0x100 (bytesOfWords data), busy := true }

/-- The state a step answers, or the one before it. -/
def after (s : State) (o : Out) : State :=
  match o with
  | .next t => t
  | _ => s

/-- P3's geometry, DMEM and registers: cur buffer 0x1000 (zeros), old buffer 0x1100 (byte k is k), one
coefficient block at 0x100. -/
def frame (blk : List Word) : State :=
  { State.reset with
    dmem := cellsAt 0x100 (bytesOfWords blk) ++ cellsAt 0x1000 (List.replicate 256 0#8) ++
      cellsAt 0x1100 ((List.range 256).map (BitVec.ofNat 8))
    busy := true
    pbase := (Vector.replicate 2 (Vector.replicate 4 0#32)).set 0
      ((Vector.replicate 4 0#32).set 0 0x1000#32) |>.set 1 ((Vector.replicate 4 0#32).set 0 0x1100#32)
    pw := (Vector.replicate 4 0#16).set 0 16#16
    ph := (Vector.replicate 4 0#16).set 0 16#16
    pitch := (Vector.replicate 4 0#16).set 0 16#16 }

/-- A block whose first word is `w` and whose others are 0. -/
def dcBlock (w : Word) : List Word := w :: List.replicate 63 0#32

/-- A context set. -/
def withContext (x : Context) (s : State) : State := { s with ctx := s.ctx.set 0 x }

/-- A configured track. -/
def withTrack (rate : Half) (codec : Codec) (stereo : Bool) (s : State) : State :=
  { s with track := configuredTrack rate codec stereo }

/-! ### Single steps -/

/-- R68's example: NOP at 0x100 leaves CMDPTR = 0x104. -/
theorem test_nop : (after .reset (exec .nop { State.reset with cmdptr := 0x100#32 })).cmdptr = 0x104#32 := by
  decide +kernel

/-- R69's example: END at 0x01C leaves BUSY 0, DONE 1, CMDPTR 0x020. -/
theorem test_end :
    let t := after .reset (exec .endList { State.reset with cmdptr := 0x1C#32, busy := true })
    t.busy = false ∧ t.done = true ∧ t.cmdptr = 0x020#32 := by decide +kernel

/-- V2.4: XF_CFG 2, RDFT, DFT_C2R, 10 makes XCTX[2] read 0x00000A32. -/
theorem test_xf_cfg :
    mmioValue (after .reset (exec (.xfCfg 2 .rdft 3#2 10#8) .reset)) 0x088 = 0x00000A32#32 := by
  decide +kernel

/-- P4f: XF_CFG 0, FFT, FWD, 17 raises XF_BITS (5) with 17. -/
theorem test_xf_cfg_range :
    let t := after .reset (exec (.xfCfg 0 .fft 0#2 17#8) (running [] []))
    t.errCode = 5#8 ∧ t.errInfo = 17#32 ∧ t.busy = false ∧ t.err = true := by decide +kernel

/-- P1, state 3: XF_PERM moves z[1] = 1 to z[8]; every other element stays 0. -/
theorem test_xf_perm :
    let s := withContext ⟨.fft, 0#2, 4#5⟩
      (running [] ([0#32, 0#32, 0x3F800000#32] ++ List.replicate 29 0#32))
    let t := after s (exec (.xfPerm 0 0x100#32) s)
    readWord t 0x140 = 0x3F800000#32 ∧ readWord t 0x108 = 0#32 := by decide +kernel

/-- V2.3: the forward FFT of a unit at index 1 has (0x3F6C835E, 0xBEC3EF15) at index 1. -/
theorem test_xf_calc_fft :
    let s := withContext ⟨.fft, 0#2, 4#5⟩
      (running [] (List.replicate 16 0#32 ++ [0x3F800000#32] ++ List.replicate 15 0#32))
    let t := after s (exec (.xfCalc 0 0x100#32) s)
    readWord t 0x108 = 0x3F6C835E#32 ∧ readWord t 0x10C = 0xBEC3EF15#32 := by decide +kernel

/-- V3.8: DCT_II of a unit at index 0 has 0x3F7FB10F at index 1 and 0x3D48FB30 at index 31. -/
theorem test_xf_calc_dct :
    let s := withContext ⟨.dct, 1#2, 5#5⟩ (running [] ([0x3F800000#32] ++ List.replicate 31 0#32))
    let t := after s (exec (.xfCalc 0 0x100#32) s)
    readWord t 0x104 = 0x3F7FB10F#32 ∧ readWord t 0x17C = 0x3D48FB30#32 := by decide +kernel

/-- E5: AUD_CFG 22050, 0 makes ACFG read 0x56220053, ABANDS 23, ABAND[22] 882. -/
theorem test_aud_cfg :
    let t := after .reset (exec (.audCfg 22050#16 0#16) .reset)
    mmioValue t 0x100 = 0x56220053#32 ∧ mmioValue t 0x110 = 23#32 ∧ mmioValue t 0x114 = 0x3D800000#32 ∧
      mmioValue t 0x1D8 = 882#32 := by decide +kernel

/-- V6.1: 44100, 0x2000 is interleaved stereo: CH 1, OUTCH 2, F 4096, BLOCKSIZE 3840. -/
theorem test_aud_cfg_interleaved :
    let t := (after .reset (exec (.audCfg 44100#16 0x2000#16) .reset)).track
    t.ch = 1#2 ∧ t.outCh = 2#2 ∧ t.frameLen = 4096#32 ∧ t.blockSize = 3840#32 ∧
      t.effRate = 88200#32 := by decide +kernel

/-- V6.3f: a 4-byte bitstream raises BIT_OVERRUN (10) with 29; ACFG then reads 0x56220057. -/
theorem test_aud_pkt_overrun :
    let s := withTrack 22050#16 .rdft false (running [] [8#32, 0#32, 0x00008017#32])
    let t := after s (exec (.audPkt 0x100#32 12#32 0x2000#32 960#32) s)
    t.errCode = 10#8 ∧ t.errInfo = 29#32 ∧ mmioValue t 0x100 = 0x56220057#32 ∧
      t.track.next = 0x10C#32 ∧ t.track.outCnt = 0#32 := by decide +kernel

/-- V6.5: L = 4 has no blocks; REPORTED is the word at src + 4. -/
theorem test_aud_pkt_no_blocks :
    let s := withTrack 22050#16 .rdft false (running [] [4#32, 3840#32])
    let t := after s (exec (.audPkt 0x100#32 8#32 0x2000#32 0#32) s)
    t.cmdptr = 20#32 ∧ t.track.reported = 3840#32 ∧ t.track.outCnt = 0#32 ∧ t.busy = true := by
  decide +kernel

/-- P3: MC_SKIP Y, 1, 0 copies old[8 + ...]: pixel (7, 7) of the block is 0x7F. -/
theorem test_mc_skip :
    let s := frame []
    let t := after s (exec (.mcSkip 0 ⟨1#16, 0#16⟩) s)
    readByte t 0x1008 = 0x08#8 ∧ readByte t 0x107F = 0x7F#8 ∧ readByte t 0x1007 = 0#8 := by decide +kernel

/-- P3: MC_MOTION Y, 0, 0, 3, 1 has o = 19: pixel (0, 0) is 0x13, pixel (7, 7) 0x8A. -/
theorem test_mc_motion :
    let s := frame []
    let t := after s (exec (.mcMotion 0 3#8 1#8 ⟨0#16, 0#16⟩) s)
    readByte t 0x1000 = 0x13#8 ∧ readByte t 0x1077 = 0x8A#8 ∧ readByte t 0x1008 = 0#8 := by decide +kernel

/-- P4b: MC_MOTION Y, 0, 0, 0, -1 has o = -16: MC_BOUNDS (14) with 0xFFFFFFF0. -/
theorem test_mc_motion_bounds :
    let s := frame []
    let t := after s (exec (.mcMotion 0 0#8 0xFF#8 ⟨0#16, 0#16⟩) s)
    t.errCode = 14#8 ∧ t.errInfo = 0xFFFFFFF0#32 ∧ t.cmdptr = 0#32 := by decide +kernel

/-- R104: the residue is added modulo 256: old[0] = 0 with residue -1 gives 0xFF, old[1] = 1 stays 1. -/
theorem test_mc_residue :
    let s := frame (dcBlock 0xFFFFFFFF#32)
    let t := after s (exec (.mcResidue 0 0#8 0#8 ⟨0#16, 0#16⟩ 0x100#32) s)
    readByte t 0x1000 = 0xFF#8 ∧ readByte t 0x1001 = 0x01#8 := by decide +kernel

/-- V5.13: MC_IDCT_PUT with b0 = -512 makes the block 0xFE. -/
theorem test_mc_idct_put :
    let s := frame (dcBlock (-512#32))
    let t := after s (exec (.mcIdctPut 0 ⟨1#16, 1#16⟩ 0x100#32) s)
    readByte t 0x1088 = 0xFE#8 ∧ readByte t 0x10FF = 0xFE#8 ∧ readByte t 0x1087 = 0#8 := by decide +kernel

/-- R108: MC_IDCT_ADD adds the IDCT of [512, 0, ...], 2 everywhere, to the current pixels. -/
theorem test_mc_idct_add :
    let s := { frame (dcBlock 512#32) with cur := 1 }
    let t := after s (exec (.mcIdctAdd 0 ⟨1#16, 1#16⟩ 0x100#32) s)
    readByte t 0x1188 = 0x8A#8 ∧ readByte t 0x11FF = 0x01#8 ∧ readByte t 0x1187 = 0x87#8 := by decide +kernel

/-- P4d: MC_IDCT_ADD with a misaligned blk raises ALIGN (4) with it. -/
theorem test_mc_idct_add_align :
    let s := frame (dcBlock 512#32)
    let t := after s (exec (.mcIdctAdd 0 ⟨1#16, 1#16⟩ 0x102#32) s)
    t.errCode = 4#8 ∧ t.errInfo = 0x102#32 := by decide +kernel

/-- V5.15: MC_IDCT with b0 = 512 leaves 64 words of 2. -/
theorem test_mc_idct :
    let s := frame (dcBlock 512#32)
    let t := after s (exec (.mcIdct 0x100#32) s)
    readWord t 0x100 = 2#32 ∧ readWord t 0x1FC = 2#32 := by decide +kernel

/-- V5.11: the IDCT of b9 = 1000; rows 0 and 6 are among the spec's eight. -/
theorem test_idct_rows :
    (idct (List.replicate 9 0#32 ++ [1000#32] ++ List.replicate 54 0#32)).take 8 =
      [4#32, 3#32, 2#32, 1#32, -1#32, -2#32, -3#32, -4#32] ∧
    ((idct (List.replicate 9 0#32 ++ [1000#32] ++ List.replicate 54 0#32)).drop 48).take 8 =
      [-3#32, -3#32, -2#32, -1#32, 1#32, 2#32, 3#32, 3#32] := by decide +kernel

/-- V5.18: MC_DEQUANT with q = 65536: DC 2047 gives 65504, AC -40000 gives 32767. -/
theorem test_mc_dequant :
    let s := running [] ([2047#32, 100#32, 40000#32, -40000#32] ++ List.replicate 60 0#32 ++
      List.replicate 64 65536#32)
    let t := after s (exec (.mcDequant 0x100#32 0x200#32) s)
    readWord t 0x100 = 65504#32 ∧ readWord t 0x104 = 3200#32 ∧ readWord t 0x108 = -32768#32 ∧
      readWord t 0x10C = 32767#32 := by decide +kernel

/-- V5.29: MC_SWAP with CUR = 0 makes it 1. -/
theorem test_mc_swap : mmioValue (after .reset (exec .mcSwap .reset)) 0x020 = 1#32 := by decide +kernel

/-- P4c: a zero header raises ILLEGAL (1) with the header word. -/
theorem test_illegal_header :
    let t := after .reset (step (running [0#32] []))
    t.errCode = 1#8 ∧ t.errInfo = 0#32 ∧ t.err = true ∧ t.busy = false := by decide +kernel

/-- V1.10: an XF_PERM header in the last word of DMEM raises FETCH (2) of its argument. -/
theorem test_fetch_argument :
    let s := { State.reset with
      dmem := cellsAt 0xFFFFFC (bytesOfWord 0x11#32), busy := true, cmdptr := 0xFFFFFC#32 }
    let t := after .reset (step s)
    t.errCode = 2#8 ∧ t.errInfo = 0x1000000#32 ∧ t.errPc = 0xFFFFFC#32 := by decide +kernel

/-- The host's question: a placed command runs as the first one after reset. -/
theorem test_with_fetch_word :
    (after .reset (step (State.reset.withFetchWord 32 0x00000002))).done = true := by decide +kernel

/-- R13: the correctly rounded sin(1e22) is -0.8522008497671888, a value published for testing argument
reduction; the correctly rounded square root of 2 is 0x3FF6A09E667F3BCD. -/
theorem test_library_functions :
    (SIN64 .default ⟨0x4480F0CF064DD592#64⟩).bits = 0xBFEB453AB76BF397#64 ∧
    (SQRT64 ⟨0x4000000000000000#64⟩).bits = 0x3FF6A09E667F3BCD#64 := by decide +kernel

/-! ### The hypotheses of the obligations are met -/

/-- A state with the largest DMEM address in reach: an AUD_PKT header whose last argument word does not fit. -/
def atEnd (words : List Word) (a : Nat) : State :=
  { State.reset with dmem := cellsAt a (bytesOfWords words), busy := true, cmdptr := BitVec.ofNat 32 a }

/-- A state whose next host move is `m`. -/
def withMove (m : HostMove) (s : State) : State := { s with host := [m] }

/-- What AUD_CFG builds is a configured track. -/
theorem trackOk_configured (rate : Half) (codec : Codec) (stereo : Bool) (h : rate ≠ 0#16) :
    TrackOk (configuredTrack rate codec stereo) := by
  refine .inr ⟨h, ⟨stereo, rfl⟩, fun i _ => ?_⟩
  by_cases hi : i < 256 <;> simp [prevAt, configuredTrack, hi]

theorem witness_DecodeOfEncode :
    (Instr.xfCfg 3 .fft 1#2 0xFF#8).wellFormed = true ∧ (Instr.xfCfg 0 .none 0#2 0#8).wellFormed = true ∧
    (Instr.mcResidue 3 0x80#8 0x7F#8 ⟨0xFFFF#16, 0#16⟩ 0xFFFFFFFF#32).wellFormed = true := by decide

theorem witness_DecodedBytesAreTheEncoding :
    decode (bytesOfWords [0x0A230210#32] ++ [7#8]) = .ok (.xfCfg 2 .rdft 3#2 10#8, [7#8]) := by
  decide +kernel

theorem witness_IllegalHeadersRaiseIllegal :
    let s := running [0#32] []
    (Running s ∧ s.cmdptr.toNat + 4 ≤ s.params.dmemSize ∧ IllegalHeader (readWord s s.cmdptr.toNat)) ∧
    (∃ t, step s = .next t ∧ t.err = true ∧ t.errCode = errorCode .illegal) ∧ s.err = false ∧
    IllegalHeader 0x00000101#32 ∧ IllegalHeader 0x00000430#32 ∧ IllegalHeader 0x00400010#32 ∧
    IllegalHeader 0x01000010#32 ∧ ¬ IllegalHeader 0x00000330#32 ∧ ¬ IllegalHeader 0xFF330310#32 := by
  unfold Running IllegalHeader
  refine ⟨by decide +kernel, ⟨takeError .illegal 0#32 (running [0#32] []), by rfl, by rfl, by rfl⟩, rfl, ?_, ?_,
    ?_, ?_, ?_, ?_⟩ <;> decide +kernel

theorem witness_StepRunsDecodedCommand :
    let s := running [1#32] []
    s.busy = true ∧ s.host = [] ∧ s.cmdptr.toNat + 4 ≤ s.params.dmemSize ∧
    decode (readBytes s s.cmdptr.toNat 4) = .ok (.nop, []) ∧
    decode (readBytes (withMove .wait s) (withMove .wait s).cmdptr.toNat 4) = .ok (.nop, []) ∧
    (withMove .wait s).host = .wait :: [] := by decide +kernel

theorem witness_FetchOutsideDmemRaises :
    (Running (atEnd [] 0x1000000) ∧ (atEnd [] 0x1000000).params.dmemSize = (atEnd [] 0x1000000).cmdptr.toNat) ∧
    (let s := atEnd [0x11#32] 0xFFFFFC
     Running s ∧ s.cmdptr.toNat + 4 = s.params.dmemSize ∧
      decodeHeader (readWord s s.cmdptr.toNat) = .ok (.xfPerm 0) ∧ 0 < (Header.xfPerm 0).argCount) ∧
    (let s := atEnd [0x21#32] 0xFFFFF0
     Running s ∧ decodeHeader (readWord s s.cmdptr.toNat) = .ok .audPkt ∧ 3 < Header.audPkt.argCount ∧
      s.cmdptr.toNat + 4 + 4 * 3 = s.params.dmemSize) := by
  unfold Running; decide +kernel

theorem witness_IdleSequencerChangesNothing : State.reset.host = [] ∧ State.reset.busy = false := by decide

theorem witness_EveryRunEnds :
    let s := running [2#32] []
    Running s ∧ s.params.Legal ∧ s.cmdptr.toNat % 4 = 0 ∧ s.done = false ∧ s.err = false := by
  unfold Running Params.Legal; decide +kernel

theorem witness_CommandCompletesOrRaisesOnce :
    (∃ t, exec .nop .reset = .next t ∧ t.err = false) ∧
    (∃ t, exec (.xfCalc 1 0x100#32) .reset = .next t ∧ t.err = true) ∧
    (∃ t, exec .endList .reset = .next t ∧ t.done = true) :=
  ⟨⟨_, rfl, by decide⟩, ⟨_, rfl, by decide⟩, ⟨_, rfl, by decide⟩⟩

theorem witness_ErrorsPrecedeWrites :
    let s := running [] []
    s.busy = true ∧ s.err = false ∧ ∃ t, exec (.xfCalc 1 0x100#32) s = .next t ∧ t.err = true ∧
      t.errCode ≠ errorCode .bitOverrun ∧ t.errCode ≠ errorCode .audOutOvf :=
  ⟨by decide, by decide, _, rfl, by decide, by decide, by decide⟩

/-- A running state that meets every invariant, with a context and a track configured. -/
def soundState : State := withTrack 22050#16 .dct true (withContext ⟨.rdft, 3#2, 16#5⟩ (running [1#32] [5#32]))

theorem witness_soundState : ∃ t, step soundState = .next t := ⟨_, rfl⟩

theorem witness_MemoryFormKept : MemoryOk soundState := by
  unfold MemoryOk Memory.wf Memory.within; decide +kernel

theorem witness_StatusFlagsStayExclusive : FlagsOk soundState := by unfold FlagsOk; decide +kernel

theorem witness_SequencerRegistersStayLegal :
    PointersOk soundState ∧ ErrorsOk soundState ∧
    (let t := takeError .illegal 0#32 (atEnd [] 0xFFFFFC)
     PointersOk t ∧ ErrorsOk t ∧ step t = .next t) := by
  refine ⟨?_, ?_, ?_, ?_, rfl⟩ <;> (try unfold PointersOk) <;> (try unfold ErrorsOk) <;> decide +kernel

theorem witness_ContextsStayLegal : ContextsOk soundState := by
  have h0 : context soundState 0 = ⟨.rdft, 3#2, 16#5⟩ := by decide +kernel
  have h : ∀ c : CtxIdx, c ≠ 0 → context soundState c = Context.off := by decide +kernel
  intro c
  by_cases hc : c = 0
  · rw [hc, h0]; exact ⟨by decide, by decide⟩
  · rw [h c hc]; exact ⟨rfl, rfl⟩

theorem witness_TrackStaysConfigured : TrackOk soundState.track ∧ TrackOk State.reset.track :=
  ⟨trackOk_configured _ _ _ (by decide), .inl rfl⟩

theorem witness_EachUnitWritesItsOwnState :
    (∃ t, exec .mcSwap .reset = .next t) ∧ (∀ kind type bits, Instr.mcSwap ≠ .xfCfg 0 kind type bits) ∧
    (∀ rate flags, Instr.mcSwap ≠ .audCfg rate flags) ∧
    (∀ src avail dst cap, Instr.mcSwap ≠ .audPkt src avail dst cap) ∧ Instr.nop ≠ .mcSwap :=
  ⟨⟨_, rfl⟩, by simp, by simp, by simp, by simp⟩

theorem witness_ResetState : ∃ ms, (withMove .reset soundState).host = .reset :: ms := ⟨_, rfl⟩

theorem witness_XfCfgConfiguresContext :
    (Instr.xfCfg 0 .fft 1#2 16#8).wellFormed = true ∧ (Instr.xfCfg 1 .rdft 3#2 5#8).wellFormed = true ∧
    (Instr.xfCfg 2 .dct 3#2 14#8).wellFormed = true ∧ (Instr.xfCfg 3 .none 0#2 0#8).wellFormed = true ∧
    (4 ≤ (16#8).toNat ∧ (16#8).toNat ≤ 16) ∧ (5 ≤ (5#8).toNat ∧ (5#8).toNat ≤ 16) ∧
    (5 ≤ (14#8).toNat ∧ (14#8).toNat ≤ 14) := by decide

theorem witness_XfErrorsInOrder :
    ((3#8).toNat < 4 ∧ 16 < (17#8).toNat ∧ (4#8).toNat < 5 ∧ 14 < (15#8).toNat) ∧
    (context .reset 0).kind = .none ∧
    (let s := withContext ⟨.fft, 0#2, 4#5⟩ .reset
     (context s 0).kind = .fft ∧ (0x102#32).toNat % 4 ≠ 0 ∧ (0xFFFF84#32).toNat % 4 = 0 ∧
      s.params.dmemSize < (0xFFFF84#32).toNat + 8 * 2 ^ (context s 0).bits.toNat) ∧
    (let s := withContext ⟨.dct, 0#2, 5#5⟩ .reset
     (context s 0).kind ≠ .none ∧ (0xFFFF80#32).toNat % 4 = 0 ∧
      s.params.dmemSize < (0xFFFF80#32).toNat + bufferBytes (context s 0)) := by decide +kernel

theorem witness_XfPermMovesElements :
    let s := withContext ⟨.fft, 1#2, 4#5⟩ .reset
    (context s 0).kind = .fft ∧ RegionOk s 0xFFFF80#32 (8 * 2 ^ (context s 0).bits.toNat) := by
  unfold RegionOk; decide +kernel

theorem witness_XfCalcStoresTransform :
    let s := withContext ⟨.dct, 0#2, 5#5⟩ .reset
    (context s 0).kind ≠ .none ∧ RegionOk s 0xFFFF7C#32 (bufferBytes (context s 0)) := by
  unfold RegionOk; decide +kernel

theorem witness_FftAndRdftFollowTheirProcedures :
    (Context.mk .fft 1#2 4#5).kind = .fft ∧
    (∀ x ∈ [Context.mk .rdft 0#2 5#5, ⟨.rdft, 1#2, 5#5⟩, ⟨.rdft, 2#2, 5#5⟩, ⟨.rdft, 3#2, 5#5⟩],
      x.kind = .rdft ∧ 5 ≤ x.bits.toNat ∧ x.bits.toNat ≤ 16 ∧
      (List.replicate 32 F32.zero).length = 2 ^ x.bits.toNat ∧ ∃ r ∈ rdftRows, x.type = r.code) ∧
    (16#5).toNat ≤ 16 := by decide

theorem witness_DctTypesFollowTheirProcedures :
    ∀ x ∈ [Context.mk .dct 0#2 5#5, ⟨.dct, 1#2, 5#5⟩, ⟨.dct, 2#2, 5#5⟩, ⟨.dct, 3#2, 5#5⟩],
      x.kind = .dct ∧ 5 ≤ x.bits.toNat ∧ x.bits.toNat ≤ 14 ∧
      (List.replicate 33 F32.zero).length = 2 ^ x.bits.toNat + 1 ∧
      (List.replicate 32 F32.zero).length = 2 ^ x.bits.toNat := by decide

theorem witness_FloatOperationsRoundOnce :
    (∃ x, f32Value ⟨0x3F800001#32⟩ = some x) ∧ ∃ y, f32Value ⟨0x80000001#32⟩ = some y :=
  ⟨Option.isSome_iff_exists.1 (by decide +kernel), Option.isSome_iff_exists.1 (by decide +kernel)⟩

/-- 2^24 + 1 lies half-way between 2^24 and 2^24 + 2, and is rounded to the even one, 0x4B800000. -/
theorem witness_RoundsToNearestEven :
    (rne32 (.fin false 16777217 0)).bits = 0x4B800000#32 ∧
    f32Value ⟨0x4B800000#32⟩ = some 16777216 ∧ f32Value ⟨0x4B800001#32⟩ = some 16777218 ∧
    |ratOf false 16777217 0 - 16777216| = |ratOf false 16777217 0 - 16777218| := by
  have h1 : f32Num ⟨0x4B800000#32⟩ = .fin false 8388608 1 := by decide +kernel
  have h2 : f32Num ⟨0x4B800001#32⟩ = .fin false 8388609 1 := by decide +kernel
  refine ⟨by decide +kernel, ?_, ?_, ?_⟩
  · norm_num [f32Value, h1, numValue, ratOf]
  · norm_num [f32Value, h2, numValue, ratOf]
  · norm_num [ratOf]

theorem witness_AudCfgBuildsTrack : (0#16 : Half) = 0#16 ∧ (0xFFFF#16 : Half) ≠ 0#16 ∧ (1#16 : Half) ≠ 0#16 := by
  decide

theorem witness_BandBoundaries : (1#16 : Half) ≠ 0#16 ∧ (0xFFFF#16 : Half) ≠ 0#16 := by decide

/-- A configured track and a packet of two words at 0x100. -/
def packetState (len : Word) : State := withTrack 1#16 .rdft false (running [] [len, 0#32])

theorem witness_AudPktChecksInOrder :
    State.reset.track.valid = false ∧ (packetState 5#32).track.valid = true ∧
    (packetState 5#32).track.fault = false ∧
    (let s := packetState 5#32
     s.params.dmemSize < (0x100#32).toNat + (0xFFFF01#32).toNat ∧
     (0x100#32).toNat + (0xFFFF00#32).toNat = s.params.dmemSize ∧
     s.params.dmemSize < (0xFFFFFE#32).toNat + 2 * (2#32).toNat ∧
     (0xFFFFFE#32).toNat + 2 * (1#32).toNat = s.params.dmemSize ∧ (3#32).toNat < 4 ∧
     (8#32).toNat < (readWord s 0x100).toNat + 4) := by decide +kernel

theorem witness_AudPktEmptyPacket :
    PacketOk (packetState 3#32) 0x100#32 7#32 0xFFFFFE#32 1#32 ∧
    (readWord (packetState 3#32) 0x100).toNat < 4 := by
  unfold PacketOk; decide +kernel

theorem witness_AudPktDecodesBlocksInOrder :
    PacketOk (packetState 4#32) 0x100#32 8#32 0xFFFFFE#32 1#32 ∧ TrackOk (packetState 4#32).track ∧
    4 ≤ (readWord (packetState 4#32) 0x100).toNat := by
  refine ⟨?_, trackOk_configured _ _ _ (by decide), ?_⟩
  · unfold PacketOk; decide +kernel
  · decide +kernel

/-- A packet of one block for a track of 512 coefficients and one band: two zero floats, the band value 0 and
one zero run of 512 coefficients (bits 66 to 74 are 1, 1111 and 0000): 75 bits. -/
def oneBlock : State :=
  withTrack 1#16 .rdft false (running [] [14#32, 0#32, 0#32, 0#32, 0x0000007C#32])

theorem witness_AudPktOneBlock :
    PacketOk oneBlock 0x100#32 18#32 0x2000#32 480#32 ∧ TrackOk oneBlock.track ∧
    4 < (readWord oneBlock 0x100).toNat ∧ oneBlock.track.blockSize.toNat ≤ (480#32).toNat ∧
    ∃ chans q, readBlockBits oneBlock.params oneBlock.track
        (packetBits 0x100#32 (readWord oneBlock 0x100) oneBlock) 0 = .ok (chans, q) ∧
      8 * ((readWord oneBlock 0x100).toNat - 4) ≤ alignPos q := by
  refine ⟨?_, trackOk_configured _ _ _ (by decide), by decide +kernel, by decide +kernel, ?_⟩
  · unfold PacketOk; decide +kernel
  · have h : (match readBlockBits oneBlock.params oneBlock.track
        (packetBits 0x100#32 (readWord oneBlock 0x100) oneBlock) 0 with
      | .ok (_, q) => decide (8 * ((readWord oneBlock 0x100).toNat - 4) ≤ alignPos q)
      | .error _ => false) = true := by decide +kernel
    cases hr : readBlockBits oneBlock.params oneBlock.track
        (packetBits 0x100#32 (readWord oneBlock 0x100) oneBlock) 0 with
    | error q => rw [hr] at h; cases h
    | ok r => rw [hr] at h; exact ⟨r.1, r.2, rfl, of_decide_eq_true h⟩

theorem witness_AudPktWritesOnlyItsOutput :
    ∃ t, exec (.audPkt 0x100#32 8#32 0x2000#32 0#32) .reset = .next t := ⟨_, rfl⟩

theorem witness_FaultedTrackStaysFaulted :
    (let s := withTrack 1#16 .rdft false (running [] [8#32, 0#32, 0#32])
     s.busy = true ∧ s.err = false ∧
      (let t := after s (exec (.audPkt 0x100#32 12#32 0x2000#32 479#32) s)
       t.err = true ∧ t.errCode = errorCode .audOutOvf) ∧
      (let t := after s (exec (.audPkt 0x100#32 12#32 0x2000#32 480#32) s)
       t.err = true ∧ t.errCode = errorCode .bitOverrun)) ∧
    (faultTrack .reset).track.fault = true ∧ ∀ rate flags, Instr.nop ≠ .audCfg rate flags := by
  refine ⟨by decide +kernel, rfl, by simp⟩

theorem witness_BitReaderReadsLsbFirst :
    let bs : List Byte := [0x55#8, 0xAA#8]
    7 + 9 ≤ 8 * bs.length ∧ 8 * bs.length < 8 + 9 ∧
    getBits (bitSourceOf bs) 9 7 = .ok (340, 16) ∧ bitSum bs 7 9 = 340 := by decide +kernel

theorem witness_GetFloatIsExact :
    let bs : List Byte := [0#8, 0#8, 0#8, 0#8]
    3 + 29 ≤ 8 * bs.length ∧ 8 * bs.length < 28 + 5 ∧ (5 + 5 ≤ 8 * bs.length ∧ 8 * bs.length < 5 + 28) ∧
    (4 + 28 ≤ 8 * bs.length ∧ 8 * bs.length < 4 + 29) := by decide

theorem witness_CoefficientsDecodeRunByRun :
    (configuredTrack 1#16 .dct false).codec = .dct ∧ (configuredTrack 1#16 .rdft false).codec = .rdft ∧
    (bitSourceOf [0#8]).size < 7 + Params.default.dctBlockSkipBits.toNat ∧
    6 + Params.default.dctBlockSkipBits.toNat ≤ (bitSourceOf [0#8]).size ∧
    (let bs : List Byte := [0x70#8]
     3 + 4 + 1 ≤ 8 * bs.length ∧ bitSum bs 3 4 ≠ 0 ∧ bitSum bs 0 4 = 0) ∧
    Params.default.zeroSignBit = .absent ∧
    { Params.default with zeroSignBit := .present }.zeroSignBit = .present ∧
    95 ≤ Params.default.quantValueMax.toNat ∧ Params.default.quantValueMax.toNat ≤ 95 := by decide +kernel

/-- A track with the bands 2 .. 407 and 408 .. 511, and a step for each coefficient's band. -/
theorem witness_CoefficientsDecodeRunByRun_bands :
    let t := configuredTrack 250#16 .rdft false
    TrackOk t ∧ t.valid = true ∧ ∃ stepAt : List Nat → Nat → F32,
      ∀ vs k i, k < t.nBands.toNat → bandAt t k ≤ i → i < bandAt t (k + 1) →
        stepAt vs i = quantStep Params.default t.root (vs.getD k 0) := by
  intro t
  have hn : t.nBands.toNat = 2 := by decide +kernel
  have h1 : bandAt t 1 = 408 := by decide +kernel
  refine ⟨trackOk_configured _ _ _ (by decide), rfl,
    fun vs i => quantStep Params.default t.root (vs.getD (if i < 408 then 0 else 1) 0), fun vs k i hk hl hr => ?_⟩
  obtain rfl | rfl : k = 0 ∨ k = 1 := by omega
  · rw [h1] at hr; simp [hr]
  · rw [h1] at hl; simp [Nat.not_lt.2 hl]

theorem witness_PcmRoundsAndClamps :
    (∃ q, f32Value ⟨0xBFC00000#32⟩ = some q) ∧ f32Num ⟨0x7F800000#32⟩ = .inf false ∧
    f32Num ⟨0xFF800000#32⟩ = .inf true ∧ f32Num ⟨0x7FC00001#32⟩ = .nan ∧
    pcm .halfUp 0 ⟨0xBFC00000#32⟩ = -1#16 ∧ pcm .halfEven 0 ⟨0xBFC00000#32⟩ = -2#16 :=
  ⟨Option.isSome_iff_exists.1 (by decide +kernel), by decide +kernel, by decide +kernel, by decide +kernel,
    by decide +kernel, by decide +kernel⟩

theorem witness_OverlapAddCrossfades :
    (32 ≤ 2 ^ 5 ∧ crossfade 0x8000#16 0x7FFF#16 32 32 = 0x7FFF#16 ∧
      crossfade 0x8000#16 0x7FFF#16 32 0 = 0x8000#16) ∧
    (configuredTrack 1#16 .rdft false).first = true ∧
    { configuredTrack 1#16 .rdft false with first := false }.first = false ∧
    (31 < (#[] ++ Array.replicate 33 (1#16 : Half)).size) := by decide +kernel

theorem witness_blocks :
    let s := frame []
    PlaneOk s 0 ∧ PosOk s 0 ⟨1#16, 1#16⟩ ∧ RefOk s 0 ⟨1#16, 1#16⟩ 0#8 0#8 ∧
    refOffset s 0 ⟨1#16, 1#16⟩ 0#8 0#8 = refOffsetMax s 0 ∧ RefOk s 0 ⟨0#16, 1#16⟩ 0#8 0xF8#8 ∧
    refOffset s 0 ⟨0#16, 1#16⟩ 0#8 0xF8#8 = 0 ∧ RegionOk s 0xFFFF00#32 256 ∧ RegionOk s 0#32 256 ∧
    s.params.dmemSize ≤ 2 ^ 31 := by
  unfold PlaneOk PosOk RefOk RegionOk; decide +kernel

theorem witness_McErrorsInOrder :
    let s := frame []
    ¬ PlaneOk s 1 ∧ ¬ PosOk s 0 ⟨2#16, 0#16⟩ ∧ ¬ PosOk s 0 ⟨0#16, 2#16⟩ ∧
    ¬ RefOk s 0 ⟨1#16, 1#16⟩ 1#8 0#8 ∧ ¬ RefOk s 0 ⟨0#16, 0#16⟩ 0xFF#8 0#8 ∧
    (0x102#32).toNat % 4 ≠ 0 ∧ (0xFFFF04#32).toNat % 4 = 0 ∧
    s.params.dmemSize < (0xFFFF04#32).toNat + 256 := by
  unfold PlaneOk PosOk RefOk; decide +kernel

theorem witness_IdctOfSparseBlocks :
    (∀ k, 1 ≤ k → k < 8 → wordAt (dcBlock 512#32) (7 + 8 * k) = 0#32) ∧
    ∀ j, 1 ≤ j → j < 64 → wordAt (dcBlock 512#32) j = 0#32 := by
  constructor
  · intro k h1 h2; interval_cases k <;> rfl
  · intro j h1 h2; interval_cases j <;> rfl

theorem witness_HostStartsRun :
    let m := HostMove.mmioWrite .word 0x008#12 3#32
    (withMove m .reset).host = m :: [] ∧ (3#32).getLsbD 0 = true ∧ (withMove m .reset).busy = false ∧
    (2#32).getLsbD 0 = false ∧ (withMove m (running [] [])).busy = true := by decide

theorem witness_StatusAndInterrupt :
    let m := HostMove.mmioWrite .word 0x00C#12 6#32
    (withMove m .reset).host = m :: [] := rfl

theorem witness_HostRegisterAccess :
    (withMove (.mmioRead .half 0x00C#12) .reset).host = .mmioRead .half 0x00C#12 :: [] ∧
    (withMove (.mmioWrite .word 0x010#12 8#32) (running [] [])).host = .mmioWrite .word 0x010#12 8#32 :: [] ∧
    (running [] []).busy = true ∧ (running [] []).done = false ∧ (running [] []).err = false ∧
    (0x00C#12).toNat % 4 = 0 ∧ (0x00D#12).toNat % 4 ≠ 0 ∧ (0x03C#12).toNat < 0x040 ∧
    0x080 ≤ (0x080#12).toNat ∧ 0x028 ≤ (0x028#12).toNat ∧ 0x090 ≤ (0x0FC#12).toNat ∧
    (0x0FC#12).toNat < 0x100 ∧ 0x400 ≤ (0xFFC#12).toNat := by decide

theorem witness_PlaneRegistersReadBack :
    (withMove (.mmioWrite .word 0x07C#12 5#32) .reset).busy = false ∧
    (withMove (.mmioWrite .word 0x07C#12 5#32) .reset).host = .mmioWrite .word 0x07C#12 5#32 :: [] ∧
    (0x010#12).toNat = 0x010 ∧ (0x020#12).toNat = 0x020 ∧
    (0x05C#12).toNat = 0x040 + 16 * (1 : Fin 2).val + 4 * (3 : PlaneIdx).val ∧
    (0x040#12).toNat = 0x040 + 16 * (0 : Fin 2).val + 4 * (0 : PlaneIdx).val ∧
    (0x06C#12).toNat = 0x060 + 4 * (3 : PlaneIdx).val ∧ (0x07C#12).toNat = 0x070 + 4 * (3 : PlaneIdx).val := by
  decide

theorem witness_HostDmemAccess :
    (withMove (.dmemWrite 0xFFFFFF#32 9#8) .reset).host = .dmemWrite 0xFFFFFF#32 9#8 :: [] ∧
    (withMove (.dmemRead 0xFFFFFF#32) .reset).host = .dmemRead 0xFFFFFF#32 :: [] ∧
    State.reset.busy = false ∧ (0xFFFFFF#32).toNat + 1 = State.reset.params.dmemSize ∧
    (running [] []).busy = true := by decide

end Sys2Proof.Tests
end

section
/-!
The memory and the whole-buffer commands of 00_scope.md: a stored word (R12, R44), XF_CALC's float buffer
(R75) and MC_DEQUANT's coefficient block (R110).
-/

namespace Sys2Proof.BufferLaws

open Sys2Proof Sys2Proof.Machine Sys2Proof.Safety Sys2Proof.Laws

/-! ### Regions written with words -/

theorem sameOutside_store (s : State) (a : Nat) (bs : List Byte) :
    SameOutside (InRegion a bs.length) s (store s a bs) := by
  intro x hx
  simp only [InRegion, not_and_or, not_le, not_lt] at hx
  exact readByte_store_outside s a bs x hx

theorem sameOutside_store_words (s : State) (a : Nat) (ws : List Word) (len : Nat) (h : 4 * ws.length = len) :
    SameOutside (InRegion a len) s (store s a (bytesOfWords ws)) := by
  subst h
  simpa using sameOutside_store s a (bytesOfWords ws)

theorem wordAt_readCoefs (s : State) (blk : Word) (k : Nat) (h : k < 64) :
    wordAt (readCoefs s blk) k = readWord s (blk.toNat + 4 * k) :=
  readWords_getD s blk.toNat 64 k h 0#32

theorem readWord_store_word (s : State) (a : Nat) (w : Word) :
    readWord (store s a (bytesOfWord w)) a = w := by
  simpa [bytesOfWords] using readWord_store_words s a [w] 0 (by simp)

/-- Byte k of a stored word lies at a + k (R12). -/
theorem readByte_store_word (s : State) (a : Nat) (w : Word) (k : Nat) (h : k < 4) :
    readByte (store s a (bytesOfWord w)) (a + k) = (bytesOfWord w).getD k 0#8 :=
  readByte_store_inside s a (bytesOfWord w) k h

/-- The two upper bytes of a word make up its upper half. -/
theorem append_upper_bytes (w : Word) :
    w.extractLsb' 24 8 ++ w.extractLsb' 16 8 = w.extractLsb' 16 16 := by
  apply BitVec.eq_of_getLsbD_eq
  intro i hi
  rw [BitVec.getLsbD_append]
  simp only [BitVec.getLsbD_extractLsb']
  by_cases h : i < 8
  · simp [h, hi]
  · have h8 : i - 8 < 8 := by omega
    simp [h, hi, h8, show 24 + (i - 8) = 16 + i by omega]

/-! ### Dequantization -/

/-- The arithmetic shift is a floor division of the wrapped product (R9, R110). -/
theorem dequantProduct_toInt (c q : Word) : (dequantProduct c q).toInt = (c * q).toInt / 2048 := by
  rw [dequantProduct, BitVec.toInt_sshiftRight, Int.shiftRight_eq_div_pow]
  rfl

theorem dequantEntry_zero_toInt (c q : Word) : (dequantEntry 0 c q).toInt = (c * q).toInt / 2048 :=
  dequantProduct_toInt c q

/-- An AC entry is the product clamped to int16: the clamp is in the range of a word. -/
theorem dequantEntry_ac_toInt (k : Nat) (hk : k ≠ 0) (c q : Word) :
    (dequantEntry k c q).toInt = min (max ((c * q).toInt / 2048) (-32768)) 32767 := by
  rw [dequantEntry, if_neg hk, dequantProduct_toInt, clamp, BitVec.toInt_ofInt_eq_self (by decide)]
  · omega
  · omega

theorem dequant_getD (c q : List Word) (k : Nat) (hk : k < 64) :
    (dequant c q).getD k 0#32 = dequantEntry k (wordAt c k) (wordAt q k) := by
  simp [dequant, hk]

/-! ### The two commands where their checks pass -/

theorem exec_xfCalc_pass (c : CtxIdx) (addr : Word) (s : State) (hk : (context s c).kind ≠ .none)
    (h : RegionOk s addr (bufferBytes (context s c))) :
    exec (.xfCalc c addr) s = complete 1 (storeFloats s addr.toNat (calculated s.params (context s c)
      (readFloats s addr.toNat (bufferElems (context s c))))) := by
  obtain ⟨halign, hfits⟩ := h
  change execXfCalc c addr s = _
  rw [execXfCalc, check_of_true (by simpa using hk), checkRegion_pass _ halign hfits]

theorem exec_mcDequant_pass (blk qtab : Word) (s : State) (hb : RegionOk s blk 256)
    (hq : RegionOk s qtab 256) :
    exec (.mcDequant blk qtab) s =
      complete 2 (putCoefs blk (dequant (readCoefs s blk) (readCoefs s qtab)) s) := by
  obtain ⟨hbAlign, hbFits⟩ := hb
  obtain ⟨hqAlign, hqFits⟩ := hq
  change execMcDequant blk qtab s = _
  rw [execMcDequant, checkCoefs, checkCoefs, checkRegion_pass _ hbAlign hbFits,
    checkRegion_pass _ hqAlign hqFits]

/-- What `storeFloats` leaves: the image of float k in word k of the buffer, and no other byte changed. -/
theorem storeFloats_spec (s : State) (a : Nat) (fs : List F32) :
    (∀ k, k < fs.length → readWord (storeFloats s a fs) (a + 4 * k) =
      floatImage (s.draws + k) (fs.getD k F32.zero)) ∧
    SameOutside (InRegion a (4 * fs.length)) s (storeFloats s a fs) := by
  constructor
  · intro k hk
    have hword := readWord_store_words s a (floatImages s.draws fs) k (by simpa using hk)
    rwa [floatImages_getD _ _ _ hk] at hword
  · exact sameOutside_store_words s a (floatImages s.draws fs) _ (by simp)

/-! ### The obligations -/

/-- Settles O60: the four bytes of the word lie at a .. a+3 in ascending significance. -/
theorem memoryIsLittleEndian : Obligations.MemoryIsLittleEndian := by
  intro s a w t
  have hbyte := readByte_store_word s a w
  refine ⟨readWord_store_word s a w, hbyte 0 (by decide), hbyte 3 (by decide), ?_,
    sameOutside_store s a (bytesOfWord w)⟩
  have hlow : readByte t (a + 2) = w.extractLsb' 16 8 := hbyte 2 (by decide)
  have hhigh : readByte t (a + 3) = w.extractLsb' 24 8 := hbyte 3 (by decide)
  rw [readHalf, hlow, hhigh, append_upper_bytes]

/-- Settles O50: word k of the block is entry k of the dequantized block, computed from the start state. -/
theorem mcDequantScalesBlock : Obligations.McDequantScalesBlock := by
  intro blk qtab s hb hq
  refine ⟨_, exec_mcDequant_pass blk qtab s hb hq, rfl, fun k hk => ?_,
    sameOutside_store_words s blk.toNat _ 256 (by simp)⟩
  have hword := readWord_store_words s blk.toNat (dequant (readCoefs s blk) (readCoefs s qtab)) k (by simpa)
  rw [dequant_getD _ _ _ hk, wordAt_readCoefs _ _ _ hk, wordAt_readCoefs _ _ _ hk] at hword
  refine (congrArg BitVec.toInt hword).trans ?_
  by_cases h0 : k = 0
  · subst h0
    exact dequantEntry_zero_toInt _ _
  · rw [if_neg h0]
    exact dequantEntry_ac_toInt k h0 _ _

/-- Settles O25: XF_CALC writes back as many floats as its buffer holds, so `storeFloats` covers the buffer
and nothing else. -/
theorem xfCalcStoresTransform : Obligations.XfCalcStoresTransform := by
  intro c addr s hk hr
  have hlen := calculated_length s.params (context s c)
    (readFloats s addr.toNat (bufferElems (context s c))) (readFloats_length _ _ _)
  rw [readFloats_length] at hlen
  obtain ⟨himage, houtside⟩ := storeFloats_spec s addr.toNat (calculated s.params (context s c)
    (readFloats s addr.toNat (bufferElems (context s c))))
  rw [hlen] at himage houtside
  exact ⟨_, exec_xfCalc_pass c addr s hk hr, rfl, hlen, himage, houtside⟩

end Sys2Proof.BufferLaws
end

section
/-!
Binary32 arithmetic of 00_scope.md R10 and R11: what datum a word stands for, the exact sum and product, and
that `rne32` rounds to the nearest binary32, ties to even.

The sign and the magnitude of a word are kept apart. Its lower 31 bits, the magnitude code, rise with the
magnitude, so that a carry out of the fraction is the step to the next exponent, up to the infinity.
-/

namespace Sys2Proof.Rounding

open Sys2Proof Sys2Proof.Machine Sys2Proof.Safety

/-! ### The datum of a binary32 word -/

/-- The datum of a magnitude code, the 31 bits below the sign: exponent field and fraction (R11). -/
def codeNum (neg : Bool) (c : Nat) : FNum :=
  if c / 2 ^ 23 = 255 then (if c % 2 ^ 23 = 0 then .inf neg else .nan)
  else if c / 2 ^ 23 = 0 then .fin neg (c % 2 ^ 23) (-149)
  else .fin neg (2 ^ 23 + c % 2 ^ 23) ((c / 2 ^ 23 : Nat) - 150)

/-- The magnitude code of a binary32. -/
def magnitudeCode (x : F32) : Nat := x.bits.toNat % 2 ^ 31

theorem f32Num_eq_codeNum (x : F32) : f32Num x = codeNum (x.bits.getLsbD 31) (magnitudeCode x) := by
  have hdiv : magnitudeCode x / 2 ^ 23 = x.bits.toNat / 2 ^ 23 % 2 ^ 8 := by
    unfold magnitudeCode; omega
  have hmod : magnitudeCode x % 2 ^ 23 = x.bits.toNat % 2 ^ 23 := by
    unfold magnitudeCode; omega
  have hexp : ∀ n : Nat, (n : Int) - 1 + lsbExp 8 23 = n - 150 := fun n => by
    have : lsbExp 8 23 = -149 := rfl
    omega
  simp only [codeNum, hdiv, hmod, f32Num, unpackNat, hexp]
  rfl

/-- The binary32 of a sign and a magnitude code. -/
def ofCode (neg : Bool) (c : Nat) : F32 := ⟨BitVec.ofNat 32 ((if neg then 2 ^ 31 else 0) + c)⟩

theorem sign_ofCode (neg : Bool) (c : Nat) (h : c < 2 ^ 31) : (ofCode neg c).bits.getLsbD 31 = neg := by
  have hc : c.testBit 31 = false := Nat.testBit_lt_two_pow h
  rw [ofCode, BitVec.getLsbD_ofNat]
  cases neg
  · simp [hc]
  · rw [if_pos rfl, Nat.testBit_two_pow_add_eq, hc]
    rfl

theorem magnitudeCode_ofCode (neg : Bool) (c : Nat) (h : c < 2 ^ 31) :
    magnitudeCode (ofCode neg c) = c := by
  rw [magnitudeCode, ofCode, BitVec.toNat_ofNat]
  cases neg
  · rw [if_neg Bool.false_ne_true]; omega
  · rw [if_pos rfl]; omega

theorem f32Num_ofCode (neg : Bool) (c : Nat) (h : c < 2 ^ 31) : f32Num (ofCode neg c) = codeNum neg c := by
  rw [f32Num_eq_codeNum, sign_ofCode neg c h, magnitudeCode_ofCode neg c h]

theorem lastBit_ofCode (neg : Bool) (c : Nat) : (ofCode neg c).bits.getLsbD 0 = decide (c % 2 = 1) := by
  rw [ofCode, BitVec.getLsbD_ofNat, Nat.testBit_zero]
  cases neg
  · rw [if_neg Bool.false_ne_true, Nat.zero_add]; rfl
  · rw [if_pos rfl, Nat.add_mod]; simp

theorem sign_fneg (a : F32) : (fneg a).bits.getLsbD 31 = !a.bits.getLsbD 31 := by
  have h : (0x80000000#32).getLsbD 31 = true := by decide
  rw [fneg, BitVec.getLsbD_xor, h, Bool.xor_true]

theorem magnitudeCode_fneg (a : F32) : magnitudeCode (fneg a) = magnitudeCode a := by
  rw [magnitudeCode, fneg, BitVec.toNat_xor, Nat.xor_mod_two_pow]
  exact Nat.xor_zero _

theorem codeNum_not (neg : Bool) (c : Nat) : codeNum (!neg) c = (codeNum neg c).neg := by
  unfold codeNum
  split
  · split <;> rfl
  · split <;> rfl

theorem f32Num_fneg (a : F32) : f32Num (fneg a) = (f32Num a).neg := by
  rw [f32Num_eq_codeNum, sign_fneg, magnitudeCode_fneg, codeNum_not, ← f32Num_eq_codeNum]

/-! ### Exact sums, differences and products -/

theorem ratOf_eq_signedInt (neg : Bool) (m : Nat) (e : Int) :
    ratOf neg m e = signedInt neg m * (2 : ℚ) ^ e := by
  cases neg <;> simp [ratOf, signedInt]

theorem signedInt_natAbs (v : Int) : signedInt (decide (v < 0)) v.natAbs = v := by
  unfold signedInt
  split
  · rename_i h; simp at h; omega
  · rename_i h; simp at h; omega

/-- Moving bits from the exponent into the mantissa keeps the value. -/
theorem signedInt_shiftLeft (neg : Bool) (m : Nat) (e d : Int) (h : d ≤ e) :
    (signedInt neg (m <<< (e - d).toNat) : ℚ) * (2 : ℚ) ^ d = ratOf neg m e := by
  have hpow : (2 : ℚ) ^ e = (2 : ℚ) ^ (e - d).toNat * (2 : ℚ) ^ d := by
    rw [← zpow_natCast, ← zpow_add₀ two_ne_zero]; congr 1; omega
  rw [ratOf_eq_signedInt, hpow, Nat.shiftLeft_eq]
  cases neg <;> simp [signedInt] <;> ring

theorem add_fin_value (n1 n2 : Bool) (m1 m2 : Nat) (e1 e2 : Int) :
    ∃ neg m e, (FNum.fin n1 m1 e1).add (.fin n2 m2 e2) = .fin neg m e ∧
      ratOf neg m e = ratOf n1 m1 e1 + ratOf n2 m2 e2 := by
  have hsum : ((signedInt n1 (m1 <<< (e1 - min e1 e2).toNat) + signedInt n2 (m2 <<< (e2 - min e1 e2).toNat) :
      Int) : ℚ) * (2 : ℚ) ^ min e1 e2 = ratOf n1 m1 e1 + ratOf n2 m2 e2 := by
    rw [Int.cast_add, add_mul, signedInt_shiftLeft _ _ _ _ (min_le_left _ _),
      signedInt_shiftLeft _ _ _ _ (min_le_right _ _)]
  simp only [FNum.add]
  split
  · rename_i h0
    exact ⟨_, _, _, rfl, by rw [← hsum, h0]; simp [ratOf]⟩
  · exact ⟨_, _, _, rfl, by rw [ratOf_eq_signedInt, signedInt_natAbs, hsum]⟩

theorem mul_fin_value (n1 n2 : Bool) (m1 m2 : Nat) (e1 e2 : Int) :
    ratOf (n1 ^^ n2) (m1 * m2) (e1 + e2) = ratOf n1 m1 e1 * ratOf n2 m2 e2 := by
  have hpow : (2 : ℚ) ^ (e1 + e2) = 2 ^ e1 * 2 ^ e2 := zpow_add₀ two_ne_zero _ _
  cases n1 <;> cases n2 <;> simp [ratOf, hpow] <;> ring

theorem ratOf_not (neg : Bool) (m : Nat) (e : Int) : ratOf (!neg) m e = -ratOf neg m e := by
  cases neg <;> simp [ratOf]

/-- A binary32 with a value has a finite datum. -/
theorem f32Value_eq_some {x : F32} {v : ℚ} (h : f32Value x = some v) :
    ∃ neg m e, f32Num x = .fin neg m e ∧ ratOf neg m e = v := by
  unfold f32Value at h
  cases hx : f32Num x with
  | nan => rw [hx] at h; cases h
  | inf neg => rw [hx] at h; cases h
  | fin neg m e => rw [hx] at h; exact ⟨neg, m, e, rfl, Option.some.inj h⟩

/-! ### Rounding to an integer -/

/-- `r` is `y` rounded to the nearest integer, ties to even. -/
def IsNearestEven (y : ℚ) (r : Nat) : Prop := |y - r| ≤ 1 / 2 ∧ (|y - r| = 1 / 2 → r % 2 = 0)

theorem isNearestEven_natCast (n : Nat) : IsNearestEven n n := by
  simp [IsNearestEven]

theorem isNearestEven_below_half (n : Nat) {f : ℚ} (h0 : 0 ≤ f) (h : f < 1 / 2) : IsNearestEven (n + f) n := by
  rw [IsNearestEven, add_sub_cancel_left, abs_of_nonneg h0]
  exact ⟨h.le, fun he => absurd he h.ne⟩

theorem isNearestEven_above_half (n : Nat) {f : ℚ} (h : 1 / 2 < f) (h1 : f ≤ 1) :
    IsNearestEven (n + f) (n + 1) := by
  have habs : |(n : ℚ) + f - (n + 1 : Nat)| < 1 / 2 := by
    rw [abs_lt]; push_cast
    constructor <;> linarith
  exact ⟨habs.le, fun he => absurd he habs.ne⟩

theorem isNearestEven_half (n : Nat) : IsNearestEven (n + 1 / 2) (n + n % 2) := by
  refine ⟨?_, fun _ => by omega⟩
  rcases Nat.mod_two_eq_zero_or_one n with h | h
  · rw [h]; norm_num
  · rw [h]; push_cast; norm_num

/-- The three branches of `rneShift`: the fraction m / 2^k - ⌊m / 2^k⌋ against 1/2. -/
theorem isNearestEven_rneShift (m k : Nat) : IsNearestEven ((m : ℚ) / 2 ^ k) (rneShift m k) := by
  have hpos : (0 : ℚ) < (2 ^ k : Nat) := by positivity
  have hdiv : (m : ℚ) / 2 ^ k = (m / 2 ^ k : Nat) + ((m % 2 ^ k : Nat) : ℚ) / (2 ^ k : Nat) := by
    have hd : (2 : ℚ) ^ k = (2 ^ k : Nat) := by push_cast; rfl
    have h : (m : ℚ) = (m / 2 ^ k : Nat) * (2 ^ k : Nat) + (m % 2 ^ k : Nat) := by
      exact_mod_cast (Nat.div_add_mod' m (2 ^ k)).symm
    rw [hd, div_eq_iff hpos.ne', add_mul, div_mul_cancel₀ _ hpos.ne', ← h]
  have hlt : ((m % 2 ^ k : Nat) : ℚ) < (2 ^ k : Nat) := by
    exact_mod_cast Nat.mod_lt m (Nat.two_pow_pos k)
  rw [hdiv, rneShift]
  generalize 2 ^ k = d at *
  generalize m % d = t at *
  rcases Nat.lt_trichotomy (2 * t) d with h | h | h
  · rw [if_pos h]
    refine isNearestEven_below_half _ (by positivity) ?_
    rw [div_lt_div_iff₀ hpos two_pos]
    exact_mod_cast (by omega : t * 2 < 1 * d)
  · have hfrac : (t : ℚ) / d = 1 / 2 := by
      rw [div_eq_div_iff hpos.ne' two_ne_zero]
      exact_mod_cast (by omega : t * 2 = 1 * d)
    rw [if_neg (by omega), if_neg (by omega), hfrac]
    exact isNearestEven_half _
  · rw [if_neg (by omega), if_pos h]
    refine isNearestEven_above_half _ ?_ ((div_lt_one hpos).2 hlt).le
    rw [div_lt_div_iff₀ two_pos hpos]
    exact_mod_cast (by omega : 1 * d < t * 2)

theorem IsNearestEven.bounds {y : ℚ} {r : Nat} (h : IsNearestEven y r) :
    (r : ℚ) ≤ y + 1 / 2 ∧ y ≤ r + 1 / 2 := by
  obtain ⟨habs, -⟩ := h
  obtain ⟨hlow, hhigh⟩ := abs_le.1 habs
  constructor <;> linarith

/-- No integer is nearer, and an equally near one shows a tie, which went to the even result. -/
theorem IsNearestEven.le_of_int {y : ℚ} {r : Nat} (h : IsNearestEven y r) (k : Int) :
    |y - r| ≤ |y - k| ∧ ((k : ℚ) ≠ r → |y - r| = |y - k| → r % 2 = 0) := by
  obtain ⟨hhalf, htie⟩ := h
  by_cases hk : k = r
  · subst hk; simp
  · have hone : (1 : ℚ) ≤ |(k : ℚ) - r| := by
      have : (1 : Int) ≤ |k - r| := Int.one_le_abs (sub_ne_zero.2 hk)
      exact_mod_cast this
    have htri : |(k : ℚ) - r| ≤ |y - k| + |y - r| := by
      rw [abs_sub_comm y k]; exact abs_sub_le _ _ _
    exact ⟨by linarith, fun _ heq => htie (by linarith)⟩

/-- The same for a number below 2^23, where `y` is not: the integer 2^23 lies between. -/
theorem IsNearestEven.lt_of_small {y w : ℚ} {r : Nat} (h : IsNearestEven y r) (hy : 2 ^ 23 ≤ y)
    (hw : w < 2 ^ 23) : |y - r| < |y - w| := by
  have hmid := (h.le_of_int (2 ^ 23)).1
  rw [Int.cast_pow, Int.cast_ofNat, abs_of_nonneg (sub_nonneg.2 hy)] at hmid
  rw [abs_of_pos (a := y - w) (by linarith)]
  linarith

theorem IsNearestEven.le_two_pow {y : ℚ} {r : Nat} (h : IsNearestEven y r) (hy : y < 2 ^ 24) :
    r ≤ 2 ^ 24 := by
  obtain ⟨hr, -⟩ := h.bounds
  have hlt : (r : ℚ) < (2 ^ 24 + 1 : Nat) := by push_cast; linarith
  exact Nat.lt_succ_iff.1 (by exact_mod_cast hlt)

theorem IsNearestEven.two_pow_le {y : ℚ} {r : Nat} (h : IsNearestEven y r) (hy : 2 ^ 23 ≤ y) :
    2 ^ 23 ≤ r := by
  obtain ⟨-, hr⟩ := h.bounds
  have hlt : ((2 ^ 23 : Nat) : ℚ) < (r + 1 : Nat) := by push_cast; linarith
  exact Nat.lt_succ_iff.1 (by exact_mod_cast hlt)

/-- The tie below 2^24 goes up, as 2^24 - 1 is odd. -/
theorem IsNearestEven.two_pow_le_iff {y : ℚ} {r : Nat} (h : IsNearestEven y r) :
    2 ^ 24 ≤ r ↔ (2 : ℚ) ^ 24 - 1 / 2 ≤ y := by
  obtain ⟨hlow, hhigh⟩ := h.bounds
  obtain ⟨-, htie⟩ := h
  constructor
  · intro hr
    have hr' : ((2 ^ 24 : Nat) : ℚ) ≤ r := by exact_mod_cast hr
    push_cast at hr'; linarith
  · intro hy
    by_contra hr
    have hcast : ((2 ^ 24 - 1 : Nat) : ℚ) = 2 ^ 24 - 1 := by norm_num
    have hr' : (r : ℚ) ≤ (2 ^ 24 - 1 : Nat) := by exact_mod_cast (by omega : r ≤ 2 ^ 24 - 1)
    have hodd : (r : ℚ) = (2 ^ 24 - 1 : Nat) := by rw [hcast] at hr' ⊢; linarith
    have heven := htie (by rw [abs_of_nonneg] <;> linarith)
    have : r = 2 ^ 24 - 1 := by exact_mod_cast hodd
    omega

/-! ### `rne32` as an integer rounding -/

/-- Rounding the magnitude `y · 2^q` to a binary32: `y` is rounded to the integer `r`, where `q` is the
exponent of the last bit that a binary32 of this magnitude has, at least that of the subnormals. -/
structure RoundsAt (y : ℚ) (q : Int) (r : Nat) : Prop where
  subnormal_le : -149 ≤ q
  nearest : IsNearestEven y r
  lt : y < 2 ^ 24
  ge : -149 < q → 2 ^ 23 ≤ y

/-- The magnitude code of `r · 2^q`, cut at the infinity. -/
def roundedCode (q : Int) (r : Nat) : Nat := min ((q + 149).toNat * 2 ^ 23 + r) (255 * 2 ^ 23)

theorem roundedCode_of_lt {q : Int} {r : Nat} (h : roundedCode q r < 255 * 2 ^ 23) :
    roundedCode q r = (q + 149).toNat * 2 ^ 23 + r := by
  unfold roundedCode at *; omega

theorem roundedCode_lt (q : Int) (r : Nat) : roundedCode q r < 2 ^ 31 := by
  unfold roundedCode; omega

theorem isNearestEven_shift (m : Nat) (e q : Int) :
    IsNearestEven ((m : ℚ) * 2 ^ (e - q)) (if q ≤ e then m <<< (e - q).toNat else rneShift m (q - e).toNat) := by
  split
  · rename_i h
    have hpow : (m : ℚ) * 2 ^ (e - q) = (m <<< (e - q).toNat : Nat) := by
      rw [Nat.shiftLeft_eq, Nat.cast_mul, Nat.cast_pow, ← zpow_natCast, Int.toNat_of_nonneg (by omega)]
      norm_num
    rw [hpow]
    exact isNearestEven_natCast _
  · have hpow : (m : ℚ) * 2 ^ (e - q) = m / 2 ^ (q - e).toNat := by
      rw [← zpow_natCast, Int.toNat_of_nonneg (by omega), div_eq_mul_inv, ← zpow_neg, neg_sub]
    rw [hpow]
    exact isNearestEven_rneShift _ _

/-- The exponent of the last bit that a binary32 keeps of m·2^e (m ≠ 0). -/
def lastBitExp (m : Nat) (e : Int) : Int := max (e + m.log2 - 23) (-149)

theorem scaled_lt (m : Nat) (e : Int) : (m : ℚ) * 2 ^ (e - lastBitExp m e) < 2 ^ 24 := by
  have hhigh : (m : ℚ) < 2 ^ (m.log2 + 1) := by exact_mod_cast Nat.lt_log2_self
  calc (m : ℚ) * 2 ^ (e - lastBitExp m e) ≤ m * 2 ^ (23 - m.log2 : Int) :=
        mul_le_mul_of_nonneg_left (zpow_le_zpow_right₀ one_le_two (by unfold lastBitExp; omega))
          (Nat.cast_nonneg m)
    _ < 2 ^ (m.log2 + 1) * 2 ^ (23 - m.log2 : Int) := mul_lt_mul_of_pos_right hhigh (by positivity)
    _ = 2 ^ (24 : Int) := by
        rw [← zpow_natCast, ← zpow_add₀ two_ne_zero]
        congr 1; omega

theorem le_scaled (m : Nat) (e : Int) (hm : m ≠ 0) (hq : -149 < lastBitExp m e) :
    (2 : ℚ) ^ 23 ≤ m * 2 ^ (e - lastBitExp m e) := by
  have hlow : (2 : ℚ) ^ m.log2 ≤ m := by exact_mod_cast Nat.log2_self_le hm
  have hexp : e - lastBitExp m e = 23 - m.log2 := by unfold lastBitExp at *; omega
  calc (2 : ℚ) ^ (23 : Int) = 2 ^ m.log2 * 2 ^ (23 - m.log2 : Int) := by
        rw [← zpow_natCast (2 : ℚ) m.log2, ← zpow_add₀ two_ne_zero, add_sub_cancel]
    _ ≤ m * 2 ^ (e - lastBitExp m e) := hexp ▸ mul_le_mul_of_nonneg_right hlow (by positivity)

/-- `rne32` rounds the datum, in units of its last bit, to an integer; a zero has the unit of the subnormals. -/
theorem rne32_fin (neg : Bool) (m : Nat) (e : Int) :
    ∃ q r, RoundsAt (m * 2 ^ (e - q)) q r ∧ rne32 (.fin neg m e) = ofCode neg (roundedCode q r) := by
  by_cases hm : m = 0
  · subst hm
    refine ⟨-149, 0, ⟨le_refl _, by simpa using isNearestEven_natCast 0, by norm_num, by omega⟩, ?_⟩
    cases neg <;> rfl
  · refine ⟨lastBitExp m e, _,
      ⟨le_max_right _ _, isNearestEven_shift m e _, scaled_lt m e, le_scaled m e hm⟩, ?_⟩
    have hemin : lsbExp 8 23 = -149 := rfl
    simp only [rne32, packNat, if_neg hm, hemin, ofCode, roundedCode, Nat.shiftLeft_eq, sub_neg_eq_add]
    rfl

/-! ### The value of a rounded code -/

/-- A value counted in units of ±2^q. -/
theorem ratOf_factor (unitNeg neg : Bool) (m : Nat) (e q : Int) :
    ratOf neg m e = ratOf unitNeg 1 q * ratOf (unitNeg ^^ neg) m (e - q) := by
  rw [← mul_fin_value, ← Bool.xor_assoc, Bool.xor_self, Bool.false_xor, Nat.one_mul, add_sub_cancel]

theorem ratOf_factor_self (neg : Bool) (m : Nat) (e q : Int) :
    ratOf neg m e = ratOf neg 1 q * (m * 2 ^ (e - q)) := by
  rw [ratOf_factor neg neg m e q, Bool.xor_self]
  simp [ratOf]

/-- The code a·2^23 + r is that of r·2^(a - 149): the leading bit of a significand r ≥ 2^23 counts as one in
the exponent field, and r = 2^24 carries into it once more. -/
theorem codeNum_of_significand (neg : Bool) (a r : Nat) (hhigh : r ≤ 2 ^ 24) (hlow : 0 < a → 2 ^ 23 ≤ r)
    (hlt : a * 2 ^ 23 + r < 255 * 2 ^ 23) :
    ∃ m e, codeNum neg (a * 2 ^ 23 + r) = .fin neg m e ∧ ratOf neg m e = ratOf neg r (a - 149) := by
  rw [codeNum, if_neg (by omega)]
  rcases Nat.lt_or_ge r (2 ^ 23) with hr | hr
  · have ha : a = 0 := by omega
    subst ha
    rw [if_pos (by omega)]
    exact ⟨_, _, rfl, by rw [Nat.zero_mul, Nat.zero_add, Nat.mod_eq_of_lt hr]; rfl⟩
  · rw [if_neg (by omega)]
    refine ⟨_, _, rfl, ?_⟩
    rcases Nat.lt_or_ge r (2 ^ 24) with hr' | hr'
    · rw [show 2 ^ 23 + (a * 2 ^ 23 + r) % 2 ^ 23 = r by omega,
        show (((a * 2 ^ 23 + r) / 2 ^ 23 : Nat) : Int) - 150 = a - 149 by omega]
    · have hpow : (2 : ℚ) ^ (a - 148 : Int) = 2 ^ (a - 149 : Int) * 2 := by
        rw [← zpow_add_one₀ two_ne_zero]; congr 1; omega
      rw [show 2 ^ 23 + (a * 2 ^ 23 + r) % 2 ^ 23 = 2 ^ 23 by omega,
        show (((a * 2 ^ 23 + r) / 2 ^ 23 : Nat) : Int) - 150 = a - 148 by omega,
        show r = 2 ^ 24 by omega, ratOf, ratOf, hpow]
      push_cast
      ring

theorem f32Num_roundedCode_fin (neg : Bool) {y : ℚ} {q : Int} {r : Nat} (h : RoundsAt y q r)
    (hlt : roundedCode q r < 255 * 2 ^ 23) :
    ∃ m e, f32Num (ofCode neg (roundedCode q r)) = .fin neg m e ∧ ratOf neg m e = ratOf neg 1 q * r := by
  have hq := h.subnormal_le
  have hcode := roundedCode_of_lt hlt
  rw [f32Num_ofCode neg _ (roundedCode_lt q r), hcode]
  obtain ⟨m, e, hnum, hval⟩ := codeNum_of_significand neg (q + 149).toNat r (h.nearest.le_two_pow h.lt)
    (fun ha => h.nearest.two_pow_le (h.ge (by omega))) (hcode ▸ hlt)
  refine ⟨m, e, hnum, ?_⟩
  rw [hval, Int.toNat_of_nonneg (by omega), add_sub_cancel_right, ratOf_factor_self neg r q q, sub_self,
    zpow_zero, mul_one]

theorem f32Num_roundedCode_inf (neg : Bool) {q : Int} {r : Nat} (h : 255 * 2 ^ 23 ≤ roundedCode q r) :
    f32Num (ofCode neg (roundedCode q r)) = .inf neg := by
  have heq : roundedCode q r = 255 * 2 ^ 23 := by unfold roundedCode at *; omega
  rw [f32Num_ofCode neg _ (roundedCode_lt q r), heq]; rfl

theorem f32Num_roundedCode_eq_inf_iff (neg : Bool) {y : ℚ} {q : Int} {r : Nat} (h : RoundsAt y q r) :
    f32Num (ofCode neg (roundedCode q r)) = .inf neg ↔ 255 * 2 ^ 23 ≤ roundedCode q r := by
  refine ⟨fun hinf => ?_, f32Num_roundedCode_inf neg⟩
  by_contra hlt
  obtain ⟨m, e, hfin, -⟩ := f32Num_roundedCode_fin neg h (not_le.1 hlt)
  rw [hinf] at hfin; cases hfin

theorem f32Num_roundedCode_ne_nan (neg : Bool) {y : ℚ} {q : Int} {r : Nat} (h : RoundsAt y q r) :
    f32Num (ofCode neg (roundedCode q r)) ≠ .nan := by
  rcases Nat.lt_or_ge (roundedCode q r) (255 * 2 ^ 23) with hlt | hge
  · obtain ⟨m, e, hfin, -⟩ := f32Num_roundedCode_fin neg h hlt
    rw [hfin]; exact FNum.noConfusion
  · rw [f32Num_roundedCode_inf neg hge]; exact FNum.noConfusion

/-- A finite result is ±r·2^q, and its last bit is that of r. -/
theorem f32Value_roundedCode (neg : Bool) {y v : ℚ} {q : Int} {r : Nat} (h : RoundsAt y q r)
    (hv : f32Value (ofCode neg (roundedCode q r)) = some v) :
    v = ratOf neg 1 q * r ∧ (ofCode neg (roundedCode q r)).bits.getLsbD 0 = decide (r % 2 = 1) := by
  rcases Nat.lt_or_ge (roundedCode q r) (255 * 2 ^ 23) with hlt | hge
  · obtain ⟨m, e, hfin, hval⟩ := f32Num_roundedCode_fin neg h hlt
    rw [f32Value, hfin, numValue, hval] at hv
    refine ⟨(Option.some.inj hv).symm, ?_⟩
    rw [lastBit_ofCode, roundedCode_of_lt hlt]
    congr 2; omega
  · rw [f32Value, f32Num_roundedCode_inf neg hge] at hv; cases hv

/-- R10: overflow begins half a last place above the greatest finite binary32. -/
theorem roundedCode_overflow_iff {y : ℚ} {q : Int} {r : Nat} (h : RoundsAt y q r) :
    255 * 2 ^ 23 ≤ roundedCode q r ↔ (2 : ℚ) ^ 128 - 2 ^ 103 ≤ y * 2 ^ q := by
  have hhigh := h.nearest.le_two_pow h.lt
  rcases lt_trichotomy q 104 with hq | hq | hq
  · have hcode : ¬ 255 * 2 ^ 23 ≤ roundedCode q r := by unfold roundedCode; omega
    have hlt : y * 2 ^ q < 2 ^ 24 * 2 ^ (103 : Int) :=
      calc y * 2 ^ q < 2 ^ 24 * 2 ^ q := mul_lt_mul_of_pos_right h.lt (by positivity)
        _ ≤ 2 ^ 24 * 2 ^ (103 : Int) :=
          mul_le_mul_of_nonneg_left (zpow_le_zpow_right₀ one_le_two (by omega)) (by positivity)
    refine iff_of_false hcode (not_le.2 (hlt.trans ?_))
    norm_num
  · subst hq
    have hcode : 255 * 2 ^ 23 ≤ roundedCode 104 r ↔ 2 ^ 24 ≤ r := by
      unfold roundedCode; omega
    rw [hcode, h.nearest.two_pow_le_iff, ← mul_le_mul_iff_left₀ (by positivity : (0 : ℚ) < 2 ^ (104 : Int))]
    norm_num
  · have hge := h.ge (by omega)
    have hlow := h.nearest.two_pow_le hge
    have hcode : 255 * 2 ^ 23 ≤ roundedCode q r := by unfold roundedCode; omega
    have hle : 2 ^ 23 * 2 ^ (105 : Int) ≤ y * 2 ^ q :=
      mul_le_mul hge (zpow_le_zpow_right₀ one_le_two (by omega)) (by positivity) (le_trans (by positivity) hge)
    refine iff_of_true hcode (le_trans ?_ hle)
    norm_num

/-! ### The result against every other binary32 -/

theorem ratOf_le (neg : Bool) (m : Nat) (e : Int) : ratOf neg m e ≤ m * 2 ^ e := by
  have hpos : (0 : ℚ) ≤ m * 2 ^ e := by positivity
  cases neg
  · simp [ratOf]
  · rw [ratOf, if_pos rfl, mul_assoc]; linarith

theorem ratOf_one_ne_zero (neg : Bool) (q : Int) : ratOf neg 1 q ≠ 0 := by
  have h : (2 : ℚ) ^ q ≠ 0 := zpow_ne_zero q two_ne_zero
  cases neg <;> simp [ratOf, h]

/-- The mantissa and the exponent of a finite binary32 are in the format's range. -/
theorem f32Num_fin_bounds {x : F32} {neg : Bool} {m : Nat} {e : Int} (h : f32Num x = .fin neg m e) :
    m < 2 ^ 24 ∧ -149 ≤ e := by
  rw [f32Num_eq_codeNum, codeNum] at h
  split at h
  · split at h <;> cases h
  · split at h
    · cases h; omega
    · cases h; omega

/-- A finite binary32 is a whole number of units ±2^q; or q is above the exponent of the subnormals and the
binary32 is less than 2^23 of them: only there has it bits below 2^q. -/
theorem f32Value_on_grid {x : F32} {v : ℚ} (h : f32Value x = some v) (neg : Bool) (q : Int) :
    ∃ w : ℚ, v = ratOf neg 1 q * w ∧ ((∃ k : Int, w = k) ∨ (-149 < q ∧ w < 2 ^ 23)) := by
  obtain ⟨n, m, e, hnum, rfl⟩ := f32Value_eq_some h
  obtain ⟨hm, he⟩ := f32Num_fin_bounds hnum
  refine ⟨_, ratOf_factor neg n m e q, ?_⟩
  by_cases hqe : q ≤ e
  · refine .inl ⟨signedInt (neg ^^ n) (m <<< (e - q - 0).toNat), ?_⟩
    rw [← signedInt_shiftLeft _ _ (e - q) 0 (by omega), zpow_zero, mul_one]
  · refine .inr ⟨by omega, ?_⟩
    have hm' : (m : ℚ) < 2 ^ 24 := by exact_mod_cast hm
    calc ratOf (neg ^^ n) m (e - q) ≤ m * 2 ^ (e - q) := ratOf_le _ _ _
      _ ≤ m * 2 ^ (-1 : Int) :=
        mul_le_mul_of_nonneg_left (zpow_le_zpow_right₀ one_le_two (by omega)) (Nat.cast_nonneg m)
      _ < 2 ^ 23 := by norm_num; linarith

/-- No binary32 is nearer than the rounded one, and an equally near one shows a tie. -/
theorem RoundsAt.nearest_binary32 {y : ℚ} {q : Int} {r : Nat} (h : RoundsAt y q r) (neg : Bool) {x : F32}
    {v : ℚ} (hv : f32Value x = some v) :
    |ratOf neg 1 q * y - ratOf neg 1 q * r| ≤ |ratOf neg 1 q * y - v| ∧
    (v ≠ ratOf neg 1 q * r → |ratOf neg 1 q * y - ratOf neg 1 q * r| = |ratOf neg 1 q * y - v| →
      r % 2 = 0) := by
  have hunit := ratOf_one_ne_zero neg q
  obtain ⟨w, rfl, hw⟩ := f32Value_on_grid hv neg q
  simp only [← mul_sub, abs_mul, mul_le_mul_iff_right₀ (abs_pos.2 hunit),
    mul_right_inj' (abs_ne_zero.2 hunit), ne_eq, mul_right_inj' hunit]
  rcases hw with ⟨k, rfl⟩ | ⟨hq, hsmall⟩
  · exact h.nearest.le_of_int k
  · have hlt := h.nearest.lt_of_small (h.ge hq) hsmall
    exact ⟨hlt.le, fun _ heq => absurd heq hlt.ne⟩

/-! ### The obligations -/

/-- Settles O30: each operation is `rne32` of the exact sum or product of the two data. -/
theorem floatOperationsRoundOnce : Obligations.FloatOperationsRoundOnce := by
  intro a b x y hx hy
  obtain ⟨n1, m1, e1, ha, rfl⟩ := f32Value_eq_some hx
  obtain ⟨n2, m2, e2, hb, rfl⟩ := f32Value_eq_some hy
  refine ⟨?_, ?_, ⟨_, _, _, by rw [fmul, ha, hb]; rfl, mul_fin_value _ _ _ _ _ _⟩, ?_, rfl⟩
  · obtain ⟨neg, m, e, hadd, hval⟩ := add_fin_value n1 n2 m1 m2 e1 e2
    exact ⟨neg, m, e, by rw [fadd, ha, hb, hadd], hval⟩
  · obtain ⟨neg, m, e, hadd, hval⟩ := add_fin_value n1 (!n2) m1 m2 e1 e2
    exact ⟨neg, m, e, by rw [fsub, ha, hb, FNum.neg, hadd], by rw [hval, ratOf_not, sub_eq_add_neg]⟩
  · rw [f32Value, f32Num_fneg, ha, FNum.neg, numValue, ratOf_not]

/-- Settles O29: the code of a finite result is r·2^q, where r is the datum in units of 2^q rounded to an
integer, and every binary32 is an integer in these units or too small to be nearer. -/
theorem roundsToNearestEven : Obligations.RoundsToNearestEven := by
  intro neg m e
  obtain ⟨q, r, hround, hrne⟩ := rne32_fin neg m e
  rw [hrne]
  refine ⟨fun v hv x w hw => ?_, ?_, f32Num_roundedCode_ne_nan neg hround,
    sign_ofCode neg _ (roundedCode_lt q r)⟩
  · obtain ⟨rfl, hlast⟩ := f32Value_roundedCode neg hround hv
    rw [ratOf_factor_self neg m e q]
    obtain ⟨hle, htie⟩ := hround.nearest_binary32 neg hw
    refine ⟨hle, fun hne heq => ?_⟩
    rw [hlast, htie hne heq]; rfl
  · rw [f32Num_roundedCode_eq_inf_iff neg hround, roundedCode_overflow_iff hround, mul_assoc,
      ← zpow_add₀ two_ne_zero, sub_add_cancel]

end Sys2Proof.Rounding
end

section
/-!
What a command can do: it writes the state of its own unit (R71, `Effect`) and then either completes or raises
one error (R66, R132, `Ends`). Every statement about what commands write is read off these two.
-/

namespace Sys2Proof.Commands

open Sys2Proof Sys2Proof.Machine Sys2Proof.Safety Sys2Proof.Laws

/-! ### The two ends of a command, and what it writes before -/

/-- A command of K argument words that has made `u` ends in `t`: it completes, or it raises an error. -/
inductive Ends (k : Nat) (u : State) : State → Prop
  | completes : Ends k u { u with cmdptr := nextCommand u.cmdptr k }
  | raises (e : BteError) (info : Word) : Ends k u (takeError e info u)

/-- What a command other than END has written when it ends: DMEM and the draw counter (or nothing), or the state
of its own unit. -/
inductive Effect (s : State) : Instr → State → Prop
  | data (i : Instr) (dmem : Memory) (draws : Nat) : Effect s i { s with dmem := dmem, draws := draws }
  | xfCfg (c : CtxIdx) (kind : XfKind) (type : BitVec 2) (bits : BitVec 8) :
      bitsInRange kind bits = true →
      Effect s (.xfCfg c kind type bits) (setContext s c ⟨kind, type, bits.setWidth 5⟩)
  | audCfg (rate flags : Half) : rate ≠ 0#16 →
      Effect s (.audCfg rate flags)
        { s with track := configuredTrack rate (codecOfFlags flags) (stereoOfFlags flags) }
  | audPkt (src avail dst cap : Word) (dmem : Memory) (draws : Nat) (results : Track) :
      s.track.valid = true → (∀ i, overlapCount s.track ≤ i → prevAt results i = prevAt s.track i) →
      Effect s (.audPkt src avail dst cap)
        { s with dmem := dmem, draws := draws, track := withResults s.track results }
  | mcSwap : Effect s .mcSwap { s with cur := otherBuffer s.cur }

/-- Every next state of an outcome is an end of the command on a state that `E` allows. -/
def EndsWithin (k : Nat) (E : State → Prop) (o : Out) : Prop := ∀ t, o = .next t → ∃ u, E u ∧ Ends k u t

theorem endsWithin_complete {k : Nat} {E : State → Prop} {u : State} (h : E u) :
    EndsWithin k E (complete k u) := by
  intro t ht
  obtain rfl := complete_next ht
  exact ⟨u, h, .completes⟩

theorem endsWithin_raise {k : Nat} {E : State → Prop} {u : State} (e : BteError) (info : Word) (h : E u) :
    EndsWithin k E (raise e info u) := by
  intro t ht
  obtain rfl := Host.Outcome.next.inj ht
  exact ⟨u, h, .raises e info⟩

/-- A check that fails raises its error on the state as it is. -/
theorem endsWithin_check {k : Nat} {E : State → Prop} {ok : Bool} {e : BteError} {info : Word} {u : State}
    {o : Out} (h : E u) (ho : ok = true → EndsWithin k E o) : EndsWithin k E (check ok e info u o) := by
  cases ok with
  | true => exact ho rfl
  | false => exact endsWithin_raise e info h

theorem endsWithin_checkRegion {k : Nat} {E : State → Prop} {align len : Nat} {a : Word} {u : State} {o : Out}
    (h : E u) (ho : EndsWithin k E o) : EndsWithin k E (checkRegion align len a u o) :=
  endsWithin_check h fun _ => endsWithin_check h fun _ => ho

theorem endsWithin_checkBlock {k : Nat} {E : State → Prop} {p : PlaneIdx} {pos : BlockPos} {u : State}
    {o : Out} (h : E u) (ho : EndsWithin k E o) : EndsWithin k E (checkBlock p pos u o) :=
  endsWithin_check h fun _ => endsWithin_check h fun _ => ho

theorem endsWithin_touchBlock {k : Nat} {E : State → Prop} {base pitch : Nat} {u : State} {o : Out}
    (ho : EndsWithin k E o) : EndsWithin k E (touchBlock base pitch u o) :=
  fun t ht => ho t (touchBlock_next ht).2

/-! ### The commands that write only DMEM -/

theorem Effect.refl (s : State) (i : Instr) : Effect s i s := .data i s.dmem s.draws

theorem effect_putBlock (s : State) (i : Instr) (p : PlaneIdx) (pos : BlockPos) (px : List Byte) :
    Effect s i (putBlock p pos px s) := by
  rw [putBlock, writeBlock_eq]
  exact .data i _ s.draws

theorem effect_putCoefs (s : State) (i : Instr) (blk : Word) (ws : List Word) :
    Effect s i (putCoefs blk ws s) := .data i _ s.draws

/-- MCCOPY's guarded copy, the common end of MC_SKIP and MC_MOTION (R102, R103). -/
theorem endsWithin_mcCopy (s : State) (i : Instr) (p : PlaneIdx) (pos : BlockPos) (dx dy : BitVec 8) :
    EndsWithin 1 (Effect s i) (mcCopy p pos dx dy s) :=
  endsWithin_touchBlock (endsWithin_touchBlock (endsWithin_complete (effect_putBlock s i _ _ _)))

/-! ### AUD_PKT -/

/-- What AUD_PKT makes of the state while it runs: DMEM, draws and the track's results, PREV only below
OVERLAP·CH (10_state.md R33, R35, R37). -/
structure PacketWrites (s u : State) : Prop where
  frame : u = { s with dmem := u.dmem, draws := u.draws, track := withResults s.track u.track }
  prev : ∀ i, overlapCount s.track ≤ i → prevAt u.track i = prevAt s.track i

theorem PacketWrites.refl (s : State) : PacketWrites s s := ⟨rfl, fun _ _ => rfl⟩

theorem PacketWrites.trans {s u v : State} (hu : PacketWrites s u) (hv : PacketWrites u v) :
    PacketWrites s v := by
  have hcount : overlapCount u.track = overlapCount s.track := by rw [hu.frame]; rfl
  refine ⟨?_, fun i hi => (hv.prev i (hcount ▸ hi)).trans (hu.prev i hi)⟩
  calc v = { u with dmem := v.dmem, draws := v.draws, track := withResults u.track v.track } := hv.frame
    _ = { s with dmem := v.dmem, draws := v.draws, track := withResults s.track v.track } := by
      rw [hu.frame]; rfl

theorem packetWrites_faultTrack (s : State) : PacketWrites s (faultTrack s) := ⟨rfl, fun _ _ => rfl⟩

theorem packetWrites_beginPacket (src len reported : Word) (s : State) :
    PacketWrites s (beginPacket src len reported s) := ⟨rfl, fun _ _ => rfl⟩

theorem packetWrites_commitBlock (dst : Nat) (chans : List (Array F32)) (s : State) :
    PacketWrites s (commitBlock dst chans s) := by
  refine ⟨rfl, fun i hi => ?_⟩
  rw [commitBlock_track]
  by_cases h : i < 256
  · exact (prevAt_cacheTail s.track _ i h).trans (if_neg (by omega))
  · rw [prevAt_beyond _ i (by omega), prevAt_beyond _ i (by omega)]

/-- The block loop (R117), by induction on its turns: each commits a block or ends the command. -/
theorem endsWithin_packetLoop {s : State} (b : BitSource) (dst cap n pos : Nat) {u : State}
    (hu : PacketWrites s u) : EndsWithin 4 (PacketWrites s) (packetLoop b dst cap n pos u) := by
  induction n generalizing pos u with
  | zero => exact endsWithin_complete hu
  | succ n ih =>
    have hfault := hu.trans (packetWrites_faultTrack u)
    unfold packetLoop
    split
    · exact endsWithin_complete hu
    · split
      · exact endsWithin_raise _ _ hfault
      · split
        · exact endsWithin_raise _ _ hfault
        · exact ih _ (hu.trans (packetWrites_commitBlock _ _ _))

theorem endsWithin_audPacket (src len dst cap : Word) (s : State) :
    EndsWithin 4 (PacketWrites s) (audPacket src len dst cap s) := by
  unfold audPacket
  split
  · exact endsWithin_complete (packetWrites_beginPacket _ _ _ s)
  · exact endsWithin_packetLoop _ _ _ _ _ (packetWrites_beginPacket _ _ _ s)

theorem PacketWrites.effect {s u : State} (h : PacketWrites s u) (hv : s.track.valid = true)
    (src avail dst cap : Word) : Effect s (.audPkt src avail dst cap) u := by
  rw [h.frame]
  exact .audPkt src avail dst cap u.dmem u.draws u.track hv h.prev

theorem endsWithin_audPkt (src avail dst cap : Word) (s : State) :
    EndsWithin 4 (Effect s (.audPkt src avail dst cap)) (execAudPkt src avail dst cap s) := by
  have h := Effect.refl s (.audPkt src avail dst cap)
  refine endsWithin_check h fun hstate => endsWithin_check h fun _ => endsWithin_check h fun _ =>
    endsWithin_check h fun _ => endsWithin_check h fun _ => endsWithin_check h fun _ => ?_
  have hvalid : s.track.valid = true := (Bool.and_eq_true_iff.1 hstate).1
  intro t ht
  obtain ⟨u, hu, hend⟩ := endsWithin_audPacket _ _ _ _ s t ht
  exact ⟨u, hu.effect hvalid src avail dst cap, hend⟩

/-! ### Every command -/

/-- R71, R130: a command but END has its own effect, or none, and then completes or raises one error. -/
theorem exec_endsWithin (i : Instr) (s : State) (hi : i ≠ .endList) :
    EndsWithin i.argCount (Effect s i) (exec i s) := by
  have h := Effect.refl s i
  cases i with
  | nop => exact endsWithin_complete h
  | endList => exact absurd rfl hi
  | xfCfg c kind type bits =>
    exact endsWithin_check h fun hbits => endsWithin_complete (.xfCfg c kind type bits hbits)
  | xfPerm c addr =>
    exact endsWithin_check h fun _ => endsWithin_checkRegion h (endsWithin_complete (.data _ _ s.draws))
  | xfCalc c addr =>
    exact endsWithin_check h fun _ => endsWithin_checkRegion h (endsWithin_complete (.data _ _ _))
  | audCfg rate flags =>
    exact endsWithin_check h fun hrate => endsWithin_complete (.audCfg rate flags (bne_iff_ne.1 hrate))
  | audPkt src avail dst cap => exact endsWithin_audPkt src avail dst cap s
  | mcSkip p pos => exact endsWithin_checkBlock h (endsWithin_mcCopy s _ p pos _ _)
  | mcMotion p dx dy pos =>
    exact endsWithin_checkBlock h (endsWithin_check h fun _ => endsWithin_mcCopy s _ p pos dx dy)
  | mcResidue p dx dy pos blk =>
    exact endsWithin_checkBlock h (endsWithin_check h fun _ => endsWithin_checkRegion h
      (endsWithin_touchBlock (endsWithin_touchBlock (endsWithin_complete (effect_putBlock s _ _ _ _)))))
  | mcIdctPut p pos blk =>
    exact endsWithin_checkBlock h (endsWithin_checkRegion h
      (endsWithin_touchBlock (endsWithin_complete (effect_putBlock s _ _ _ _))))
  | mcIdctAdd p pos blk =>
    exact endsWithin_checkBlock h (endsWithin_checkRegion h
      (endsWithin_touchBlock (endsWithin_complete (effect_putBlock s _ _ _ _))))
  | mcIdct blk => exact endsWithin_checkRegion h (endsWithin_complete (effect_putCoefs s _ _ _))
  | mcDequant blk qtab =>
    exact endsWithin_checkRegion h (endsWithin_checkRegion h
      (endsWithin_complete (effect_putCoefs s _ _ _)))
  | mcSwap => exact endsWithin_complete .mcSwap

/-- Everything a command can do. -/
theorem exec_next {i : Instr} {s t : State} (h : exec i s = .next t) :
    (i = .endList ∧ t = endRun s) ∨ (i ≠ .endList ∧ ∃ u, Effect s i u ∧ Ends i.argCount u t) := by
  by_cases hi : i = .endList
  · subst hi
    exact .inl ⟨rfl, (Host.Outcome.next.inj h).symm⟩
  · exact .inr ⟨hi, exec_endsWithin i s hi t h⟩

/-- No command writes the sequencer's state before it ends (R66, R132). -/
theorem Effect.sequencer {s u : State} {i : Instr} (h : Effect s i u) :
    u.cmdptr = s.cmdptr ∧ u.busy = s.busy ∧ u.done = s.done ∧ u.err = s.err ∧ u.errCode = s.errCode ∧
      u.errPc = s.errPc ∧ u.errInfo = s.errInfo := by
  cases h <;> exact ⟨rfl, rfl, rfl, rfl, rfl, rfl, rfl⟩

/-- No command writes a parameter, IRQEN, a plane register or the host's side (R16, R27 to R31). -/
theorem Effect.host {s u : State} {i : Instr} (h : Effect s i u) :
    u.params = s.params ∧ u.irqEn = s.irqEn ∧ u.pbase = s.pbase ∧ u.pw = s.pw ∧ u.ph = s.ph ∧
      u.pitch = s.pitch ∧ u.host = s.host ∧ u.hostRdata = s.hostRdata := by
  cases h <;> exact ⟨rfl, rfl, rfl, rfl, rfl, rfl, rfl, rfl⟩

theorem context_setContext (s : State) (c d : CtxIdx) (x : Context) :
    context (setContext s c x) d = if d = c then x else context s d := by
  by_cases h : d = c
  · simp [context, h]
  · have hval : c.val ≠ d.val := fun e => h (Fin.ext e.symm)
    simp [context, h, hval]

/-- Only XF_CFG writes a context, and only the one it names (R32, R73). -/
theorem Effect.context_eq {s u : State} {i : Instr} (h : Effect s i u) (d : CtxIdx)
    (hi : ∀ kind type bits, i ≠ .xfCfg d kind type bits) : context u d = context s d := by
  cases h with
  | xfCfg c kind type bits _ =>
    have hd : d ≠ c := fun e => hi kind type bits (by rw [e])
    rw [context_setContext, if_neg hd]
  | data | audCfg | audPkt | mcSwap => rfl

/-- Only AUD_CFG and AUD_PKT write the track (R33). -/
theorem Effect.track_eq {s u : State} {i : Instr} (h : Effect s i u)
    (hcfg : ∀ rate flags, i ≠ .audCfg rate flags)
    (hpkt : ∀ src avail dst cap, i ≠ .audPkt src avail dst cap) :
    u.track = s.track := by
  cases h with
  | audCfg rate flags _ => exact absurd rfl (hcfg rate flags)
  | audPkt src avail dst cap _ _ _ _ _ => exact absurd rfl (hpkt src avail dst cap)
  | data | xfCfg | mcSwap => rfl

/-- Only MC_SWAP writes CUR (R27, R111). -/
theorem Effect.cur_eq {s u : State} {i : Instr} (h : Effect s i u) (hi : i ≠ .mcSwap) : u.cur = s.cur := by
  cases h with
  | mcSwap => exact absurd rfl hi
  | data | xfCfg | audCfg | audPkt => rfl

/-- The end of a command writes CMDPTR, BUSY, ERR and the error registers only. -/
theorem Ends.frame {k : Nat} {u t : State} (h : Ends k u t) :
    t = { u with cmdptr := t.cmdptr, busy := t.busy, err := t.err, errCode := t.errCode, errPc := t.errPc,
                 errInfo := t.errInfo } := by
  cases h <;> rfl

/-! ### The obligations -/

/-- Settles O10: no effect touches the sequencer's registers, so the end of the command decides them. -/
theorem commandCompletesOrRaisesOnce : Obligations.CommandCompletesOrRaisesOnce := by
  intro i s t h
  rcases exec_next h with ⟨hi, rfl⟩ | ⟨hi, u, hu, hend⟩
  · exact .inr (.inr ⟨hi, rfl⟩)
  · obtain ⟨hptr, hbusy, hdone, herr, hcode, hpc, hinfo⟩ := hu.sequencer
    cases hend with
    | completes =>
      exact .inl ⟨hi, congrArg (nextCommand · i.argCount) hptr, hbusy, hdone, herr, hcode, hpc, hinfo⟩
    | raises e info => exact .inr (.inl ⟨hi, hptr, hptr, rfl, rfl, hdone, e, rfl⟩)

/-- Settles O18: END and the end of a command write sequencer registers only, so the effect decides. -/
theorem eachUnitWritesItsOwnState : Obligations.EachUnitWritesItsOwnState := by
  intro i s t h
  rcases exec_next h with ⟨-, rfl⟩ | ⟨-, u, hu, hend⟩
  · exact ⟨⟨rfl, rfl, rfl, rfl, rfl, rfl, rfl, rfl⟩, fun _ _ => rfl, fun _ _ => rfl, fun _ => rfl⟩
  · rw [hend.frame]
    exact ⟨hu.host, hu.context_eq, hu.track_eq, hu.cur_eq⟩

end Sys2Proof.Commands
end

section
/-!
What a step can do (R51, R66, R147), and the invariants of the registers that every step keeps (10_state.md
R18, R25, R26, R32 to R37).
-/

namespace Sys2Proof.Steps

open Sys2Proof Sys2Proof.Machine Sys2Proof.Safety Sys2Proof.Laws Sys2Proof.Commands

/-! ### Only well-formed commands are fetched -/

/-- The part of a command's well-formedness that its header decides: XF_CFG's combinations (R60). -/
def headerOk : Header → Bool
  | .xfCfg _ kind type bits => xfCombinationOk kind type bits
  | _ => true

/-- A header that decodes is legal. -/
def DecodesOk (r : Except Reject Header) : Prop := ∀ hd, r = .ok hd → headerOk hd = true

theorem decodesOk_error (e : Reject) : DecodesOk (.error e) := nofun

theorem decodesOk_ok {hd : Header} (h : headerOk hd = true) : DecodesOk (.ok hd) := by
  rintro _ ⟨⟩
  exact h

theorem DecodesOk.ite {p : Prop} [Decidable p] {a b : Except Reject Header} (ha : DecodesOk a)
    (hb : DecodesOk b) : DecodesOk (if p then a else b) := by
  split <;> assumption

theorem decodesOk_plainHeader {h : Word} {hd : Header} (hok : headerOk hd = true) :
    DecodesOk (plainHeader h hd) := .ite (decodesOk_ok hok) (decodesOk_error _)

theorem decodesOk_indexHeader {h : Word} {mk : Fin 4 → Header} (hok : ∀ i, headerOk (mk i) = true) :
    DecodesOk (indexHeader h mk) := by
  refine .ite ?_ (decodesOk_error _)
  split
  · exact decodesOk_ok (hok _)
  · exact decodesOk_error _

theorem decodesOk_vectorHeader {h : Word} {mk : Fin 4 → BitVec 8 → BitVec 8 → Header}
    (hok : ∀ i dx dy, headerOk (mk i dx dy) = true) : DecodesOk (vectorHeader h mk) := by
  unfold vectorHeader
  split
  · exact decodesOk_ok (hok _ _ _)
  · exact decodesOk_error _

theorem decodesOk_xfCfgHeader (h : Word) : DecodesOk (xfCfgHeader h) := by
  unfold xfCfgHeader
  split
  · exact decodesOk_error _
  · dsimp only
    split
    · rename_i hok
      exact decodesOk_ok hok.2.2
    · exact decodesOk_error _

/-- Of the branches of the opcode map (R60) only XF_CFG's carries a combination, which it checks. -/
theorem decodesOk_decodeHeader (h : Word) : DecodesOk (decodeHeader h) := by
  have plain : ∀ hd, headerOk hd = true → DecodesOk (plainHeader h hd) := fun _ => decodesOk_plainHeader
  have index : ∀ mk, (∀ i, headerOk (mk i) = true) → DecodesOk (indexHeader h mk) :=
    fun _ => decodesOk_indexHeader
  have vector : ∀ mk, (∀ i dx dy, headerOk (mk i dx dy) = true) → DecodesOk (vectorHeader h mk) :=
    fun _ => decodesOk_vectorHeader
  unfold decodeHeader
  dsimp only
  generalize opcField h = opc
  refine .ite (plain .nop rfl) (.ite (plain .endList rfl) (.ite (decodesOk_xfCfgHeader h) ?_))
  refine .ite (index .xfPerm fun _ => rfl) (.ite (index .xfCalc fun _ => rfl) ?_)
  refine .ite (plain .audCfg rfl) (.ite (plain .audPkt rfl) (.ite (index .mcSkip fun _ => rfl) ?_))
  refine .ite (vector .mcMotion fun _ _ _ => rfl) (.ite (vector .mcResidue fun _ _ _ => rfl) ?_)
  refine .ite (index .mcIdctPut fun _ => rfl) (.ite (index .mcIdctAdd fun _ => rfl) ?_)
  exact .ite (plain .mcIdct rfl) (.ite (plain .mcDequant rfl) (.ite (plain .mcSwap rfl) (decodesOk_error _)))

/-- A header and its argument words, of which no command has more than four, make a command as legal as it. -/
theorem wellFormed_of_build {hd : Header} {args : List Word} {i : Instr} (h : hd.build args = some i) :
    i.wellFormed = headerOk hd := by
  rcases args with _ | ⟨a, _ | ⟨b, _ | ⟨c, _ | ⟨d, _ | ⟨e, rest⟩⟩⟩⟩⟩
  all_goals cases hd
  all_goals cases h <;> rfl

theorem wellFormed_of_fetchCommand {s : State} {i : Instr} (h : fetchCommand s = .ok i) :
    i.wellFormed = true := by
  unfold fetchCommand at h
  dsimp only at h
  split at h
  · split at h
    · cases h
    · rename_i hd hdec
      split at h
      · cases h
      · split at h
        · rename_i i' hbuild
          obtain rfl := Except.ok.inj h
          rw [wellFormed_of_build hbuild]
          exact decodesOk_decodeHeader _ hd hdec
        · cases h
  · cases h

/-! ### The host's register writes -/

/-- What a host write to a register does: to CTRL, to STATUS, to CMDPTR, or to the plane registers alone. -/
inductive MmioWrites (s : State) (v : Word) : State → Prop
  | ctrl : MmioWrites s v (writeCtrl s v)
  | status : MmioWrites s v (writeStatus s v)
  | cmdptr : MmioWrites s v { s with cmdptr := alignWord v }
  | planes (cur : Fin 2) (pbase : Vector (Vector Word 4) 2) (pw ph pitch : Vector Half 4) :
      MmioWrites s v { s with cur := cur, pbase := pbase, pw := pw, ph := ph, pitch := pitch }

theorem MmioWrites.refl (s : State) (v : Word) : MmioWrites s v s := .planes s.cur s.pbase s.pw s.ph s.pitch

theorem MmioWrites.ite {s a b : State} {v : Word} {p : Prop} [Decidable p] (ha : MmioWrites s v a)
    (hb : MmioWrites s v b) : MmioWrites s v (if p then a else b) := by
  split <;> assumption

theorem MmioWrites.whenIdle {s t : State} {v : Word} (h : MmioWrites s v t) :
    MmioWrites s v (writeWhenIdle s t) := .ite (.refl s v) h

/-- Everything a host write to MMIO can do (R19 to R31). -/
theorem mmioStore_writes (s : State) (off : Nat) (v : Word) : MmioWrites s v (mmioStore s off v) :=
  .ite .ctrl <| .ite .status <| .ite (.whenIdle .cmdptr) <|
  .ite (.whenIdle (.planes _ s.pbase s.pw s.ph s.pitch)) <|
  .ite (.whenIdle (.planes s.cur _ s.pw s.ph s.pitch)) <|
  .ite (.whenIdle (.planes s.cur s.pbase _ _ s.pitch)) <|
  .ite (.whenIdle (.planes s.cur s.pbase s.pw s.ph _)) <| .refl s v

/-! ### Every step -/

/-- What one step does, once the host's move is taken off the list: it records a value the host reads (or
nothing), raises a fetch error, runs the fetched command, or is a write or a reset of the host. -/
inductive Turn (s : State) : State → Prop
  | read (value : Word) : Turn s { s with hostRdata := value }
  | fetchError (e : BteError) (info : Word) : s.busy = true → Turn s (takeError e info s)
  | command (i : Instr) (t : State) : s.busy = true → i.wellFormed = true → exec i s = .next t → Turn s t
  | mmioWrite (v : Word) (t : State) : MmioWrites s v t → Turn s t
  | dmemWrite (a : Nat) (v : Byte) : Turn s (store s a [v])
  | reset : Turn s (warmReset s)

theorem turn_of_seqStep {s t : State} (h : seqStep s = .next t) : Turn s t := by
  unfold seqStep at h
  split at h
  · rename_i hbusy
    split at h
    · obtain rfl := Host.Outcome.next.inj h
      exact .fetchError _ _ hbusy
    · rename_i i hfetch
      exact .command i t hbusy (wellFormed_of_fetchCommand hfetch) h
  · obtain rfl := Host.Outcome.next.inj h
    exact .read s.hostRdata

theorem hostDmem_next {s t : State} {a : Word} {k : Out} (h : hostDmem s a k = .next t) : k = .next t := by
  unfold hostDmem at h
  split at h
  · cases h
  · split at h
    · exact h
    · cases h

theorem turn_of_hostStep {m : HostMove} {s t : State} (h : hostStep m s = .next t) : Turn s t := by
  cases m with
  | wait => exact turn_of_seqStep h
  | mmioRead width off =>
    simp only [hostStep] at h
    split at h
    · obtain rfl := Host.Outcome.next.inj h
      exact .read _
    · cases h
  | mmioWrite width off v =>
    simp only [hostStep] at h
    split at h
    · obtain rfl := Host.Outcome.next.inj h
      exact .mmioWrite _ _ (mmioStore_writes _ _ _)
    · cases h
  | dmemRead a =>
    obtain rfl := Host.Outcome.next.inj (hostDmem_next h)
    exact .read _
  | dmemWrite a v =>
    obtain rfl := Host.Outcome.next.inj (hostDmem_next h)
    exact .dmemWrite _ _
  | reset =>
    obtain rfl := Host.Outcome.next.inj h
    exact .reset

theorem step_of_host_nil {s : State} (h : s.host = []) : step s = seqStep s := by
  rw [step, h]

theorem step_of_host_cons {s : State} {m : HostMove} {ms : List HostMove} (h : s.host = m :: ms) :
    step s = hostStep m { s with host := ms } := by
  rw [step, h]

/-- Everything a step can do. -/
theorem turn_of_step {s t : State} (h : step s = .next t) : ∃ ms, Turn { s with host := ms } t := by
  cases hhost : s.host with
  | nil =>
    rw [step_of_host_nil hhost] at h
    exact ⟨s.host, turn_of_seqStep h⟩
  | cons m ms =>
    rw [step_of_host_cons hhost] at h
    exact ⟨ms, turn_of_hostStep h⟩

/-! ### The status flags -/

theorem flagsOk_of_busy {s : State} (h : FlagsOk s) (hb : s.busy = true) :
    s.done = false ∧ s.err = false := by
  obtain ⟨hdone, herr, -⟩ := h
  simpa [hb] using And.intro hdone herr

theorem flagsOk_takeError {s : State} {e : BteError} {info : Word} (h : s.done = false) :
    FlagsOk (takeError e info s) := by
  simp [FlagsOk, h]

theorem flagsOk_writeCtrl {s : State} (v : Word) (h : FlagsOk s) : FlagsOk (writeCtrl s v) := by
  unfold writeCtrl
  dsimp only
  split
  · exact ⟨rfl, rfl, rfl⟩
  · exact h

theorem flagsOk_writeStatus {s : State} (v : Word) (h : FlagsOk s) : FlagsOk (writeStatus s v) := by
  obtain ⟨hbd, hbe, hde⟩ := h
  simp only [Bool.and_eq_false_iff] at hbd hbe hde
  refine ⟨?_, ?_, ?_⟩ <;> simp only [writeStatus, Bool.and_eq_false_iff] <;> tauto

/-- Settles O14: a run starts with DONE = ERR = 0, and what ends it sets one of them as BUSY falls. -/
theorem statusFlagsStayExclusive : Obligations.StatusFlagsStayExclusive := by
  intro s t hs h
  obtain ⟨ms, hturn⟩ := turn_of_step h
  have hu : FlagsOk { s with host := ms } := hs
  generalize { s with host := ms } = u at hturn hu
  cases hturn with
  | read value => exact hu
  | fetchError e info hbusy => exact flagsOk_takeError (flagsOk_of_busy hu hbusy).1
  | command i _ hbusy _ hexec =>
    obtain ⟨hdone, herr⟩ := flagsOk_of_busy hu hbusy
    rcases exec_next hexec with ⟨-, rfl⟩ | ⟨-, v, hv, hend⟩
    · simp [FlagsOk, herr]
    · obtain ⟨-, hvbusy, hvdone, hverr, -⟩ := hv.sequencer
      cases hend with
      | completes => simp [FlagsOk, hvdone, hdone, hverr, herr]
      | raises e info => exact flagsOk_takeError (hvdone.trans hdone)
  | mmioWrite v _ hw =>
    cases hw with
    | ctrl => exact flagsOk_writeCtrl v hu
    | status => exact flagsOk_writeStatus v hu
    | cmdptr | planes => exact hu
  | dmemWrite a v => exact hu
  | reset => exact ⟨rfl, rfl, rfl⟩

/-! ### CMDPTR and the error registers -/

/-- Masking with 0xFFFFFFFC clears bits 1:0. -/
theorem alignWord_toNat_mod (w : Word) : (alignWord w).toNat % 4 = 0 := by
  have h : (alignWord w).setWidth 2 = 0#2 := by
    rw [alignWord, BitVec.setWidth_and]
    exact BitVec.and_zero
  simpa using congrArg BitVec.toNat h

theorem nextCommand_toNat_mod {a : Word} (k : Nat) (h : a.toNat % 4 = 0) :
    (nextCommand a k).toNat % 4 = 0 := by
  rw [nextCommand, BitVec.toNat_add, BitVec.toNat_ofNat]
  omega

theorem pointersOk_takeError {s : State} (e : BteError) (info : Word) (h : s.cmdptr.toNat % 4 = 0) :
    PointersOk (takeError e info s) := ⟨h, h⟩

theorem errorCode_legal (e : BteError) : (errorCode e).toNat ≤ 14 ∧ errorCode e ≠ 0#8 := by
  cases e <;> decide

theorem errorsOk_takeError (e : BteError) (info : Word) (s : State) : ErrorsOk (takeError e info s) := by
  obtain ⟨hle, hne⟩ := errorCode_legal e
  exact ⟨hle, fun _ => hne, fun h => absurd h hne⟩

theorem errorsOk_writeCtrl {s : State} (v : Word) (h : ErrorsOk s) : ErrorsOk (writeCtrl s v) := by
  unfold writeCtrl
  dsimp only
  split
  · exact ⟨Nat.zero_le _, nofun, fun _ => ⟨rfl, rfl⟩⟩
  · exact h

theorem pointersOk_writeCtrl {s : State} (v : Word) (h : PointersOk s) : PointersOk (writeCtrl s v) := by
  unfold writeCtrl
  dsimp only
  split
  · exact ⟨h.1, rfl⟩
  · exact h

/-- Clearing ERR leaves the error registers (R25, R26). -/
theorem errorsOk_writeStatus {s : State} (v : Word) (h : ErrorsOk s) : ErrorsOk (writeStatus s v) := by
  obtain ⟨hle, hset, hzero⟩ := h
  refine ⟨hle, fun herr => hset ?_, hzero⟩
  simp only [writeStatus, Bool.and_eq_true] at herr
  exact herr.1

/-- A command moves CMDPTR by a multiple of 4, and writes the error registers only with a code of R129. -/
theorem pointersOk_errorsOk_exec {i : Instr} {s t : State} (hp : PointersOk s) (he : ErrorsOk s)
    (h : exec i s = .next t) : PointersOk t ∧ ErrorsOk t := by
  obtain ⟨hptr, hpc⟩ := hp
  rcases exec_next h with ⟨-, rfl⟩ | ⟨-, u, hu, hend⟩
  · exact ⟨⟨nextCommand_toNat_mod 0 hptr, hpc⟩, he⟩
  · obtain ⟨huptr, -, -, huerr, hucode, hupc, huinfo⟩ := hu.sequencer
    rw [← huptr] at hptr
    cases hend with
    | completes =>
      refine ⟨⟨nextCommand_toNat_mod _ hptr, hupc ▸ hpc⟩, ?_⟩
      simpa only [ErrorsOk, huerr, hucode, hupc, huinfo] using he
    | raises e info => exact ⟨pointersOk_takeError e info hptr, errorsOk_takeError e info u⟩

/-- Settles O15: CMDPTR moves by multiples of 4, ERRPC copies it, and only an error, START or a reset writes
the error registers. -/
theorem sequencerRegistersStayLegal : Obligations.SequencerRegistersStayLegal := by
  intro s t hps hes h
  obtain ⟨ms, hturn⟩ := turn_of_step h
  have hp : PointersOk { s with host := ms } := hps
  have he : ErrorsOk { s with host := ms } := hes
  generalize { s with host := ms } = u at hturn hp he
  cases hturn with
  | read value => exact ⟨hp, he⟩
  | fetchError e info _ => exact ⟨pointersOk_takeError e info hp.1, errorsOk_takeError e info u⟩
  | command i _ _ _ hexec => exact pointersOk_errorsOk_exec hp he hexec
  | mmioWrite v _ hw =>
    cases hw with
    | ctrl => exact ⟨pointersOk_writeCtrl v hp, errorsOk_writeCtrl v he⟩
    | status => exact ⟨hp, errorsOk_writeStatus v he⟩
    | cmdptr => exact ⟨⟨alignWord_toNat_mod v, hp.2⟩, he⟩
    | planes => exact ⟨hp, he⟩
  | dmemWrite a v => exact ⟨hp, he⟩
  | reset => exact ⟨⟨rfl, rfl⟩, Nat.zero_le _, nofun, fun _ => ⟨rfl, rfl⟩⟩

/-! ### The units' state: contexts and track -/

/-- The state of the transform contexts and the track changes only by a command or by a reset. -/
theorem units_of_step {s t : State} (h : step s = .next t) :
    (t.ctx = s.ctx ∧ t.track = s.track) ∨ (t.ctx = State.reset.ctx ∧ t.track = State.reset.track) ∨
    ∃ (i : Instr) (u v : State), i.wellFormed = true ∧ u.ctx = s.ctx ∧ u.track = s.track ∧ Effect u i v ∧
      t.ctx = v.ctx ∧ t.track = v.track := by
  obtain ⟨ms, hturn⟩ := turn_of_step h
  cases hturn with
  | read | fetchError | dmemWrite => exact .inl ⟨rfl, rfl⟩
  | reset => exact .inr (.inl ⟨rfl, rfl⟩)
  | mmioWrite v _ hw =>
    refine .inl ?_
    cases hw with
    | ctrl => unfold writeCtrl; dsimp only; split <;> exact ⟨rfl, rfl⟩
    | status | cmdptr | planes => exact ⟨rfl, rfl⟩
  | command i _ _ hwf hexec =>
    rcases exec_next hexec with ⟨-, rfl⟩ | ⟨-, u, hu, hend⟩
    · exact .inl ⟨rfl, rfl⟩
    · refine .inr (.inr ⟨i, { s with host := ms }, u, hwf, rfl, rfl, hu, ?_⟩)
      rw [hend.frame]
      exact ⟨rfl, rfl⟩

/-- A legal XF_CFG whose size is in range builds a legal context (R60, R73). -/
theorem contextOk_of_xfCfg {kind : XfKind} {type : BitVec 2} {bits : BitVec 8}
    (hcomb : xfCombinationOk kind type bits = true) (hbits : bitsInRange kind bits = true) :
    ContextOk ⟨kind, type, bits.setWidth 5⟩ := by
  cases kind with
  | none =>
    obtain ⟨rfl, rfl⟩ : type = 0#2 ∧ bits = 0#8 := by simpa [xfCombinationOk] using hcomb
    exact ⟨rfl, rfl⟩
  | fft =>
    have htype : type = 0#2 ∨ type = 1#2 := by simpa [xfCombinationOk] using hcomb
    have hrange : 4 ≤ bits.toNat ∧ bits.toNat ≤ 16 := by simpa [bitsInRange] using hbits
    refine ⟨by rcases htype with rfl | rfl <;> simp, ?_⟩
    rw [BitVec.toNat_setWidth]; omega
  | rdft =>
    have hrange : 5 ≤ bits.toNat ∧ bits.toNat ≤ 16 := by simpa [bitsInRange] using hbits
    change 5 ≤ (bits.setWidth 5).toNat ∧ (bits.setWidth 5).toNat ≤ 16
    rw [BitVec.toNat_setWidth]; omega
  | dct =>
    have hrange : 5 ≤ bits.toNat ∧ bits.toNat ≤ 14 := by simpa [bitsInRange] using hbits
    change 5 ≤ (bits.setWidth 5).toNat ∧ (bits.setWidth 5).toNat ≤ 14
    rw [BitVec.toNat_setWidth]; omega

theorem contextOk_effect {s u : State} {i : Instr} (hwf : i.wellFormed = true) (h : Effect s i u)
    (hs : ContextsOk s) : ContextsOk u := by
  intro d
  cases h with
  | xfCfg c kind type bits hbits =>
    rw [context_setContext]
    split
    · exact contextOk_of_xfCfg hwf hbits
    · exact hs d
  | data | audCfg | audPkt | mcSwap => exact hs d

theorem contextsOk_congr {s t : State} (h : t.ctx = s.ctx) (hs : ContextsOk s) : ContextsOk t := by
  simpa only [ContextsOk, context, h] using hs

theorem contextsOk_reset : ContextsOk State.reset := by
  intro c
  have h : context State.reset c = Context.off := by simp [context, State.reset]
  rw [h]
  exact ⟨rfl, rfl⟩

/-- Settles O16: only a legal XF_CFG in range writes a context. -/
theorem contextsStayLegal : Obligations.ContextsStayLegal := by
  intro s t hs h
  rcases units_of_step h with ⟨hctx, -⟩ | ⟨hctx, -⟩ | ⟨i, u, v, hwf, hu, -, heff, hctx, -⟩
  · exact contextsOk_congr hctx hs
  · exact contextsOk_congr hctx contextsOk_reset
  · exact contextsOk_congr hctx (contextOk_effect hwf heff (contextsOk_congr hu hs))

/-- AUD_PKT's writes keep a configured track (R33 to R37): its configuration stands, and PREV is written only
below OVERLAP·CH. -/
theorem trackOk_withResults {t u : Track} (ht : TrackOk t) (hvalid : t.valid = true)
    (hprev : ∀ i, overlapCount t ≤ i → prevAt u i = prevAt t i) : TrackOk (withResults t u) := by
  rcases ht with rfl | ⟨hrate, ⟨stereo, hconf⟩, hzero⟩
  · cases hvalid
  · refine .inr ⟨hrate, ⟨stereo, ?_⟩, fun i hi => ?_⟩
    · calc withResults t u = withResults (withResults (configuredTrack t.rate t.codec stereo) t) u :=
            congrArg (withResults · u) hconf
        _ = withResults (configuredTrack t.rate t.codec stereo) (withResults t u) := rfl
    · exact (hprev i hi).trans (hzero i hi)

theorem prevAt_configuredTrack (rate : Half) (codec : Codec) (stereo : Bool) (i : Nat) :
    prevAt (configuredTrack rate codec stereo) i = 0#16 := by
  by_cases h : i < 256 <;> simp [prevAt, configuredTrack, h]

theorem trackOk_effect {s u : State} {i : Instr} (h : Effect s i u) (hs : TrackOk s.track) :
    TrackOk u.track := by
  cases h with
  | audCfg rate flags hrate => exact .inr ⟨hrate, ⟨_, rfl⟩, fun i _ => prevAt_configuredTrack rate _ _ i⟩
  | audPkt _ _ _ _ _ _ results hvalid hprev => exact trackOk_withResults hs hvalid hprev
  | data | xfCfg | mcSwap => exact hs

/-- Settles O17: AUD_CFG builds a configured track, AUD_PKT runs only on a valid one and writes its results,
and nothing but a reset writes the track besides. -/
theorem trackStaysConfigured : Obligations.TrackStaysConfigured := by
  intro s t hs h
  rcases units_of_step h with ⟨-, htrack⟩ | ⟨-, htrack⟩ | ⟨i, u, v, -, -, hu, heff, -, htrack⟩
  · rwa [htrack]
  · exact .inl htrack
  · rw [htrack]
    exact trackOk_effect heff (hu ▸ hs)

end Sys2Proof.Steps
end

section
/-!
The registers as the host sees them (10_state.md R19 to R37, 70_reset_and_hazards.md R143, R146): what an
offset reads, what a write to it does, and the state after reset.
-/

namespace Sys2Proof.Registers

open Sys2Proof Sys2Proof.Machine Sys2Proof.Safety Sys2Proof.Laws Sys2Proof.Commands Sys2Proof.Steps

/-! ### What the registers read -/

theorem mmioValue_pbase (s : State) (b : Fin 2) (p : PlaneIdx) :
    mmioValue s (0x040 + 16 * b.val + 4 * p.val) = (s.pbase[b])[p] := by
  fin_cases b <;> fin_cases p <;> rfl

theorem mmioValue_pdim (s : State) (p : PlaneIdx) :
    mmioValue s (0x060 + 4 * p.val) = s.ph[p] ++ s.pw[p] := by
  fin_cases p <;> rfl

theorem mmioValue_ppitch (s : State) (p : PlaneIdx) :
    mmioValue s (0x070 + 4 * p.val) = 0#16 ++ s.pitch[p] := by
  fin_cases p <;> rfl

theorem mmioValue_xctx (s : State) (c : CtxIdx) :
    mmioValue s (0x080 + 4 * c.val) = xctxWord (context s c) := by
  fin_cases c <;> rfl

/-- R20: reserved offsets read 0. -/
theorem mmioValue_reserved (s : State) (off : Nat)
    (h : 0x028 ≤ off ∧ off < 0x040 ∨ 0x090 ≤ off ∧ off < 0x100 ∨ 0x130 ≤ off ∧ off < 0x180 ∨
      0x1E8 ≤ off ∧ off < 0x200 ∨ 0x400 ≤ off) : mmioValue s off = 0#32 := by
  unfold mmioValue
  iterate 28 rw [if_neg (by omega)]

theorem toNat_append_eq_add {v w : Nat} (a : BitVec v) (b : BitVec w) :
    (a ++ b).toNat = 2 ^ w * a.toNat + b.toNat := by
  rw [BitVec.toNat_append, Nat.shiftLeft_eq, Nat.mul_comm, Nat.two_pow_add_eq_or_of_lt b.isLt]

/-- R32: KIND in bits 1:0, TYPE in bits 5:4, BITS in bits 12:8, and 0 elsewhere. -/
theorem xctxWord_eq (x : Context) :
    xctxWord x = BitVec.ofNat 32 (x.kind.code.toNat + 16 * x.type.toNat + 256 * x.bits.toNat) := by
  apply BitVec.eq_of_toNat_eq
  simp only [xctxWord, toNat_append_eq_add, BitVec.toNat_ofNat]
  omega

/-! ### What a write to a register does -/

/-- A host write to an aligned word, as a step (R51). -/
theorem step_mmioWrite {s : State} {ms : List HostMove} {off : BitVec 12} {v : Word}
    (h : s.host = .mmioWrite .word off v :: ms) (hoff : off.toNat % 4 = 0) :
    step s = .next (mmioStore { s with host := ms } off.toNat v) := by
  rw [step_of_host_cons h]
  simp [hostStep, mmioAccessOk, hoff]

theorem mmioStore_ctrl (s : State) (v : Word) : mmioStore s 0x008 v = writeCtrl s v := rfl

theorem mmioStore_status (s : State) (v : Word) : mmioStore s 0x00C v = writeStatus s v := rfl

theorem mmioStore_cmdptr (s : State) (v : Word) :
    mmioStore s 0x010 v = writeWhenIdle s { s with cmdptr := alignWord v } := rfl

theorem mmioStore_planesel (s : State) (v : Word) :
    mmioStore s 0x020 v = writeWhenIdle s { s with cur := bufferIndex v.toNat } := rfl

theorem mmioStore_pbase (s : State) (b : Fin 2) (p : PlaneIdx) (v : Word) :
    mmioStore s (0x040 + 16 * b.val + 4 * p.val) v = writeWhenIdle s (writePbase s b p v) := by
  fin_cases b <;> fin_cases p <;> rfl

theorem mmioStore_pdim (s : State) (p : PlaneIdx) (v : Word) :
    mmioStore s (0x060 + 4 * p.val) v = writeWhenIdle s (writePdim s p v) := by
  fin_cases p <;> rfl

theorem mmioStore_ppitch (s : State) (p : PlaneIdx) (v : Word) :
    mmioStore s (0x070 + 4 * p.val) v = writeWhenIdle s (writePpitch s p v) := by
  fin_cases p <;> rfl

theorem writeWhenIdle_idle {s : State} (h : s.busy = false) (t : State) : writeWhenIdle s t = t := by
  simp [writeWhenIdle, h]

theorem writeWhenIdle_busy {s : State} (h : s.busy = true) (t : State) : writeWhenIdle s t = s := by
  simp [writeWhenIdle, h]

/-- R146: while BUSY = 1 only CTRL and STATUS take a write. -/
theorem mmioStore_busy {s : State} (h : s.busy = true) {off : Nat} (v : Word) (hctrl : off ≠ 0x008)
    (hstatus : off ≠ 0x00C) : mmioStore s off v = s := by
  simp [mmioStore, hctrl, hstatus, writeWhenIdle_busy h]

/-- R20: read-only registers and reserved offsets ignore writes. -/
theorem mmioStore_ignored (s : State) {off : Nat} (v : Word) (hctrl : off ≠ 0x008) (hstatus : off ≠ 0x00C)
    (hptr : off ≠ 0x010) (hsel : off ≠ 0x020) (h : off < 0x040 ∨ 0x080 ≤ off) : mmioStore s off v = s := by
  unfold mmioStore
  rw [if_neg hctrl, if_neg hstatus, if_neg hptr, if_neg hsel, if_neg (by omega), if_neg (by omega),
    if_neg (by omega)]

theorem writeCtrl_start {s : State} {v : Word} (hv : v.getLsbD 0 = true) (h : s.busy = false) :
    writeCtrl s v = startRun { s with irqEn := v.getLsbD 1 } := by
  simp [writeCtrl, hv, h]

theorem writeCtrl_noStart {s : State} {v : Word} (h : v.getLsbD 0 = false ∨ s.busy = true) :
    writeCtrl s v = { s with irqEn := v.getLsbD 1 } := by
  refine if_neg fun hstart => ?_
  obtain ⟨hv, hidle⟩ := Bool.and_eq_true_iff.1 hstart
  rcases h with h | h <;> simp_all

theorem writeStatus_cleared {s : State} (v : Word) (hdone : s.done = false) (herr : s.err = false) :
    writeStatus s v = s := by
  cases s
  simp_all [writeStatus]

/-! ### The obligations on host accesses -/

/-- Settles O55: the two branches of a write to CTRL (R24). -/
theorem hostStartsRun : Obligations.HostStartsRun := by
  intro v s ms h
  rw [step_mmioWrite h rfl]
  refine ⟨fun hv hbusy => ?_, fun hv => ?_⟩
  · exact congrArg _ ((mmioStore_ctrl _ v).trans (writeCtrl_start hv hbusy))
  · exact congrArg _ ((mmioStore_ctrl _ v).trans (writeCtrl_noStart hv))

theorem statusWord_bits (s : State) :
    (statusWord s).getLsbD 0 = s.busy ∧ (statusWord s).getLsbD 1 = s.done ∧
    (statusWord s).getLsbD 2 = s.err ∧ (statusWord s).getLsbD 3 = irq s ∧
    ∀ k, 4 ≤ k → (statusWord s).getLsbD k = false := by
  simp only [statusWord, BitVec.getLsbD_append]
  refine ⟨by simp, by simp, by simp, by simp, fun k hk => ?_⟩
  rw [if_neg (by omega), if_neg (by omega), if_neg (by omega), if_neg (by omega), BitVec.getLsbD_zero]

/-- Settles O56: STATUS bit by bit, and a write to it is `writeStatus`. -/
theorem statusAndInterrupt : Obligations.StatusAndInterrupt := by
  intro s
  obtain ⟨hbusy, hdone, herr, hirq, hzero⟩ := statusWord_bits s
  exact ⟨rfl, hbusy, hdone, herr, hirq, hzero, fun v ms h =>
    (step_mmioWrite h rfl).trans (congrArg _ (mmioStore_status _ v))⟩

theorem mmioAccessOk_iff (width : AccessWidth) (off : BitVec 12) :
    mmioAccessOk width off = true ↔ width = .word ∧ off.toNat % 4 = 0 := by
  simp [mmioAccessOk]

/-- Settles O57: an access is a move iff it is an aligned word; offset and BUSY decide which writes count. -/
theorem hostRegisterAccess : Obligations.HostRegisterAccess := by
  intro s ms width off v
  refine ⟨fun h => ⟨fun hok => ?_, fun hbad => ?_⟩, fun h => ⟨fun hbad => ?_, ?_⟩,
    mmioValue_reserved s off.toNat⟩
  · rw [step_of_host_cons h, hostStep, if_pos ((mmioAccessOk_iff width off).2 hok)]
    rfl
  · rw [step_of_host_cons h, hostStep, if_neg (mt (mmioAccessOk_iff width off).1 hbad)]
  · rw [step_of_host_cons h, hostStep, if_neg (mt (mmioAccessOk_iff width off).1 hbad)]
  · rintro rfl hoff
    rw [step_mmioWrite h hoff]
    refine ⟨fun hbusy hctrl hstatus => ?_, fun _ hdone herr hstatus => ?_,
      fun hctrl hstatus hptr hsel hrange => ?_⟩
    · exact congrArg _ (mmioStore_busy (s := { s with host := ms }) hbusy v (BitVec.toNat_ne.1 hctrl)
        (BitVec.toNat_ne.1 hstatus))
    · subst hstatus
      exact congrArg _ ((mmioStore_status _ v).trans (writeStatus_cleared v hdone herr))
    · exact congrArg _ (mmioStore_ignored _ v (BitVec.toNat_ne.1 hctrl) (BitVec.toNat_ne.1 hstatus)
        (BitVec.toNat_ne.1 hptr) (BitVec.toNat_ne.1 hsel) hrange)

/-! ### The plane registers -/

theorem bufferIndex_word (v : Word) : BitVec.ofNat 32 (bufferIndex v.toNat).val = v &&& 1#32 := by
  apply BitVec.eq_of_toNat_eq
  simp [bufferIndex, Nat.and_one_is_mod]
  omega

theorem lowHalf_word (v : Word) : 0#16 ++ v.extractLsb' 0 16 = v &&& 0xFFFF#32 := by
  apply BitVec.eq_of_toNat_eq
  have h : v.toNat &&& 65535 = v.toNat % 65536 := Nat.and_two_pow_sub_one_eq_mod v.toNat 16
  rw [toNat_append_eq_add]
  simp [h]

/-- A host write while BUSY = 0, to a register that takes it then, as a step. -/
theorem step_idleWrite {s : State} {ms : List HostMove} {off : BitVec 12} {v : Word} (f : State → State)
    (h : s.host = .mmioWrite .word off v :: ms) (hbusy : s.busy = false) (hoff : off.toNat % 4 = 0)
    (hf : ∀ u, mmioStore u off.toNat v = writeWhenIdle u (f u)) :
    step s = .next (f { s with host := ms }) := by
  rw [step_mmioWrite h hoff, hf]
  exact congrArg _ (writeWhenIdle_idle (s := { s with host := ms }) hbusy _)

theorem getElem_set_ne {α : Type} {n : Nat} (xs : Vector α n) (x : α) {p q : Fin n} (h : q ≠ p) :
    (xs.set p x)[q] = xs[q] :=
  Vector.getElem_set_ne p.isLt q.isLt fun e => h (Fin.ext e.symm)

theorem planeBase_writePbase (s : State) (b : Fin 2) (p : PlaneIdx) (v : Word) (d : Fin 2) (q : PlaneIdx) :
    planeBase (writePbase s b p v) d q = if (d, q) = (b, p) then v.toNat else planeBase s d q := by
  by_cases hd : d = b
  · subst hd
    by_cases hq : q = p
    · subst hq; simp [planeBase, writePbase]
    · simp [planeBase, writePbase, hq, getElem_set_ne _ _ hq]
  · simp [planeBase, writePbase, hd, getElem_set_ne _ _ hd]

theorem pdim_writePdim (s : State) (p q : PlaneIdx) (v : Word) :
    mmioValue (writePdim s p v) (0x060 + 4 * q.val) =
      if q = p then v else mmioValue s (0x060 + 4 * q.val) := by
  simp only [mmioValue_pdim, writePdim]
  split
  · rename_i h
    subst h
    simpa using BitVec.extractLsb'_append_extractLsb' (w := 16) (len := 16) (x := v)
  · rename_i h
    rw [getElem_set_ne _ _ h, getElem_set_ne _ _ h]

theorem ppitch_writePpitch (s : State) (p q : PlaneIdx) (v : Word) :
    mmioValue (writePpitch s p v) (0x070 + 4 * q.val) =
      if q = p then v &&& 0xFFFF#32 else mmioValue s (0x070 + 4 * q.val) := by
  simp only [mmioValue_ppitch, writePpitch]
  split
  · rename_i h
    subst h
    simpa using lowHalf_word v
  · rename_i h
    rw [getElem_set_ne _ _ h]

/-- Settles O58: each register takes the write while BUSY = 0, and reads it back at its own offset. -/
theorem planeRegistersReadBack : Obligations.PlaneRegistersReadBack := by
  intro s ms b p off v hbusy h
  refine ⟨?_, ?_, fun hoff => ?_, fun hoff => ?_, fun hoff => ?_⟩
  · rintro rfl
    exact step_idleWrite (fun u => { u with cmdptr := alignWord v }) h hbusy rfl (mmioStore_cmdptr · v)
  · rintro rfl
    exact ⟨_, step_idleWrite (fun u => { u with cur := bufferIndex v.toNat }) h hbusy rfl
      (mmioStore_planesel · v), rfl, bufferIndex_word v⟩
  · refine ⟨_, step_idleWrite (writePbase · b p v) h hbusy (by omega) fun u => ?_, rfl, ?_, ?_,
      fun d q hne => ?_⟩
    · rw [hoff, mmioStore_pbase]
    · rw [hoff, mmioValue_pbase]
      simp [writePbase]
    · rw [planeBase_writePbase, if_pos rfl]
    · rw [planeBase_writePbase, if_neg hne]; rfl
  · refine ⟨_, step_idleWrite (writePdim · p v) h hbusy (by omega) fun u => ?_, rfl, ?_, fun q hq => ?_⟩
    · rw [hoff, mmioStore_pdim]
    · rw [hoff, pdim_writePdim, if_pos rfl]
    · rw [pdim_writePdim, if_neg hq]; rfl
  · refine ⟨_, step_idleWrite (writePpitch · p v) h hbusy (by omega) fun u => ?_, rfl, ?_, fun q hq => ?_⟩
    · rw [hoff, mmioStore_ppitch]
    · rw [hoff, ppitch_writePpitch, if_pos rfl]
    · rw [ppitch_writePpitch, if_neg hq]; rfl

/-! ### Reset -/

theorem ite_eq_of_both {α : Type} {p : Prop} [Decidable p] {a b c : α} (ha : a = c) (hb : b = c) :
    (if p then a else b) = c := by
  split <;> assumption

/-- R19, R143: after reset every register but ID, VERSION and DMEMSIZE reads 0. -/
theorem mmioValue_reset (off : Nat) (hid : off ≠ 0x000) (hversion : off ≠ 0x004) (hsize : off ≠ 0x024) :
    mmioValue State.reset off = 0#32 := by
  have hpbase : ∀ (b : Fin 2) (p : PlaneIdx), (State.reset.pbase[b])[p] = 0#32 := by
    intro b p
    simp [State.reset]
  have hpdim : ∀ p : PlaneIdx, pdimWord State.reset p = 0#32 := by
    intro p
    simp [pdimWord, State.reset]
  have hppitch : ∀ p : PlaneIdx, ppitchWord State.reset p = 0#32 := by
    intro p
    simp [ppitchWord, State.reset]
  have hxctx : ∀ c : CtxIdx, xctxWord State.reset.ctx[c] = 0#32 := by
    intro c
    simp [State.reset, xctxWord, Context.off, XfKind.code]
  have hband : ∀ i, abandWord State.reset.track i = 0#32 := by
    intro i
    by_cases hi : i < 26 <;> simp [abandWord, State.reset, Track.off, hi]
  have hprev : ∀ i, aprevWord State.reset.track i = 0#32 := by
    intro i
    simp [aprevWord, prevRead, State.reset, Track.off]
  unfold mmioValue
  rw [if_neg hid, if_neg hversion]
  simp only [hsize, if_false, hpbase, hpdim, hppitch, hxctx, hband, hprev]
  repeat refine ite_eq_of_both rfl ?_
  rfl

/-- R143, R144: the state after reset meets every invariant. -/
theorem sound_reset : Sound State.reset where
  params := by decide
  memory := ⟨reset_dmem_wf, nofun⟩
  flags := ⟨rfl, rfl, rfl⟩
  pointers := ⟨rfl, rfl⟩
  errors := ⟨Nat.zero_le _, nofun, fun _ => ⟨rfl, rfl⟩⟩
  contexts := contextsOk_reset
  track := .inl rfl

/-- Settles O19: the invariants and the registers of the reset state, and a reset move, which is `warmReset`. -/
theorem resetState : Obligations.ResetState :=
  ⟨sound_reset, rfl, mmioValue_reset, rfl, rfl, rfl, fun _ _ h => ⟨_, step_of_host_cons h, rfl, fun _ => rfl⟩⟩

/-! ### Registers that commands write -/

/-- Settles O22: XF_CFG's one check passes, and the context is written whole. -/
theorem xfCfgConfiguresContext : Obligations.XfCfgConfiguresContext := by
  intro c kind type bits s hwf hfft hrdft hdct
  have hrange : bitsInRange kind bits = true := by
    cases kind with
    | none => rfl
    | fft => exact decide_eq_true (hfft rfl)
    | rdft => exact decide_eq_true (hrdft rfl)
    | dct => exact decide_eq_true (hdct rfl)
  have hsize : bits.toNat ≤ 16 := by
    cases kind with
    | none =>
      obtain ⟨-, rfl⟩ : type = 0#2 ∧ bits = 0#8 := by simpa [Instr.wellFormed, xfCombinationOk] using hwf
      decide
    | fft => exact (hfft rfl).2
    | rdft => exact (hrdft rfl).2
    | dct => exact (hdct rfl).2.trans (by decide)
  have hbits : (bits.setWidth 5).toNat = bits.toNat := by
    rw [BitVec.toNat_setWidth]; omega
  have hself : context (setContext s c ⟨kind, type, bits.setWidth 5⟩) c = ⟨kind, type, bits.setWidth 5⟩ := by
    rw [context_setContext, if_pos rfl]
  refine ⟨{ setContext s c ⟨kind, type, bits.setWidth 5⟩ with cmdptr := nextCommand s.cmdptr 0 },
    check_of_true hrange .xfBits _ s _, rfl, ?_, ?_, ?_, fun d hd => ?_, ?_⟩
  · exact congrArg Context.kind hself
  · exact congrArg Context.type hself
  · exact (congrArg (·.bits.toNat) hself).trans hbits
  · exact (context_setContext s c d _).trans (if_neg hd)
  · refine (mmioValue_xctx _ c).trans ((congrArg xctxWord hself).trans ?_)
    rw [xctxWord_eq, hbits]

theorem otherBuffer_val (b : Fin 2) : (otherBuffer b).val = 1 - b.val := by
  fin_cases b <;> rfl

theorem otherBuffer_otherBuffer (b : Fin 2) : otherBuffer (otherBuffer b) = b := by
  fin_cases b <;> rfl

/-- Settles O51: the buffer bases follow CUR, and swapping twice is no swap. -/
theorem mcSwapTogglesBuffers : Obligations.McSwapTogglesBuffers := by
  intro s
  refine ⟨_, rfl, rfl, otherBuffer_val s.cur, fun p => ⟨rfl, ?_⟩⟩
  exact congrArg (planeBase s · p) (otherBuffer_otherBuffer s.cur)

end Sys2Proof.Registers
end

section
/-!
The audio track: what AUD_CFG builds (44_audio.md R113), its bands (R114, R115), and the packet without blocks
(R116, R117).
-/

namespace Sys2Proof.AudioTrack

open Sys2Proof Sys2Proof.Machine Sys2Proof.Safety Sys2Proof.Laws Sys2Proof.Steps

/-! ### The sizes of a configured track -/

/-- fb is 9 to 12; only interleaved stereo reaches 12 (R113). -/
theorem frameBits_bounds (rate : Nat) (codec : Codec) (stereo : Bool) :
    9 ≤ frameBits rate codec stereo ∧ frameBits rate codec stereo ≤ 12 := by
  unfold frameBits
  split_ifs <;> omega

theorem two_pow_frameBits_bounds (rate : Nat) (codec : Codec) (stereo : Bool) :
    2 ≤ 2 ^ frameBits rate codec stereo ∧ 2 ^ frameBits rate codec stereo ≤ 4096 := by
  obtain ⟨hlow, hhigh⟩ := frameBits_bounds rate codec stereo
  exact ⟨Nat.le_self_pow (by omega) 2, Nat.pow_le_pow_right (n := 2) (by decide) hhigh⟩

/-- The effective rate of a configured track, against its frame length: half of it stays below 100 times half
the frame, so the first boundary after 0 is at least 2. -/
theorem halfRate_effectiveRate_le (rate : Half) (codec : Codec) (stereo : Bool) :
    halfRate (effectiveRate rate.toNat codec stereo) ≤ 100 * (2 ^ frameBits rate.toNat codec stereo / 2) := by
  have := rate.isLt
  unfold halfRate effectiveRate frameBits
  split_ifs <;> omega

theorem configuredTrack_frameLen (rate : Half) (codec : Codec) (stereo : Bool) :
    (configuredTrack rate codec stereo).frameLen.toNat = 2 ^ frameBits rate.toNat codec stereo := by
  obtain ⟨-, h⟩ := two_pow_frameBits_bounds rate.toNat codec stereo
  exact Nat.mod_eq_of_lt (by omega)

theorem configuredTrack_effRate (rate : Half) (codec : Codec) (stereo : Bool) :
    (configuredTrack rate codec stereo).effRate.toNat = effectiveRate rate.toNat codec stereo := by
  have := rate.isLt
  refine Nat.mod_eq_of_lt ?_
  unfold effectiveRate
  split_ifs <;> omega

theorem configuredTrack_overlap (rate : Half) (codec : Codec) (stereo : Bool) :
    (configuredTrack rate codec stereo).overlap.toNat = 2 ^ frameBits rate.toNat codec stereo / 16 := by
  obtain ⟨-, h⟩ := two_pow_frameBits_bounds rate.toNat codec stereo
  exact Nat.mod_eq_of_lt (by omega)

theorem channelCount_le_two (codec : Codec) (stereo : Bool) : channelCount codec stereo ≤ 2 := by
  unfold channelCount
  split_ifs <;> omega

theorem channelCount_eq (codec : Codec) (stereo : Bool) :
    channelCount codec stereo = if !interleaved codec stereo && stereo then 2 else 1 := by
  cases codec <;> cases stereo <;> rfl

theorem configuredTrack_outCh (rate : Half) (codec : Codec) (stereo : Bool) :
    (configuredTrack rate codec stereo).outCh.toNat = if stereo then 2 else 1 := by
  cases stereo <;> rfl

theorem configuredTrack_ch (rate : Half) (codec : Codec) (stereo : Bool) :
    (configuredTrack rate codec stereo).ch.toNat = channelCount codec stereo :=
  Nat.mod_eq_of_lt (Nat.lt_succ_of_lt (Nat.lt_succ_of_le (channelCount_le_two codec stereo)))

theorem configuredTrack_blockSize (rate : Half) (codec : Codec) (stereo : Bool) :
    (configuredTrack rate codec stereo).blockSize.toNat =
      (2 ^ frameBits rate.toNat codec stereo - 2 ^ frameBits rate.toNat codec stereo / 16) *
        channelCount codec stereo := by
  obtain ⟨-, hF⟩ := two_pow_frameBits_bounds rate.toNat codec stereo
  have h := Nat.mul_le_mul ((Nat.sub_le _ (2 ^ frameBits rate.toNat codec stereo / 16)).trans hF)
    (channelCount_le_two codec stereo)
  exact Nat.mod_eq_of_lt (by omega)

theorem configuredTrack_xfBits (rate : Half) (codec : Codec) (stereo : Bool) :
    (configuredTrack rate codec stereo).xfBits.toNat = frameBits rate.toNat codec stereo := by
  obtain ⟨-, h⟩ := frameBits_bounds rate.toNat codec stereo
  exact Nat.mod_eq_of_lt (by omega)

/-- R113: 2/sqrt(F) in binary32 for the four frame lengths, evaluated. -/
theorem rootOf_two_pow {fb : Nat} (hlow : 9 ≤ fb) (hhigh : fb ≤ 12) :
    (rootOf (2 ^ fb)).bits = if fb = 9 then 0x3DB504F3#32 else if fb = 10 then 0x3D800000#32
      else if fb = 11 then 0x3D3504F3#32 else 0x3D000000#32 := by
  interval_cases fb <;> decide +kernel

theorem interleaved_flags (flags : Half) :
    interleaved (codecOfFlags flags) (stereoOfFlags flags) = (!flags.getLsbD 12 && flags.getLsbD 13) := by
  unfold codecOfFlags stereoOfFlags
  cases flags.getLsbD 12 <;> rfl

/-- AUD_CFG with a nonzero rate passes its check. -/
theorem exec_audCfg_pass {rate : Half} (flags : Half) (s : State) (h : rate ≠ 0#16) :
    exec (.audCfg rate flags) s =
      complete 1 { s with track := configuredTrack rate (codecOfFlags flags) (stereoOfFlags flags) } :=
  check_of_true (bne_iff_ne.2 h) _ _ _ _

/-- Settles O31: AUD_CFG's one check, then the configured track field by field. -/
theorem audCfgBuildsTrack : Obligations.AudCfgBuildsTrack := by
  intro rate flags s
  refine ⟨fun h => check_of_false (by simp [h]) _ _ _ _, fun h => ?_⟩
  intro dct stereo inter fb ch
  have hfb : frameBits rate.toNat (codecOfFlags flags) (stereoOfFlags flags) = fb := by
    rw [frameBits, interleaved_flags]
  have hch : channelCount (codecOfFlags flags) (stereoOfFlags flags) = ch := by
    rw [channelCount_eq, interleaved_flags]
    rfl
  obtain ⟨hlow, hhigh⟩ := frameBits_bounds rate.toNat (codecOfFlags flags) (stereoOfFlags flags)
  refine ⟨_, exec_audCfg_pass flags s h, rfl, rfl, rfl, rfl, rfl, (configuredTrack_ch _ _ _).trans hch,
    configuredTrack_outCh _ _ _, rfl, ?_, ?_, ?_, ?_, ?_, ?_, rfl, rfl, rfl, rfl,
    prevAt_configuredTrack _ _ _, rfl⟩
  · rw [← hfb]; exact configuredTrack_frameLen _ _ _
  · rw [← hfb]; exact configuredTrack_overlap _ _ _
  · rw [← hfb, ← hch]; exact configuredTrack_blockSize _ _ _
  · rw [← hfb]; exact configuredTrack_xfBits _ _ _
  · refine (configuredTrack_effRate _ _ _).trans ?_
    rw [effectiveRate, interleaved_flags]
  · rw [← hfb]
    exact rootOf_two_pow hlow hhigh

/-! ### The band count -/

/-- The loop of R115 from `nb` on stops at 25 or at the first band whose critical frequency reaches srh. -/
theorem countBands_spec (srh : Nat) {turns nb : Nat} (h0 : 1 ≤ nb) (h1 : nb ≤ 25) (hturns : 25 ≤ turns + nb)
    (hbelow : ∀ k, k + 1 < nb → crit k < srh) :
    let n := countBands srh turns nb
    nb ≤ n ∧ n ≤ 25 ∧ (∀ k, k + 1 < n → crit k < srh) ∧ (n = 25 ∨ srh ≤ crit (n - 1)) := by
  induction turns generalizing nb with
  | zero => exact ⟨le_refl _, h1, hbelow, .inl (by rw [countBands]; omega)⟩
  | succ turns ih =>
    rw [countBands]
    split
    · rename_i hmore
      obtain ⟨hle, hrest⟩ := ih (nb := nb + 1) (by omega) (by omega) (by omega) (by
        intro k hk
        rcases Nat.lt_or_ge (k + 1) nb with h | h
        · exact hbelow k h
        · obtain rfl : k = nb - 1 := by omega
          exact hmore.2)
      exact ⟨by omega, hrest⟩
    · exact ⟨le_refl _, h1, hbelow, by omega⟩

theorem crit_mono {i j : Nat} (h : i ≤ j) (hj : j < 25) : crit i ≤ crit j := by
  have hall : ∀ j < 25, ∀ i ≤ j, crit i ≤ crit j := by decide
  exact hall j hj i h

theorem hundred_le_crit {i : Nat} (h : i < 25) : 100 ≤ crit i := crit_mono (Nat.zero_le i) h

/-- R115: NBANDS is the least band count whose critical frequency reaches srh, or 25. -/
theorem bandCount_spec (effRate : Nat) :
    1 ≤ bandCount effRate ∧ bandCount effRate ≤ 25 ∧
    (∀ k, k + 1 < bandCount effRate → crit k < halfRate effRate) ∧
    (bandCount effRate = 25 ∨ halfRate effRate ≤ crit (bandCount effRate - 1)) :=
  countBands_spec (halfRate effRate) (le_refl 1) (by decide) (by decide) fun k hk => by omega

/-! ### The boundaries -/

section Boundaries

variable {effRate F : Nat}

theorem bandBound_zero : bandBound effRate F 0 = 2 := rfl

theorem bandBound_inner {i : Nat} (h1 : 1 ≤ i) (h2 : i < bandCount effRate) :
    bandBound effRate F i = 2 * (crit (i - 1) * (F / 2) / halfRate effRate) := by
  simp only [bandBound]
  rw [if_neg (by omega), if_pos h2]

theorem bandBound_last : bandBound effRate F (bandCount effRate) = F := by
  obtain ⟨h1, -⟩ := bandCount_spec effRate
  simp only [bandBound]
  rw [if_neg (by omega), if_neg (lt_irrefl _), if_pos trivial]

theorem bandBound_beyond {i : Nat} (h : bandCount effRate < i) : bandBound effRate F i = 0 := by
  simp only [bandBound]
  rw [if_neg (by omega), if_neg (by omega), if_neg (by omega)]

/-- An inner boundary lies below F, as its critical frequency lies below srh. -/
theorem bandBound_inner_lt (hF : 2 ≤ F) {i : Nat} (h1 : 1 ≤ i) (h2 : i < bandCount effRate) :
    bandBound effRate F i < F := by
  obtain ⟨-, -, hbelow, -⟩ := bandCount_spec effRate
  have hcrit : crit (i - 1) < halfRate effRate := hbelow (i - 1) (by omega)
  have hdiv : crit (i - 1) * (F / 2) / halfRate effRate < F / 2 :=
    Nat.div_lt_of_lt_mul (Nat.mul_lt_mul_of_pos_right hcrit (by omega))
  rw [bandBound_inner h1 h2]
  omega

/-- An inner boundary is at least 2, as half the effective rate is at most 100 times half the frame. -/
theorem two_le_bandBound_inner (hpos : 1 ≤ halfRate effRate) (hrate : halfRate effRate ≤ 100 * (F / 2))
    {i : Nat} (h1 : 1 ≤ i) (h2 : i < bandCount effRate) : 2 ≤ bandBound effRate F i := by
  obtain ⟨-, hle, -, -⟩ := bandCount_spec effRate
  have hcrit : 100 ≤ crit (i - 1) := hundred_le_crit (by omega)
  have hdiv : 0 < crit (i - 1) * (F / 2) / halfRate effRate :=
    Nat.div_pos (hrate.trans (Nat.mul_le_mul_right _ hcrit)) hpos
  rw [bandBound_inner h1 h2]
  omega

theorem bandBound_inner_mono {i j : Nat} (h1 : 1 ≤ i) (hij : i ≤ j) (h2 : j < bandCount effRate) :
    bandBound effRate F i ≤ bandBound effRate F j := by
  obtain ⟨-, hle, -, -⟩ := bandCount_spec effRate
  have hcrit : crit (i - 1) ≤ crit (j - 1) := crit_mono (by omega) (by omega)
  rw [bandBound_inner h1 (by omega), bandBound_inner (by omega) h2]
  exact Nat.mul_le_mul_left 2 (Nat.div_le_div_right (Nat.mul_le_mul_right _ hcrit))

/-- The boundaries never fall: 2, the inner ones in the order of the critical frequencies, F. -/
theorem bandBound_mono (hF : 2 ≤ F) (hpos : 1 ≤ halfRate effRate) (hrate : halfRate effRate ≤ 100 * (F / 2))
    {i j : Nat} (hij : i ≤ j) (hj : j ≤ bandCount effRate) :
    bandBound effRate F i ≤ bandBound effRate F j := by
  rcases Nat.eq_or_lt_of_le hij with rfl | hlt
  · exact le_refl _
  rcases Nat.eq_zero_or_pos i with rfl | hi
  · rw [bandBound_zero]
    rcases Nat.eq_or_lt_of_le hj with rfl | hj
    · rwa [bandBound_last]
    · exact two_le_bandBound_inner hpos hrate hlt hj
  · rcases Nat.eq_or_lt_of_le hj with rfl | hj
    · rw [bandBound_last]
      exact (bandBound_inner_lt hF hi hlt).le
    · exact bandBound_inner_mono hi hij hj

theorem bandBound_le (hF : 2 ≤ F) (i : Nat) : bandBound effRate F i ≤ F := by
  rcases Nat.eq_zero_or_pos i with rfl | hi
  · exact hF
  rcases Nat.lt_trichotomy i (bandCount effRate) with h | rfl | h
  · exact (bandBound_inner_lt hF hi h).le
  · exact bandBound_last.le
  · exact (bandBound_beyond h).trans_le (Nat.zero_le F)

end Boundaries

theorem configuredTrack_nBands (rate : Half) (codec : Codec) (stereo : Bool) :
    (configuredTrack rate codec stereo).nBands.toNat = bandCount (effectiveRate rate.toNat codec stereo) := by
  obtain ⟨-, hle, -⟩ := bandCount_spec (effectiveRate rate.toNat codec stereo)
  exact Nat.mod_eq_of_lt (by omega)

/-- The table of a configured track holds its boundaries; they fit a word, and beyond entry 25 they are 0. -/
theorem bandAt_configuredTrack (rate : Half) (codec : Codec) (stereo : Bool) (i : Nat) :
    bandAt (configuredTrack rate codec stereo) i =
      bandBound (effectiveRate rate.toNat codec stereo) (2 ^ frameBits rate.toNat codec stereo) i := by
  obtain ⟨hlow, hhigh⟩ := two_pow_frameBits_bounds rate.toNat codec stereo
  by_cases hi : i < 26
  · have hle := bandBound_le (effRate := effectiveRate rate.toNat codec stereo) hlow i
    have hentry : bandAt (configuredTrack rate codec stereo) i = bandBound
        (effectiveRate rate.toNat codec stereo) (2 ^ frameBits rate.toNat codec stereo) i % 2 ^ 32 := by
      simp [bandAt, configuredTrack, bandVector, hi]
    rw [hentry, Nat.mod_eq_of_lt (by omega)]
  · obtain ⟨-, hle, -⟩ := bandCount_spec (effectiveRate rate.toNat codec stereo)
    rw [bandBound_beyond (by omega)]
    simp [bandAt, hi]

/-- Settles O32: the band count and the boundaries of R115 at the track's frame length and effective rate. -/
theorem bandBoundaries : Obligations.BandBoundaries := by
  intro rate codec stereo hrate
  have hpos : 1 ≤ halfRate (effectiveRate rate.toNat codec stereo) := by
    have : rate.toNat ≠ 0 := fun h => hrate (BitVec.eq_of_toNat_eq h)
    unfold halfRate effectiveRate
    split_ifs <;> omega
  have hle := halfRate_effectiveRate_le rate codec stereo
  obtain ⟨hlow, -⟩ := two_pow_frameBits_bounds rate.toNat codec stereo
  obtain ⟨h1, h25, hbelow, hstop⟩ := bandCount_spec (effectiveRate rate.toNat codec stereo)
  simp only [configuredTrack_frameLen, configuredTrack_effRate, configuredTrack_nBands,
    bandAt_configuredTrack]
  refine ⟨h1, h25, hbelow, hstop, bandBound_zero, bandBound_last, fun i hi => bandBound_beyond hi,
    fun i hi hlt => ?_, fun i j hij hj => bandBound_mono hlow hpos hle hij hj⟩
  have hinner := bandBound_inner (F := 2 ^ frameBits rate.toNat codec stereo) hi hlt
  exact ⟨hinner, by omega, bandBound_inner_lt hlow hi hlt⟩

/-! ### A packet without blocks -/

/-- Settles O34: the checks pass, and a packet of less than four bytes has no block to decode. -/
theorem audPktEmptyPacket : Obligations.AudPktEmptyPacket := by
  intro src avail dst cap s hok hlen
  obtain ⟨hvalid, hfault, hdst, hsrc, hout, havail, hfits⟩ := hok
  change execAudPkt src avail dst cap s = _
  rw [execAudPkt, check_of_true (by simp [hvalid, hfault]), check_of_true ((alignedTo_iff _ _).2 hdst),
    check_of_true ((inDmem_iff _ _ _).2 hsrc), check_of_true ((inDmem_iff _ _ _).2 hout),
    check_of_true (decide_eq_true havail), check_of_true (decide_eq_true hfits), audPacket, if_pos hlen]
  rfl

end Sys2Proof.AudioTrack
end

section
/-!
What commands and the host write to DMEM (20_memory.md R40 to R52): only bytes of DMEM, in its canonical form.
AUD_PKT writes only its output area (44_audio.md R117), and the host one byte at a time.
-/

namespace Sys2Proof.MemoryForm

open Sys2Proof Sys2Proof.Machine Sys2Proof.Safety Sys2Proof.Laws Sys2Proof.Commands Sys2Proof.Steps
open Sys2Proof.BufferLaws

/-! ### Checks that a command's later writes rest on -/

theorem endsWithin_mono {k : Nat} {E F : State → Prop} {o : Out} (h : EndsWithin k E o)
    (hEF : ∀ u, E u → F u) : EndsWithin k F o := by
  intro t ht
  obtain ⟨u, hu, hend⟩ := h t ht
  exact ⟨u, hEF u hu, hend⟩

theorem endsWithin_region {k : Nat} {E : State → Prop} {align len : Nat} {a : Word} {u : State} {o : Out}
    (h : E u) (ho : a.toNat + len ≤ u.params.dmemSize → EndsWithin k E o) :
    EndsWithin k E (checkRegion align len a u o) :=
  endsWithin_check h fun _ => endsWithin_check h fun hin => ho ((inDmem_iff _ _ _).1 hin)

theorem endsWithin_touch {k : Nat} {E : State → Prop} {base pitch : Nat} {u : State} {o : Out}
    (ho : (∀ r, r < 8 → base + r * pitch + 8 ≤ u.params.dmemSize) → EndsWithin k E o) :
    EndsWithin k E (touchBlock base pitch u o) := by
  intro t ht
  obtain ⟨hrows, hnext⟩ := touchBlock_next ht
  exact ho hrows t hnext

/-! ### Properties that AUD_PKT keeps -/

/-- `E` is kept by every write of a packet whose blocks fit an output area of `cap` samples (R117). -/
structure KeptByBlocks (dst cap : Nat) (E : State → Prop) : Prop where
  fault : ∀ u, E u → E (faultTrack u)
  packet : ∀ src len reported u, E u → E (beginPacket src len reported u)
  block : ∀ chans u, E u → u.track.outCnt.toNat + u.track.blockSize.toNat ≤ cap →
    E (commitBlock dst chans u)

/-- The block loop, by induction on its turns: a block is committed only where its samples fit. -/
theorem KeptByBlocks.packetLoop {dst cap : Nat} {E : State → Prop} (hE : KeptByBlocks dst cap E)
    (b : BitSource) (n pos : Nat) {u : State} (hu : E u) : EndsWithin 4 E (packetLoop b dst cap n pos u) := by
  induction n generalizing pos u with
  | zero => exact endsWithin_complete hu
  | succ n ih =>
    have hfault := hE.fault u hu
    unfold Machine.packetLoop
    split
    · exact endsWithin_complete hu
    · split
      · exact endsWithin_raise _ _ hfault
      · rename_i hcap
        split
        · exact endsWithin_raise _ _ hfault
        · exact ih _ (hE.block _ u hu (Nat.le_of_not_lt hcap))

/-- AUD_PKT keeps such a property, which may rest on its output area lying inside DMEM. -/
theorem endsWithin_audPkt_of_kept {src avail dst cap : Word} {s : State} {E : State → Prop} (hs : E s)
    (hE : dst.toNat + 2 * cap.toNat ≤ s.params.dmemSize → KeptByBlocks dst.toNat cap.toNat E) :
    EndsWithin 4 E (exec (.audPkt src avail dst cap) s) := by
  refine endsWithin_check hs fun _ => endsWithin_check hs fun _ => endsWithin_check hs fun _ =>
    endsWithin_check hs fun hdst => endsWithin_check hs fun _ => endsWithin_check hs fun _ => ?_
  have hkept := hE ((inDmem_iff _ _ _).1 hdst)
  unfold audPacket
  split
  · exact endsWithin_complete (hkept.packet _ _ _ s hs)
  · exact hkept.packetLoop _ _ _ (hkept.packet _ _ _ s hs)

/-- The bytes a block writes: two for each emitted sample. -/
theorem halfBytes_length (hs : List Half) : (hs.flatMap bytesOfHalf).length = 2 * hs.length := by
  simp [List.length_flatMap, Nat.mul_comm]

/-! ### The canonical form -/

theorem memoryOk_store {s : State} {a : Nat} {bs : List Byte} (h : MemoryOk s)
    (hfit : a + bs.length ≤ s.params.dmemSize) : MemoryOk (store s a bs) := by
  obtain ⟨hwf, hwithin⟩ := h
  exact ⟨storeMem_wf _ _ _ hwf, storeMem_within _ _ _ _ hwithin hfit⟩

theorem memoryOk_store_words {s : State} {a len : Nat} {ws : List Word} (h : MemoryOk s)
    (hlen : 4 * ws.length = len) (hfit : a + len ≤ s.params.dmemSize) :
    MemoryOk (store s a (bytesOfWords ws)) :=
  memoryOk_store h (by rwa [bytesOfWords_length, hlen])

theorem memoryOk_writeBlock {s : State} {base pitch : Nat} (px : List Byte) (h : MemoryOk s)
    (hrows : ∀ r, r < 8 → base + r * pitch + 8 ≤ s.params.dmemSize) :
    MemoryOk (writeBlock s base pitch px) := by
  obtain ⟨hwf, hwithin⟩ := h
  have hparams : (writeBlock s base pitch px).params = s.params := by rw [writeBlock_eq]
  refine ⟨writeBlock_wf s base pitch px hwf, ?_⟩
  rw [hparams]
  exact writeBlock_within s base pitch _ px hrows hwithin

/-- The permuted buffer has the size of the buffer (R79). -/
theorem permutedWords_length {x : Context} {ws : List Word} (hx : x.kind = .fft) :
    (permutedWords x ws).length = bufferElems x := by
  simp [permutedWords, bufferElems, hx]

theorem calculated_bufferElems (s : State) (x : Context) (a : Nat) :
    (calculated s.params x (readFloats s a (bufferElems x))).length = bufferElems x := by
  rw [calculated_length _ _ _ (readFloats_length _ _ _), readFloats_length]

/-- A command that writes one block of pixels. -/
theorem endsWithin_touchDst {k : Nat} {p : PlaneIdx} {pos : BlockPos} {s : State} (px : List Byte)
    (h : MemoryOk s) : EndsWithin k MemoryOk (touchDst p pos s (complete k (putBlock p pos px s))) :=
  endsWithin_touch fun hrows => endsWithin_complete (memoryOk_writeBlock px h hrows)

/-- A block of samples that fits the output area is written inside DMEM (R117). -/
theorem keptByBlocks_memoryOk {dst cap size : Nat} (h : dst + 2 * cap ≤ size) :
    KeptByBlocks dst cap fun u => MemoryOk u ∧ u.params.dmemSize = size where
  fault _ hu := hu
  packet _ _ _ _ hu := hu
  block chans u hu hcap := by
    obtain ⟨hmem, rfl⟩ := hu
    refine ⟨memoryOk_store hmem ?_, rfl⟩
    rw [halfBytes_length, emitted_length]
    omega

/-- What a command other than END writes lies inside DMEM: it checks its region first (R47). -/
theorem exec_endsWithin_memoryOk (i : Instr) {s : State} (hi : i ≠ .endList) (h : MemoryOk s) :
    EndsWithin i.argCount MemoryOk (exec i s) := by
  cases i with
  | nop => exact endsWithin_complete h
  | endList => exact absurd rfl hi
  | xfCfg c kind type bits => exact endsWithin_check h fun _ => endsWithin_complete h
  | xfPerm c addr =>
    refine endsWithin_check h fun hkind => endsWithin_region h fun hfit => endsWithin_complete ?_
    exact memoryOk_store_words h (congrArg (4 * ·) (permutedWords_length (beq_iff_eq.1 hkind))) hfit
  | xfCalc c addr =>
    refine endsWithin_check h fun _ => endsWithin_region h fun hfit => endsWithin_complete ?_
    refine memoryOk_store_words h (congrArg (4 * ·) ?_) hfit
    rw [floatImages_length, calculated_bufferElems]
  | audCfg rate flags => exact endsWithin_check h fun _ => endsWithin_complete h
  | audPkt src avail dst cap =>
    exact endsWithin_mono (endsWithin_audPkt_of_kept ⟨h, rfl⟩ keptByBlocks_memoryOk) fun _ hu => hu.1
  | mcSkip p pos =>
    exact endsWithin_checkBlock h (endsWithin_touchBlock (endsWithin_touchDst _ h))
  | mcMotion p dx dy pos =>
    exact endsWithin_checkBlock h (endsWithin_check h fun _ =>
      endsWithin_touchBlock (endsWithin_touchDst _ h))
  | mcResidue p dx dy pos blk =>
    exact endsWithin_checkBlock h (endsWithin_check h fun _ => endsWithin_checkRegion h
      (endsWithin_touchBlock (endsWithin_touchDst _ h)))
  | mcIdctPut p pos blk =>
    exact endsWithin_checkBlock h (endsWithin_checkRegion h (endsWithin_touchDst _ h))
  | mcIdctAdd p pos blk =>
    exact endsWithin_checkBlock h (endsWithin_checkRegion h (endsWithin_touchDst _ h))
  | mcIdct blk =>
    exact endsWithin_region h fun hfit =>
      endsWithin_complete (memoryOk_store_words h (by rw [idct_length]) hfit)
  | mcDequant blk qtab =>
    exact endsWithin_region h fun hfit => endsWithin_checkRegion h
      (endsWithin_complete (memoryOk_store_words h (by rw [dequant_length]) hfit))
  | mcSwap => exact endsWithin_complete h

theorem memoryOk_of_ends {k : Nat} {u t : State} (hu : MemoryOk u) (h : Ends k u t) : MemoryOk t := by
  cases h <;> exact hu

theorem memoryOk_of_exec {i : Instr} {s t : State} (h : MemoryOk s) (hexec : exec i s = .next t) :
    MemoryOk t := by
  by_cases hi : i = .endList
  · subst hi
    obtain rfl := Host.Outcome.next.inj hexec
    exact h
  · obtain ⟨u, hu, hend⟩ := exec_endsWithin_memoryOk i hi h t hexec
    exact memoryOk_of_ends hu hend

theorem memoryOk_of_seqStep {s t : State} (h : MemoryOk s) (hstep : seqStep s = .next t) : MemoryOk t := by
  unfold seqStep at hstep
  split at hstep
  · split at hstep
    · obtain rfl := Host.Outcome.next.inj hstep
      exact h
    · exact memoryOk_of_exec h hstep
  · obtain rfl := Host.Outcome.next.inj hstep
    exact h

/-- The MMIO window does not reach DMEM (R41). -/
theorem memory_of_mmioWrites {s t : State} {v : Word} (h : MmioWrites s v t) :
    t.dmem = s.dmem ∧ t.params = s.params := by
  cases h with
  | ctrl => unfold writeCtrl; dsimp only; split <;> exact ⟨rfl, rfl⟩
  | status | cmdptr | planes => exact ⟨rfl, rfl⟩

theorem memoryOk_congr {s t : State} (hdmem : t.dmem = s.dmem) (hparams : t.params = s.params)
    (h : MemoryOk s) : MemoryOk t := by
  rwa [MemoryOk, hdmem, hparams]

/-! ### The host's accesses -/

theorem hostDmem_idle {s : State} {a : Word} {k : Out} (hbusy : s.busy = false)
    (hin : a.toNat < s.params.dmemSize) : hostDmem s a k = k := by
  have h : inDmem s a.toNat 1 = true := (inDmem_iff _ _ _).2 hin
  simp [hostDmem, hbusy, h]

theorem hostDmem_busy {s : State} {a : Word} {k : Out} (hbusy : s.busy = true) :
    hostDmem s a k = .refused (.hostDmemWhileBusy a) := if_pos hbusy

/-- A host access that has a move lies inside DMEM (R42). -/
theorem hostDmem_inside {s t : State} {a : Word} {k : Out} (h : hostDmem s a k = .next t) :
    a.toNat < s.params.dmemSize := by
  unfold hostDmem at h
  split at h
  · cases h
  · split at h
    · rename_i hin
      exact (inDmem_iff _ _ _).1 hin
    · cases h

theorem memoryOk_of_hostStep {m : HostMove} {s t : State} (h : MemoryOk s) (hstep : hostStep m s = .next t) :
    MemoryOk t := by
  cases m with
  | wait => exact memoryOk_of_seqStep h hstep
  | mmioRead width off =>
    simp only [hostStep] at hstep
    split at hstep
    · obtain rfl := Host.Outcome.next.inj hstep
      exact h
    · cases hstep
  | mmioWrite width off v =>
    simp only [hostStep] at hstep
    split at hstep
    · obtain rfl := Host.Outcome.next.inj hstep
      obtain ⟨hdmem, hparams⟩ := memory_of_mmioWrites (mmioStore_writes s off.toNat v)
      exact memoryOk_congr hdmem hparams h
    · cases hstep
  | dmemRead a =>
    obtain rfl := Host.Outcome.next.inj (hostDmem_next hstep)
    exact h
  | dmemWrite a v =>
    have hin := hostDmem_inside hstep
    obtain rfl := Host.Outcome.next.inj (hostDmem_next hstep)
    exact memoryOk_store h hin
  | reset =>
    obtain rfl := Host.Outcome.next.inj hstep
    exact h

/-! ### The obligations -/

/-- Settles O13: commands and the host write inside DMEM, and every write keeps the canonical form. -/
theorem memoryFormKept : Obligations.MemoryFormKept := by
  intro s t hs h
  cases hhost : s.host with
  | nil => exact memoryOk_of_seqStep hs (step_of_host_nil hhost ▸ h)
  | cons m ms =>
    rw [step_of_host_cons hhost] at h
    exact memoryOk_of_hostStep (s := { s with host := ms }) hs h

/-- A block of samples that fits the output area leaves every byte outside it. -/
theorem keptByBlocks_sameOutside (dst cap : Nat) (s : State) :
    KeptByBlocks dst cap (SameOutside (InRegion dst (2 * cap)) s) where
  fault _ hu := hu
  packet _ _ _ _ hu := hu
  block chans u hu hcap := by
    intro x hx
    refine (readByte_store_outside _ _ _ _ ?_).trans (hu x hx)
    rw [halfBytes_length, emitted_length]
    simp only [InRegion] at hx
    omega

theorem readByte_of_ends {k : Nat} {u t : State} (h : Ends k u t) (x : Nat) :
    readByte t x = readByte u x := by
  cases h <;> rfl

/-- AUD_PKT's effect on the registers: the track, and nothing of another unit (R33 to R37). -/
theorem audPkt_frame {src avail dst cap : Word} {s t : State}
    (h : exec (.audPkt src avail dst cap) s = .next t) :
    t = { s with dmem := t.dmem, draws := t.draws, track := t.track, cmdptr := t.cmdptr, busy := t.busy,
                 err := t.err, errCode := t.errCode, errPc := t.errPc, errInfo := t.errInfo } := by
  rcases exec_next h with ⟨hi, -⟩ | ⟨-, u, hu, hend⟩
  · cases hi
  · rw [hend.frame]
    cases hu <;> rfl

/-- Settles O37: the registers by the command's effect, the bytes by what its block loop keeps. -/
theorem audPktWritesOnlyItsOutput : Obligations.AudPktWritesOnlyItsOutput := by
  intro src avail dst cap s t h
  refine ⟨audPkt_frame h, fun x hx => ?_⟩
  obtain ⟨u, hu, hend⟩ :=
    endsWithin_audPkt_of_kept (fun _ _ => rfl) (fun _ => keptByBlocks_sameOutside dst.toNat cap.toNat s) t h
  exact (readByte_of_ends hend x).trans (hu x hx)

/-- Settles O59: an access while BUSY = 0 is a read or a store of one byte; while BUSY = 1 it is refused. -/
theorem hostDmemAccess : Obligations.HostDmemAccess := by
  intro s ms a v
  refine ⟨fun h => ?_, fun h => ?_⟩ <;> rw [step_of_host_cons h]
  · refine ⟨fun hbusy hin => ?_, hostDmem_busy (s := { s with host := ms })⟩
    refine ⟨_, hostDmem_idle (s := { s with host := ms }) hbusy hin, rfl, ?_, fun x hx => ?_⟩
    · exact readByte_store_inside _ a.toNat [v] 0 Nat.zero_lt_one
    · refine readByte_store_outside { s with host := ms } a.toNat [v] x ?_
      simp only [List.length_singleton]
      omega
  · refine ⟨fun hbusy hin => ?_, hostDmem_busy (s := { s with host := ms })⟩
    refine (hostDmem_idle (s := { s with host := ms }) hbusy hin).trans ?_
    rw [BitVec.ofNat_toNat]
    rfl

end Sys2Proof.MemoryForm
end

section
/-!
Fetching (40_control.md R66): the sequencer fetches the words that the decoder takes from the bytes at CMDPTR,
and raises FETCH at the first word outside DMEM.
-/

namespace Sys2Proof.Fetching

open Sys2Proof Sys2Proof.Machine Sys2Proof.Safety Sys2Proof.Laws Sys2Proof.Steps

/-! ### Words taken from the bytes of DMEM -/

theorem readBytes_add_four (s : State) (a n : Nat) :
    readBytes s a (n + 4) = readByte s a :: readByte s (a + 1) :: readByte s (a + 2) :: readByte s (a + 3) ::
      readBytes s (a + 4) n := by
  simp [readBytes, List.range_succ_eq_map, Nat.add_assoc, Nat.add_comm 4, Function.comp_def]

/-- The decoder's words of the n bytes at `a` are the words fetched there, and the bytes after them follow. -/
theorem fetchArgs_of_takeWords {s : State} {k a n : Nat} {ws : List Word} {rest : List Byte}
    (hfit : a + n ≤ s.params.dmemSize) (h : takeWords k (readBytes s a n) = some (ws, rest)) :
    fetchArgs s k a = .ok ws ∧
      ∃ m, rest = readBytes s (a + 4 * k) m ∧ a + 4 * k + m ≤ s.params.dmemSize := by
  induction k generalizing a n ws rest with
  | zero =>
    obtain ⟨rfl, rfl⟩ := Prod.mk.inj (Option.some.inj h)
    exact ⟨rfl, n, rfl, hfit⟩
  | succ k ih =>
    by_cases hn : 4 ≤ n
    · obtain ⟨m, rfl⟩ := Nat.exists_eq_add_of_le' hn
      rw [readBytes_add_four, takeWords] at h
      split at h
      · rename_i ws' rest' htake
        obtain ⟨rfl, rfl⟩ := Prod.mk.inj (Option.some.inj h)
        obtain ⟨hargs, m', hrest, hfit'⟩ := ih (by omega) htake
        refine ⟨?_, m', ?_, by omega⟩
        · rw [fetchArgs, if_pos ((inDmem_iff _ _ _).2 (by omega)), hargs]
          rfl
        · rw [hrest]
          congr 1
          omega
      · cases h
    · exfalso
      have : n = 0 ∨ n = 1 ∨ n = 2 ∨ n = 3 := by omega
      rcases this with rfl | rfl | rfl | rfl <;> cases h

/-- What decodes from the bytes at CMDPTR is the command that the sequencer fetches. -/
theorem fetchCommand_of_decode {s : State} {i : Instr} {n : Nat} {rest : List Byte}
    (hfit : s.cmdptr.toNat + n ≤ s.params.dmemSize)
    (h : decode (readBytes s s.cmdptr.toNat n) = .ok (i, rest)) : fetchCommand s = .ok i := by
  unfold decode at h
  split at h
  · rename_i hw bs htake
    obtain ⟨hheader, m, rfl, hfit'⟩ := fetchArgs_of_takeWords hfit htake
    have hin : inDmem s s.cmdptr.toNat 4 = true := (inDmem_iff _ _ _).2 (by omega)
    rw [fetchArgs, if_pos hin] at hheader
    obtain rfl : readWord s s.cmdptr.toNat = hw := List.head_eq_of_cons_eq (Except.ok.inj hheader)
    split at h
    · cases h
    · rename_i hd hdec
      split at h
      · rename_i args rest' hargs
        obtain ⟨hfetch, -⟩ := fetchArgs_of_takeWords hfit' hargs
        split at h
        · rename_i i' hbuild
          obtain ⟨rfl, -⟩ := Prod.mk.inj (Except.ok.inj h)
          simp only [fetchCommand, hin, if_true, hdec]
          rw [Nat.mul_one] at hfetch
          simp only [hfetch, hbuild]
        · cases h
      · cases h
  · cases h

theorem seqStep_of_decode {s : State} {i : Instr} {n : Nat} {rest : List Byte} (hbusy : s.busy = true)
    (hfit : s.cmdptr.toNat + n ≤ s.params.dmemSize)
    (h : decode (readBytes s s.cmdptr.toNat n) = .ok (i, rest)) : seqStep s = exec i s := by
  rw [seqStep, if_pos hbusy, fetchCommand_of_decode hfit h]

/-- Settles O5: the turn of the sequencer does not depend on the host's moves left. -/
theorem stepRunsDecodedCommand : Obligations.StepRunsDecodedCommand := by
  intro s i n rest hbusy hfit hdec
  refine ⟨fun hhost => ?_, fun ms hhost => ?_⟩
  · exact (step_of_host_nil hhost).trans (seqStep_of_decode hbusy hfit hdec)
  · exact (step_of_host_cons hhost).trans (seqStep_of_decode (s := { s with host := ms }) hbusy hfit hdec)

/-! ### Words outside DMEM -/

/-- Argument word j is the first one outside DMEM: its address is the error. -/
theorem fetchArgs_outside {s : State} {n a j : Nat} (hj : j < n) (hin : a + 4 * j ≤ s.params.dmemSize)
    (hout : s.params.dmemSize < a + 4 * j + 4) : fetchArgs s n a = .error (a + 4 * j) := by
  induction n generalizing a j with
  | zero => exact absurd hj (Nat.not_lt_zero j)
  | succ n ih =>
    cases j with
    | zero => rw [fetchArgs, if_neg (by rw [inDmem_iff]; omega)]; rfl
    | succ j =>
      have hrest : fetchArgs s n (a + 4) = .error (a + 4 + 4 * j) := ih (by omega) (by omega) (by omega)
      rw [fetchArgs, if_pos ((inDmem_iff _ _ _).2 (by omega)), hrest,
        show a + 4 + 4 * j = a + 4 * (j + 1) by omega]

theorem step_of_fetchError {s : State} {e : BteError} {info : Word} (hs : Running s)
    (h : fetchCommand s = .error (e, info)) : step s = .next (takeError e info s) := by
  obtain ⟨hhost, hbusy⟩ := hs
  rw [step_of_host_nil hhost, seqStep, if_pos hbusy, h]
  rfl

/-- Settles O6: the header word is checked first, then the argument words in order. -/
theorem fetchOutsideDmemRaises : Obligations.FetchOutsideDmemRaises := by
  intro s hs
  refine ⟨fun hout => step_of_fetchError hs ?_, fun hd j hheader hdec hj hin hout =>
    step_of_fetchError hs ?_⟩
  · exact if_neg (by rw [inDmem_iff]; omega)
  · simp only [fetchCommand, (inDmem_iff _ _ _).2 hheader, if_true, hdec, fetchArgs_outside hj hin hout]

end Sys2Proof.Fetching
end

section
/-!
AUD_PKT's checks (44_audio.md R117) and the bits of a packet (20_memory.md R45, 44_audio.md R119).
-/

namespace Sys2Proof.PacketInput

open Sys2Proof Sys2Proof.Machine Sys2Proof.Safety Sys2Proof.Laws

/-! ### The checks -/

theorem inDmem_eq_false {s : State} {a len : Nat} (h : s.params.dmemSize < a + len) :
    inDmem s a len = false := decide_eq_false (Nat.not_le_of_lt h)

theorem alignedTo_eq_false {n : Nat} {a : Word} (h : a.toNat % n ≠ 0) : alignedTo n a = false :=
  beq_eq_false_iff_ne.2 h

theorem mmioValue_acfg (s : State) : mmioValue s 0x100 = acfgWord s.track := rfl

/-- Settles O33: each check raises its error where the checks before it pass. -/
theorem audPktChecksInOrder : Obligations.AudPktChecksInOrder := by
  intro src avail dst cap s L out
  rw [mmioValue_acfg, show out = execAudPkt src avail dst cap s from rfl, execAudPkt]
  refine ⟨fun hstate => check_of_false ?_ _ _ _ _, fun hvalid hfault => ?_⟩
  · rcases hstate with h | h <;> simp [h]
  rw [check_of_true (by simp [hvalid, hfault])]
  refine ⟨fun hdst => check_of_false (alignedTo_eq_false hdst) _ _ _ _, fun hdst => ?_⟩
  rw [check_of_true ((alignedTo_iff _ _).2 hdst)]
  refine ⟨fun hsrc => check_of_false (inDmem_eq_false hsrc) _ _ _ _, fun hsrc => ?_⟩
  rw [check_of_true ((inDmem_iff _ _ _).2 hsrc)]
  refine ⟨fun harea => check_of_false (inDmem_eq_false harea) _ _ _ _, fun harea => ?_⟩
  rw [check_of_true ((inDmem_iff _ _ _).2 harea)]
  refine ⟨fun havail => check_of_false (decide_eq_false (Nat.not_le_of_lt havail)) _ _ _ _,
    fun havail hlen => ?_⟩
  rw [check_of_true (decide_eq_true havail)]
  exact check_of_false (decide_eq_false (Nat.not_le_of_lt hlen)) _ _ _ _

/-! ### The bits of a packet -/

/-- Bit k of the bytes' little-endian integer is bit k mod 8 of byte k / 8 (R45). -/
theorem testBit_natOfBytes (bs : List Byte) (k : Nat) : (natOfBytes bs).testBit k = bitOf bs k := by
  induction bs generalizing k with
  | nil => simp [natOfBytes, bitOf]
  | cons b bs ih =>
    rw [natOfBytes, Nat.add_comm, show 256 = 2 ^ 8 from rfl, Nat.testBit_two_pow_mul_add _ b.isLt]
    split
    · rename_i hk
      rw [bitOf, Nat.div_eq_of_lt hk, Nat.mod_eq_of_lt hk]
      rfl
    · rename_i hk
      obtain ⟨j, rfl⟩ := Nat.exists_eq_add_of_le' (Nat.le_of_not_lt hk)
      rw [Nat.add_sub_cancel, ih, bitOf, bitOf, Nat.add_div_right j (by decide), Nat.add_mod_right]
      rfl

/-- The n bits of a number from bit `pos` on are the sum of R119, one bit more at each turn. -/
theorem bits_mod_two_pow (bs : List Byte) (pos n : Nat) :
    (natOfBytes bs >>> pos) % 2 ^ n = bitSum bs pos n := by
  induction n with
  | zero => simp [bitSum, Nat.mod_one]
  | succ n ih =>
    rw [bitSum, ← ih, ← testBit_natOfBytes, ← Nat.testBit_shiftRight, Nat.mod_pow_succ,
      ← Nat.toNat_testBit]
    cases (natOfBytes bs >>> pos).testBit n <;> simp

/-- Settles O39: `get(n)` compares with NBITS and takes the bits of the bytes' little-endian integer. -/
theorem bitReaderReadsLsbFirst : Obligations.BitReaderReadsLsbFirst := by
  intro bs n pos
  refine ⟨fun hin => ?_, fun hout => if_pos hout⟩
  rw [getBits, bitSourceOf, if_neg (Nat.not_lt_of_le hin), bits_mod_two_pow]

end Sys2Proof.PacketInput
end

section
/-!
The motion-compensation commands that pass their checks (43_motion.md R98 to R109): one block of pixels or of
coefficients written, with all inputs read from the start state.
-/

namespace Sys2Proof.BlockWrites

open Sys2Proof Sys2Proof.Machine Sys2Proof.Safety Sys2Proof.Laws Sys2Proof.BufferLaws

/-! ### Checks that pass -/

section Passes

variable {p : PlaneIdx} {pos : BlockPos} {dx dy : BitVec 8} {blk : Word} {s : State} (k : Out)

theorem checkBlock_pass (hp : PlaneOk s p) (hpos : PosOk s p pos) : checkBlock p pos s k = k := by
  rw [checkBlock, check_of_true ((planeValid_iff s p).2 hp), check_of_true ((blockLegal_iff s p pos).2 hpos)]

theorem checkBounds_pass (hr : RefOk s p pos dx dy) : checkBounds p pos dx dy s k = k :=
  check_of_true ((refLegal_iff s p pos dx dy).2 hr) _ _ _ _

theorem checkCoefs_pass (hb : RegionOk s blk 256) : checkCoefs blk s k = k := by
  obtain ⟨halign, hfits⟩ := hb
  exact checkRegion_pass k halign hfits

theorem touchDst_of_ok (hp : PlaneOk s p) (hpos : PosOk s p pos) : touchDst p pos s k = k :=
  touchDst_pass k ((planeValid_iff s p).2 hp) ((blockLegal_iff s p pos).2 hpos)

theorem touchRef_of_ok (hp : PlaneOk s p) (hr : RefOk s p pos dx dy) : touchRef p pos dx dy s k = k :=
  touchRef_pass k ((planeValid_iff s p).2 hp) ((refLegal_iff s p pos dx dy).2 hr)

end Passes

/-! ### One block of pixels written -/

/-- A command of K argument words completes from `s` with the block at `pos` of plane p written with the
pixels `px r c`; nothing else changes but CMDPTR. -/
def WritesPixels (o : Out) (k : Nat) (s : State) (p : PlaneIdx) (pos : BlockPos)
    (px : Nat → Nat → Byte) : Prop :=
  ∃ t, o = .next t ∧
    t = { s with dmem := t.dmem, cmdptr := nextCommand s.cmdptr k } ∧
    (∀ r c, r < 8 → c < 8 →
      readByte t (pixelAddr (blockDst s p pos) (planePitch s p) r c) = px r c) ∧
    SameOutside (InBlock (blockDst s p pos) (planePitch s p)) s t

/-- The common end of the MC commands: 64 pixels in raster order, put and completed. -/
theorem writesPixels_putBlock {k : Nat} {s : State} {p : PlaneIdx} {pos : BlockPos} {bytes : List Byte}
    {px : Nat → Nat → Byte} (hp : PlaneOk s p) (hlen : bytes.length = 64)
    (hpx : ∀ r c, r < 8 → c < 8 → bytes.getD (8 * r + c) 0#8 = px r c) :
    WritesPixels (complete k (putBlock p pos bytes s)) k s p pos px := by
  obtain ⟨hframe, hin, hout⟩ :=
    putBlock_spec (pos := pos) (planeValid_pitch ((planeValid_iff s p).2 hp)) hlen
  generalize putBlock p pos bytes s = u at hframe hin hout
  refine ⟨{ u with cmdptr := nextCommand u.cmdptr k }, rfl, ?_,
    fun r c hr hc => (hin r c hr hc).trans (hpx r c hr hc),
    fun x hx => hout x fun r c hr hc hx' => hx ⟨r, c, hr, hc, hx'⟩⟩
  rw [hframe]

/-- Pixel (r, c) of the reference is the old buffer's byte at o + r·PITCH + c (R103). -/
theorem refBlock_getD (s : State) (p : PlaneIdx) (pos : BlockPos) (dx dy : BitVec 8) {r c : Nat} (hr : r < 8)
    (hc : c < 8) : (refBlock s p pos dx dy).getD (8 * r + c) 0#8 =
      readByte s (pixelAddr (oldBase s p + (refOffset s p pos dx dy).toNat) (planePitch s p) r c) :=
  readBlock_getD s _ _ r c hr hc _

/-- Pixel (r, c) of a block with a word of a coefficient block added, modulo 256 (R104, R108). -/
theorem addPixels_pixel {bytes : List Byte} {ws : List Word} (hb : bytes.length = 64) (hw : ws.length = 64)
    {r c : Nat} (hr : r < 8) (hc : c < 8) :
    (addPixels bytes ws).getD (8 * r + c) 0#8 =
      bytes.getD (8 * r + c) 0#8 + (wordAt ws (8 * r + c)).setWidth 8 :=
  addPixels_getD _ _ _ (by omega) (by omega)

theorem addPixels_length {bytes : List Byte} {ws : List Word} (hb : bytes.length = 64) (hw : ws.length = 64) :
    (addPixels bytes ws).length = 64 := by
  simp [addPixels, hb, hw]

/-- Settles O45: MCCOPY with the checks passed. -/
theorem mcMotionCopiesDisplaced : Obligations.McMotionCopiesDisplaced := by
  intro p dx dy pos s hp hpos hr
  have hexec : exec (.mcMotion p dx dy pos) s = complete 1 (putBlock p pos (refBlock s p pos dx dy) s) := by
    change execMcMotion p dx dy pos s = _
    rw [execMcMotion, checkBlock_pass _ hp hpos, checkBounds_pass _ hr, mcCopy, touchRef_of_ok _ hp hr,
      touchDst_of_ok _ hp hpos]
  rw [hexec]
  exact writesPixels_putBlock hp (refBlock_length _ _ _ _ _) fun r c => refBlock_getD s p pos dx dy

/-- Settles O46: the reference block plus the low bytes of the words at blk. -/
theorem mcResidueAddsResidue : Obligations.McResidueAddsResidue := by
  intro p dx dy pos blk s hp hpos hr hb
  have hexec : exec (.mcResidue p dx dy pos blk) s =
      complete 2 (putBlock p pos (addPixels (refBlock s p pos dx dy) (readCoefs s blk)) s) := by
    change execMcResidue p dx dy pos blk s = _
    rw [execMcResidue, checkBlock_pass _ hp hpos, checkBounds_pass _ hr, checkCoefs_pass _ hb,
      touchRef_of_ok _ hp hr, touchDst_of_ok _ hp hpos]
  have href := refBlock_length s p pos dx dy
  have hcoefs := readCoefs_length s blk
  rw [hexec]
  refine writesPixels_putBlock hp (addPixels_length href hcoefs) fun r c hr hc => ?_
  rw [addPixels_pixel href hcoefs hr hc, refBlock_getD s p pos dx dy hr hc,
    wordAt_readCoefs s blk _ (by omega)]

/-- Settles O47: the low bytes of the inverse DCT, pixel by pixel. -/
theorem mcIdctPutStoresOutputs : Obligations.McIdctPutStoresOutputs := by
  intro p pos blk s hp hpos hb
  have hexec : exec (.mcIdctPut p pos blk) s =
      complete 2 (putBlock p pos ((idct (readCoefs s blk)).map lowByte) s) := by
    change execMcIdctPut p pos blk s = _
    rw [execMcIdctPut, checkBlock_pass _ hp hpos, checkCoefs_pass _ hb, touchDst_of_ok _ hp hpos]
  rw [hexec]
  refine writesPixels_putBlock hp (by simp) fun r c hr hc => ?_
  exact List.getD_map _ 0#32 lowByte

/-- Settles O48: the current block plus the low bytes of the inverse DCT. -/
theorem mcIdctAddAddsOutputs : Obligations.McIdctAddAddsOutputs := by
  intro p pos blk s hp hpos hb
  have hexec : exec (.mcIdctAdd p pos blk) s =
      complete 2 (putBlock p pos (addPixels (curBlock s p pos) (idct (readCoefs s blk))) s) := by
    change execMcIdctAdd p pos blk s = _
    rw [execMcIdctAdd, checkBlock_pass _ hp hpos, checkCoefs_pass _ hb, touchDst_of_ok _ hp hpos]
  have hcur := curBlock_length s p pos
  have hidct := idct_length (readCoefs s blk)
  rw [hexec]
  refine writesPixels_putBlock hp (addPixels_length hcur hidct) fun r c hr hc => ?_
  rw [addPixels_pixel hcur hidct hr hc, curBlock, readBlock_getD _ _ _ _ _ hr hc]
  rfl

/-! ### One block of coefficients written -/

/-- Settles O49: word k of the block is output k of the inverse DCT, computed from the start state. -/
theorem mcIdctReplacesBlock : Obligations.McIdctReplacesBlock := by
  intro blk s hb
  have hexec : exec (.mcIdct blk) s = complete 1 (putCoefs blk (idct (readCoefs s blk)) s) :=
    checkCoefs_pass _ hb
  exact ⟨_, hexec, rfl, fun k hk => readWord_store_words s blk.toNat _ k (by simpa),
    sameOutside_store_words s blk.toNat _ 256 (by simp)⟩

end Sys2Proof.BlockWrites
end

section
/-!
Encoding (30_encoding.md R57 to R63): a byte sequence decodes to a command exactly where the command is
well-formed and the bytes begin with its encoding.
-/

namespace Sys2Proof.Encoding

open Sys2Proof Sys2Proof.Safety Sys2Proof.Laws Sys2Proof.Steps

/-! ### The fields of a header word -/

section Fields

variable (opc fa fb fc : BitVec 8)

@[simp] theorem opcField_headerWord : opcField (headerWord opc fa fb fc) = opc :=
  BitVec.extractLsb'_append_eq_right

@[simp] theorem faField_headerWord : faField (headerWord opc fa fb fc) = fa :=
  (BitVec.extractLsb'_append_eq_of_le (Nat.le_refl 8)).trans BitVec.extractLsb'_append_eq_right

@[simp] theorem fbField_headerWord : fbField (headerWord opc fa fb fc) = fb :=
  (BitVec.extractLsb'_append_eq_of_le (show 8 ≤ 16 by decide)).trans
    ((BitVec.extractLsb'_append_eq_of_le (Nat.le_refl 8)).trans BitVec.extractLsb'_append_eq_right)

@[simp] theorem fcField_headerWord : fcField (headerWord opc fa fb fc) = fc :=
  (BitVec.extractLsb'_append_eq_of_le (show 8 ≤ 24 by decide)).trans
    ((BitVec.extractLsb'_append_eq_of_le (show 8 ≤ 16 by decide)).trans BitVec.extractLsb'_append_eq_left)

end Fields

/-- The four fields make the header up again (R57). -/
theorem headerWord_fields (h : Word) :
    headerWord (opcField h) (faField h) (fbField h) (fcField h) = h := wordOfBytes_extract h

/-! ### Words taken from bytes -/

/-- The bytes of a word are the four that it is made of; byte k stands where a header has its field k. -/
theorem bytesOfWord_wordOfBytes (b0 b1 b2 b3 : Byte) :
    bytesOfWord (wordOfBytes b0 b1 b2 b3) = [b0, b1, b2, b3] := by
  change [opcField (headerWord b0 b1 b2 b3), faField (headerWord b0 b1 b2 b3),
    fbField (headerWord b0 b1 b2 b3), fcField (headerWord b0 b1 b2 b3)] = _
  simp

theorem takeWords_bytesOfWords (ws : List Word) (rest : List Byte) :
    takeWords ws.length (bytesOfWords ws ++ rest) = some (ws, rest) := by
  induction ws with
  | nil => rfl
  | cons w ws ih =>
    have hbytes : bytesOfWords (w :: ws) ++ rest = w.extractLsb' 0 8 :: w.extractLsb' 8 8 ::
        w.extractLsb' 16 8 :: w.extractLsb' 24 8 :: (bytesOfWords ws ++ rest) := rfl
    rw [hbytes, List.length_cons, takeWords, ih]
    exact congrArg (fun v => some (v :: ws, rest)) (wordOfBytes_extract w)

/-- The words taken are n, and their bytes are the ones they were taken from. -/
theorem bytes_of_takeWords {n : Nat} {bs rest : List Byte} {ws : List Word}
    (h : takeWords n bs = some (ws, rest)) : ws.length = n ∧ bs = bytesOfWords ws ++ rest := by
  induction n generalizing bs ws with
  | zero =>
    obtain ⟨rfl, rfl⟩ := Prod.mk.inj (Option.some.inj h)
    exact ⟨rfl, rfl⟩
  | succ n ih =>
    unfold takeWords at h
    split at h
    · contradiction
    · rename_i m b0 b1 b2 b3 tail hm
      obtain rfl : n = m := by omega
      split at h
      · rename_i ws' rest' htake
        obtain ⟨rfl, rfl⟩ := Prod.mk.inj (Option.some.inj h)
        obtain ⟨hlen, rfl⟩ := ih htake
        refine ⟨congrArg (· + 1) hlen, ?_⟩
        have hcons : bytesOfWords (wordOfBytes b0 b1 b2 b3 :: ws') =
            bytesOfWord (wordOfBytes b0 b1 b2 b3) ++ bytesOfWords ws' := rfl
        rw [hcons, bytesOfWord_wordOfBytes]
        rfl
      · cases h
    · cases h

/-! ### The fields FA and FB -/

theorem indexOf_eq_some_iff {fa : BitVec 8} {i : Fin 4} : indexOf fa = some i ↔ fa = indexField i := by
  unfold indexOf
  constructor
  · intro h
    split at h
    · obtain rfl := Option.some.inj h
      exact (BitVec.eq_of_toNat_eq (by simp [indexField]))
    · cases h
  · rintro rfl
    fin_cases i <;> rfl

theorem indexOf_eq_none_iff {fa : BitVec 8} : indexOf fa = none ↔ 3 < fa.toNat := by
  unfold indexOf
  split <;> simp <;> omega

theorem kindOfCode_code (kind : XfKind) : kindOfCode kind.code = kind := by
  cases kind <;> rfl

theorem code_kindOfCode : ∀ k : BitVec 2, (kindOfCode k).code = k := by decide

/-- XF_CFG's FB: type and kind in bits 1:0 and 5:4, and nothing in the others (R59). -/
theorem eq_xfByte_iff {fb : BitVec 8} {kind : XfKind} {type : BitVec 2} : fb = xfByte kind type ↔
    fb.extractLsb' 2 2 = 0#2 ∧ fb.extractLsb' 6 2 = 0#2 ∧ kindOfCode (fb.extractLsb' 4 2) = kind ∧
      fb.extractLsb' 0 2 = type := by
  constructor
  · rintro rfl
    cases kind <;> revert type <;> decide
  · rintro ⟨h2, h6, rfl, rfl⟩
    rw [xfByte, code_kindOfCode]
    calc fb = fb.extractLsb' 6 2 ++ fb.extractLsb' 4 2 ++ fb.extractLsb' 2 2 ++ fb.extractLsb' 0 2 := by
          rw [BitVec.extractLsb'_append_extractLsb'_eq_extractLsb' (show 6 = 4 + 2 from rfl),
            BitVec.extractLsb'_append_extractLsb'_eq_extractLsb' (show 4 = 2 + 2 from rfl),
            BitVec.extractLsb'_append_extractLsb'_eq_extractLsb' (show 2 = 0 + 2 from rfl)]
          exact BitVec.extractLsb'_eq_self.symm
      _ = 0#2 ++ fb.extractLsb' 4 2 ++ 0#2 ++ fb.extractLsb' 0 2 := by rw [h2, h6]

/-! ### The opcode map -/

/-- The header word of R60. -/
def headerEncoding : Header → Word
  | .nop => headerWord 0x01#8 0#8 0#8 0#8
  | .endList => headerWord 0x02#8 0#8 0#8 0#8
  | .xfCfg c kind type bits => headerWord 0x10#8 (indexField c) (xfByte kind type) bits
  | .xfPerm c => headerWord 0x11#8 (indexField c) 0#8 0#8
  | .xfCalc c => headerWord 0x12#8 (indexField c) 0#8 0#8
  | .audCfg => headerWord 0x20#8 0#8 0#8 0#8
  | .audPkt => headerWord 0x21#8 0#8 0#8 0#8
  | .mcSkip p => headerWord 0x30#8 (indexField p) 0#8 0#8
  | .mcMotion p dx dy => headerWord 0x31#8 (indexField p) dx dy
  | .mcResidue p dx dy => headerWord 0x32#8 (indexField p) dx dy
  | .mcIdctPut p => headerWord 0x33#8 (indexField p) 0#8 0#8
  | .mcIdctAdd p => headerWord 0x34#8 (indexField p) 0#8 0#8
  | .mcIdct => headerWord 0x35#8 0#8 0#8 0#8
  | .mcDequant => headerWord 0x36#8 0#8 0#8 0#8
  | .mcSwap => headerWord 0x37#8 0#8 0#8 0#8

/-- The opcodes of headers with an index in FA and nothing else (R60). -/
def indexOpcodes : List (BitVec 8) := [0x11#8, 0x12#8, 0x30#8, 0x33#8, 0x34#8]

/-- The opcodes of headers with an index and a motion vector (R60). -/
def vectorOpcodes : List (BitVec 8) := [0x31#8, 0x32#8]

/-- The five ways of R60 and R62 to read a header, by its opcode, and what the header read there is encoded as. -/
inductive OpcodeRow (h : Word) : Except Reject Header → Prop
  | plain {opc : BitVec 8} (hd : Header) : opcField h = opc → opc ∈ opcodesWithoutIndex →
      headerEncoding hd = headerWord opc 0#8 0#8 0#8 → OpcodeRow h (plainHeader h hd)
  | index {opc : BitVec 8} (mk : Fin 4 → Header) : opcField h = opc → opc ∈ indexOpcodes →
      (∀ i, headerEncoding (mk i) = headerWord opc (indexField i) 0#8 0#8) → OpcodeRow h (indexHeader h mk)
  | vector {opc : BitVec 8} (mk : Fin 4 → BitVec 8 → BitVec 8 → Header) : opcField h = opc →
      opc ∈ vectorOpcodes →
      (∀ i dx dy, headerEncoding (mk i dx dy) = headerWord opc (indexField i) dx dy) →
      OpcodeRow h (vectorHeader h mk)
  | xfCfg : opcField h = 0x10#8 → OpcodeRow h (xfCfgHeader h)
  | undefined : opcField h ∉ definedOpcodes → OpcodeRow h (.error .undefinedOpcode)

theorem OpcodeRow.ite {h : Word} {p : Prop} [Decidable p] {a b : Except Reject Header}
    (ha : p → OpcodeRow h a) (hb : ¬ p → OpcodeRow h b) : OpcodeRow h (if p then a else b) := by
  split
  · exact ha ‹_›
  · exact hb ‹_›

/-- Every opcode has one of the five rows. -/
theorem opcodeRow_decodeHeader (h : Word) : OpcodeRow h (decodeHeader h) := by
  refine .ite (.plain .nop · (by decide) rfl) fun h01 => .ite (.plain .endList · (by decide) rfl) fun h02 => ?_
  refine .ite .xfCfg fun h10 => .ite (.index .xfPerm · (by decide) fun _ => rfl) fun h11 => ?_
  refine .ite (.index .xfCalc · (by decide) fun _ => rfl) fun h12 => ?_
  refine .ite (.plain .audCfg · (by decide) rfl) fun h20 => ?_
  refine .ite (.plain .audPkt · (by decide) rfl) fun h21 => ?_
  refine .ite (.index .mcSkip · (by decide) fun _ => rfl) fun h30 => ?_
  refine .ite (.vector .mcMotion · (by decide) fun _ _ _ => rfl) fun h31 => ?_
  refine .ite (.vector .mcResidue · (by decide) fun _ _ _ => rfl) fun h32 => ?_
  refine .ite (.index .mcIdctPut · (by decide) fun _ => rfl) fun h33 => ?_
  refine .ite (.index .mcIdctAdd · (by decide) fun _ => rfl) fun h34 => ?_
  refine .ite (.plain .mcIdct · (by decide) rfl) fun h35 => ?_
  refine .ite (.plain .mcDequant · (by decide) rfl) fun h36 => ?_
  refine .ite (.plain .mcSwap · (by decide) rfl) fun h37 => .undefined ?_
  simp only [definedOpcodes, List.mem_cons, List.not_mem_nil, *, or_self, not_false_eq_true]

/-! ### Each row read and written -/

theorem plainHeader_eq_ok_iff {h : Word} {hd hd' : Header} : plainHeader h hd = .ok hd' ↔
    (faField h = 0#8 ∧ fbField h = 0#8 ∧ fcField h = 0#8) ∧ hd = hd' := by
  unfold plainHeader
  split <;> simp_all

theorem indexHeader_eq_ok_iff {h : Word} {mk : Fin 4 → Header} {hd : Header} : indexHeader h mk = .ok hd ↔
    (fbField h = 0#8 ∧ fcField h = 0#8) ∧ ∃ i, faField h = indexField i ∧ mk i = hd := by
  simp only [indexHeader, ← indexOf_eq_some_iff]
  split
  · split <;> simp_all
  · simp_all

theorem vectorHeader_eq_ok_iff {h : Word} {mk : Fin 4 → BitVec 8 → BitVec 8 → Header} {hd : Header} :
    vectorHeader h mk = .ok hd ↔ ∃ i, faField h = indexField i ∧ mk i (fbField h) (fcField h) = hd := by
  simp only [vectorHeader, ← indexOf_eq_some_iff]
  split <;> simp_all

theorem xfCfgHeader_eq_ok_iff {h : Word} {hd : Header} : xfCfgHeader h = .ok hd ↔
    ∃ c kind type, faField h = indexField c ∧ fbField h = xfByte kind type ∧
      xfCombinationOk kind type (fcField h) = true ∧ .xfCfg c kind type (fcField h) = hd := by
  simp only [xfCfgHeader, ← indexOf_eq_some_iff, eq_xfByte_iff]
  split
  · simp_all
  · split <;> simp_all

/-- R63: the header read from a word is encoded as that word. -/
theorem headerEncoding_of_decodeHeader {h : Word} {hd : Header} (hdec : decodeHeader h = .ok hd) :
    headerEncoding hd = h := by
  have hrow := opcodeRow_decodeHeader h
  have hfields := headerWord_fields h
  generalize decodeHeader h = r at hrow hdec
  cases hrow with
  | plain hd' hopc hmem henc =>
    obtain ⟨⟨hfa, hfb, hfc⟩, rfl⟩ := plainHeader_eq_ok_iff.1 hdec
    rw [henc, ← hfields, hopc, hfa, hfb, hfc]
  | index mk hopc hmem henc =>
    obtain ⟨⟨hfb, hfc⟩, i, hfa, rfl⟩ := indexHeader_eq_ok_iff.1 hdec
    rw [henc, ← hfields, hopc, hfa, hfb, hfc]
  | vector mk hopc hmem henc =>
    obtain ⟨i, hfa, rfl⟩ := vectorHeader_eq_ok_iff.1 hdec
    rw [henc, ← hopc, ← hfa, hfields]
  | xfCfg hopc =>
    obtain ⟨c, kind, type, hfa, hfb, -, rfl⟩ := xfCfgHeader_eq_ok_iff.1 hdec
    rw [headerEncoding, ← hopc, ← hfa, ← hfb, hfields]
  | undefined => cases hdec

/-- A legal header is read from its encoding. -/
theorem decodeHeader_headerEncoding {hd : Header} (hok : headerOk hd = true) :
    decodeHeader (headerEncoding hd) = .ok hd := by
  cases hd with
  | xfCfg c kind type bits =>
    have hxf : xfCombinationOk kind type bits = true := hok
    simp [decodeHeader, headerEncoding, xfCfgHeader_eq_ok_iff, hxf]
  | xfPerm | xfCalc | mcSkip | mcIdctPut | mcIdctAdd =>
    simp [decodeHeader, headerEncoding, indexHeader_eq_ok_iff]
  | mcMotion | mcResidue => simp [decodeHeader, headerEncoding, vectorHeader_eq_ok_iff]
  | nop | endList | audCfg | audPkt | mcIdct | mcDequant | mcSwap =>
    simp [decodeHeader, headerEncoding, plainHeader_eq_ok_iff]

/-! ### Arguments -/

/-- The header of a command. -/
def headerOf : Instr → Header
  | .nop => .nop
  | .endList => .endList
  | .xfCfg c kind type bits => .xfCfg c kind type bits
  | .xfPerm c _ => .xfPerm c
  | .xfCalc c _ => .xfCalc c
  | .audCfg _ _ => .audCfg
  | .audPkt _ _ _ _ => .audPkt
  | .mcSkip p _ => .mcSkip p
  | .mcMotion p dx dy _ => .mcMotion p dx dy
  | .mcResidue p dx dy _ _ => .mcResidue p dx dy
  | .mcIdctPut p _ _ => .mcIdctPut p
  | .mcIdctAdd p _ _ => .mcIdctAdd p
  | .mcIdct _ => .mcIdct
  | .mcDequant _ _ => .mcDequant
  | .mcSwap => .mcSwap

theorem headerEncoding_headerOf (i : Instr) : headerEncoding (headerOf i) = encodeHeader i := by
  cases i <;> rfl

theorem encodeArgs_length (i : Instr) : (encodeArgs i).length = (headerOf i).argCount := by
  cases i <;> rfl

/-- The two halves of an argument word and back (R59). -/
@[simp] theorem append_halves (w : Word) : w.extractLsb' 16 16 ++ w.extractLsb' 0 16 = w :=
  BitVec.extractLsb'_append_extractLsb'

@[simp] theorem word_posOfWord (w : Word) : (posOfWord w).word = w := append_halves w

@[simp] theorem posOfWord_word (pos : BlockPos) : posOfWord pos.word = pos :=
  congrArg₂ BlockPos.mk BitVec.extractLsb'_append_eq_right BitVec.extractLsb'_append_eq_left

/-- A command is built from its header and argument words. -/
theorem build_encodeArgs (i : Instr) : (headerOf i).build (encodeArgs i) = some i := by
  cases i with
  | audCfg rate flags =>
    exact congrArg some (congrArg₂ Instr.audCfg BitVec.extractLsb'_append_eq_right
      BitVec.extractLsb'_append_eq_left)
  | mcSkip p pos => exact congrArg (fun q => some (Instr.mcSkip p q)) (posOfWord_word pos)
  | mcMotion p dx dy pos => exact congrArg (fun q => some (Instr.mcMotion p dx dy q)) (posOfWord_word pos)
  | mcResidue p dx dy pos blk =>
    exact congrArg (fun q => some (Instr.mcResidue p dx dy q blk)) (posOfWord_word pos)
  | mcIdctPut p pos blk => exact congrArg (fun q => some (Instr.mcIdctPut p q blk)) (posOfWord_word pos)
  | mcIdctAdd p pos blk => exact congrArg (fun q => some (Instr.mcIdctAdd p q blk)) (posOfWord_word pos)
  | _ => rfl

/-- A command is built from no header and argument words but its own (R59). -/
theorem of_build_eq_some {hd : Header} {args : List Word} {i : Instr} (h : hd.build args = some i) :
    headerOf i = hd ∧ encodeArgs i = args := by
  rcases args with _ | ⟨a, _ | ⟨b, _ | ⟨c, _ | ⟨d, _ | ⟨e, rest⟩⟩⟩⟩⟩
  all_goals cases hd
  all_goals cases h <;> simp [headerOf, encodeArgs, audCfgWord]

/-! ### The decoder -/

/-- Everything the decoder does where it answers a command (R57, R62). -/
theorem decode_eq_ok_iff {bs rest : List Byte} {i : Instr} : decode bs = .ok (i, rest) ↔
    ∃ h tail, takeWords 1 bs = some ([h], tail) ∧ decodeHeader h = .ok (headerOf i) ∧
      takeWords (headerOf i).argCount tail = some (encodeArgs i, rest) := by
  constructor
  · intro hdec
    unfold decode at hdec
    split at hdec
    · rename_i h tail htake
      split at hdec
      · cases hdec
      · rename_i hd hheader
        split at hdec
        · rename_i args rest' hargs
          split at hdec
          · rename_i i' hbuild
            obtain ⟨rfl, rfl⟩ := Prod.mk.inj (Except.ok.inj hdec)
            obtain ⟨rfl, rfl⟩ := of_build_eq_some hbuild
            exact ⟨h, tail, htake, hheader, hargs⟩
          · cases hdec
        · cases hdec
    · cases hdec
  · rintro ⟨h, tail, htake, hheader, hargs⟩
    simp only [decode, htake, hheader, hargs, build_encodeArgs]

/-- The header decides a command's well-formedness (R60). -/
theorem headerOk_headerOf (i : Instr) : headerOk (headerOf i) = i.wellFormed :=
  (wellFormed_of_build (build_encodeArgs i)).symm

theorem encode_append (i : Instr) (rest : List Byte) :
    encode i ++ rest = bytesOfWords [encodeHeader i] ++ (bytesOfWords (encodeArgs i) ++ rest) := rfl

/-- Settles O1: the header decodes to the command's own, and as many words follow as it asks for. -/
theorem decodeOfEncode : Obligations.DecodeOfEncode := by
  intro i rest hwf
  refine decode_eq_ok_iff.2 ⟨encodeHeader i, _, takeWords_bytesOfWords [encodeHeader i] _, ?_, ?_⟩
  · rw [← headerEncoding_headerOf]
    exact decodeHeader_headerEncoding ((headerOk_headerOf i).trans hwf)
  · rw [← encodeArgs_length]
    exact takeWords_bytesOfWords (encodeArgs i) rest

/-- Settles O2: header and arguments are the encodings of what they were read as. -/
theorem decodedBytesAreTheEncoding : Obligations.DecodedBytesAreTheEncoding := by
  intro bs rest i hdec
  obtain ⟨h, tail, htake, hheader, hargs⟩ := decode_eq_ok_iff.1 hdec
  obtain ⟨-, rfl⟩ := bytes_of_takeWords htake
  obtain ⟨-, rfl⟩ := bytes_of_takeWords hargs
  obtain rfl : encodeHeader i = h := headerEncoding_headerOf i ▸ headerEncoding_of_decodeHeader hheader
  exact ⟨(headerOk_headerOf i).symm.trans (decodesOk_decodeHeader _ _ hheader), (encode_append i rest).symm⟩

/-- Settles O4: the decoder evaluated on each word. -/
theorem specWordsDecode : Obligations.SpecWordsDecode := by
  unfold Obligations.SpecWordsDecode
  decide

end Sys2Proof.Encoding
end

section
/-!
Illegal headers (30_encoding.md R62): the decoder rejects a header on the rule's four grounds, fetching it raises
ILLEGAL, and nothing else raises that error.
-/

namespace Sys2Proof.IllegalHeaders

open Sys2Proof Sys2Proof.Machine Sys2Proof.Safety Sys2Proof.Laws Sys2Proof.Steps Sys2Proof.Fetching
open Sys2Proof.Encoding

/-! ### What each opcode's row rejects -/

theorem rejects_iff {r : Except Reject Header} : (∃ e, r = .error e) ↔ ¬ ∃ hd, r = .ok hd := by
  cases r <;> simp

section Rows

variable {h : Word}

theorem illegalHeader_of_plain (hopc : opcField h ∈ opcodesWithoutIndex) :
    IllegalHeader h ↔ ¬ (faField h = 0#8 ∧ fbField h = 0#8 ∧ fcField h = 0#8) := by
  have hrow : ∀ opc ∈ opcodesWithoutIndex,
      opc ∈ definedOpcodes ∧ opc ∈ opcodesWithoutFields ∧ opc ≠ 0x10#8 := by decide
  obtain ⟨hdef, hfields, hxf⟩ := hrow _ hopc
  simp only [IllegalHeader, hopc, hdef, hfields, hxf, not_true_eq_false, true_and, false_and, false_or, ne_eq,
    or_false, not_and_or]

theorem illegalHeader_of_index (hopc : opcField h ∈ indexOpcodes) :
    IllegalHeader h ↔ ¬ ((fbField h = 0#8 ∧ fcField h = 0#8) ∧ (faField h).toNat ≤ 3) := by
  have hrow : ∀ opc ∈ indexOpcodes, opc ∈ definedOpcodes ∧ opc ∉ opcodesWithoutIndex ∧
      opc ∈ opcodesWithoutFields ∧ opc ≠ 0x10#8 := by decide
  obtain ⟨hdef, hindex, hfields, hxf⟩ := hrow _ hopc
  simp only [IllegalHeader, hdef, hindex, hfields, hxf, not_true_eq_false, not_false_eq_true, true_and,
    false_and, false_or, or_false, not_and_or, ne_eq, Nat.not_le]

theorem illegalHeader_of_vector (hopc : opcField h ∈ vectorOpcodes) :
    IllegalHeader h ↔ ¬ (faField h).toNat ≤ 3 := by
  have hrow : ∀ opc ∈ vectorOpcodes, opc ∈ definedOpcodes ∧ opc ∉ opcodesWithoutIndex ∧
      opc ∉ opcodesWithoutFields ∧ opc ≠ 0x10#8 := by decide
  obtain ⟨hdef, hindex, hfields, hxf⟩ := hrow _ hopc
  simp only [IllegalHeader, hdef, hindex, hfields, hxf, not_true_eq_false, not_false_eq_true, true_and,
    false_and, false_or, or_false, Nat.not_le]

/-- An index is in FA exactly if FA is at most 3 (R59). -/
theorem exists_indexField_iff {fa : BitVec 8} : (∃ i, fa = indexField i) ↔ fa.toNat ≤ 3 := by
  simp only [← indexOf_eq_some_iff, ← Option.isSome_iff_exists, ← Option.ne_none_iff_isSome, ne_eq,
    indexOf_eq_none_iff, Nat.not_lt]

/-- The legal combinations of R60 by the code of the kind, as the fourth ground of R62 has them. -/
theorem xfCombinationOk_kindOfCode (k type : BitVec 2) (bits : BitVec 8) :
    xfCombinationOk (kindOfCode k) type bits = true ↔
      ¬ (k = 0#2 ∧ (type ≠ 0#2 ∨ bits ≠ 0#8) ∨ k = 1#2 ∧ 1 < type.toNat) := by
  have hk : k = 0#2 ∨ k = 1#2 ∨ k = 2#2 ∨ k = 3#2 := by revert k; decide
  have htype : (type = 0#2 ∨ type = 1#2) ↔ ¬ 1 < type.toNat := by revert type; decide
  rcases hk with rfl | rfl | rfl | rfl
  · simp [kindOfCode, xfCombinationOk]
  · simpa [kindOfCode, xfCombinationOk] using htype
  · simp [kindOfCode, xfCombinationOk]
  · simp [kindOfCode, xfCombinationOk]

/-- Two bits of FB, counted in the header (R57). -/
theorem fbField_extract {k : Nat} (hk : k + 2 ≤ 8) :
    (fbField h).extractLsb' k 2 = h.extractLsb' (16 + k) 2 := by
  apply BitVec.eq_of_getLsbD_eq
  intro i hi
  have hlt : k + i < 8 := by omega
  simp [fbField, hlt, Nat.add_assoc]

theorem illegalHeader_of_xfCfg (hopc : opcField h = 0x10#8) : IllegalHeader h ↔
    ¬ ∃ c kind type, faField h = indexField c ∧ fbField h = xfByte kind type ∧
      xfCombinationOk kind type (fcField h) = true := by
  have hexists : (∃ c kind type, faField h = indexField c ∧ fbField h = xfByte kind type ∧
      xfCombinationOk kind type (fcField h) = true) ↔
      (faField h).toNat ≤ 3 ∧ h.extractLsb' 18 2 = 0#2 ∧ h.extractLsb' 22 2 = 0#2 ∧
        xfCombinationOk (kindOfCode (h.extractLsb' 20 2)) (h.extractLsb' 16 2) (fcField h) = true := by
    simp [eq_xfByte_iff, fbField_extract, ← exists_indexField_iff, and_assoc]
  have hrow : (0x10#8 : BitVec 8) ∈ definedOpcodes ∧ 0x10#8 ∉ opcodesWithoutIndex ∧
      0x10#8 ∉ opcodesWithoutFields := by decide
  obtain ⟨hdef, hindex, hfields⟩ := hrow
  rw [hexists, xfCombinationOk_kindOfCode]
  simp only [IllegalHeader, hopc, hdef, hindex, hfields, not_true_eq_false, not_false_eq_true, true_and,
    false_and, false_or, not_and_or, not_not, Nat.not_le, ne_eq]

end Rows

/-- R62: the decoder rejects exactly the illegal headers. -/
theorem decodeHeader_error_iff (h : Word) : (∃ r, decodeHeader h = .error r) ↔ IllegalHeader h := by
  rw [rejects_iff]
  have hrow := opcodeRow_decodeHeader h
  generalize decodeHeader h = r at hrow
  cases hrow with
  | plain hd hopc hmem =>
    simp [illegalHeader_of_plain (hopc ▸ hmem), plainHeader_eq_ok_iff]
  | index mk hopc hmem =>
    simp [illegalHeader_of_index (hopc ▸ hmem), indexHeader_eq_ok_iff, ← exists_indexField_iff]
  | vector mk hopc hmem =>
    simp [illegalHeader_of_vector (hopc ▸ hmem), vectorHeader_eq_ok_iff, ← exists_indexField_iff]
  | xfCfg hopc => simp [illegalHeader_of_xfCfg hopc, xfCfgHeader_eq_ok_iff]
  | undefined hopc => simp [IllegalHeader, hopc]

/-! ### Fetching an illegal header -/

theorem fetchCommand_of_illegalHeader {s : State} (hin : s.cmdptr.toNat + 4 ≤ s.params.dmemSize)
    (h : IllegalHeader (readWord s s.cmdptr.toNat)) :
    fetchCommand s = .error (.illegal, readWord s s.cmdptr.toNat) := by
  obtain ⟨r, hr⟩ := (decodeHeader_error_iff _).2 h
  simp only [fetchCommand, (inDmem_iff _ _ _).2 hin, if_true, hr]

theorem fetchArgs_length {s : State} {n a : Nat} {ws : List Word} (h : fetchArgs s n a = .ok ws) :
    ws.length = n := by
  induction n generalizing a ws with
  | zero =>
    obtain rfl := Except.ok.inj h
    rfl
  | succ n ih =>
    unfold fetchArgs at h
    split at h
    · split at h
      · rename_i ws' hrest
        obtain rfl := Except.ok.inj h
        exact congrArg (· + 1) (ih hrest)
      · cases h
    · cases h

/-- K argument words make a command of every header (R58). -/
theorem exists_build {hd : Header} {args : List Word} (h : args.length = hd.argCount) :
    ∃ i, hd.build args = some i := by
  cases hd with
  | nop | endList | xfCfg | mcSwap =>
    obtain rfl := List.length_eq_zero_iff.1 h
    exact ⟨_, rfl⟩
  | xfPerm | xfCalc | audCfg | mcSkip | mcMotion | mcIdct =>
    obtain ⟨a, rfl⟩ := List.length_eq_one_iff.1 h
    exact ⟨_, rfl⟩
  | mcResidue | mcIdctPut | mcIdctAdd | mcDequant =>
    obtain ⟨a, b, rfl⟩ := List.length_eq_two.1 h
    exact ⟨_, rfl⟩
  | audPkt =>
    obtain ⟨a, b, c, d, rfl⟩ := List.length_eq_four.1 h
    exact ⟨_, rfl⟩

/-- Only an illegal header makes the fetch raise ILLEGAL (R62, R66). -/
theorem illegalHeader_of_fetchCommand {s : State} {info : Word}
    (h : fetchCommand s = .error (.illegal, info)) : IllegalHeader (readWord s s.cmdptr.toNat) := by
  unfold fetchCommand at h
  dsimp only at h
  split at h
  · split at h
    · rename_i r hdec
      exact (decodeHeader_error_iff _).1 ⟨r, hdec⟩
    · split at h
      · cases h
      · rename_i args hargs
        obtain ⟨i, hbuild⟩ := exists_build (fetchArgs_length hargs)
        rw [hbuild] at h
        cases h
  · cases h

/-! ### The errors that a command raises itself -/

/-- How a command that starts in `s` leaves ERR: untouched; raised by a check that failed on `s` as it was; or
raised between two audio blocks (R118, R131). -/
inductive LeavesErr (s : State) : State → Prop
  | quiet (t : State) : t.err = s.err → LeavesErr s t
  | failedCheck (e : BteError) (info : Word) : e ≠ .illegal → LeavesErr s (takeError e info s)
  | failedBlock (e : BteError) (info : Word) (u : State) : e = .bitOverrun ∨ e = .audOutOvf →
      LeavesErr s (takeError e info u)

/-- Every next state of an outcome leaves ERR in one of these ways. -/
def RaisesWithin (s : State) (o : Out) : Prop := ∀ t, o = .next t → LeavesErr s t

section Raises

variable {s u : State} {k : Nat} {o : Out}

theorem raisesWithin_complete (h : u.err = s.err) : RaisesWithin s (complete k u) := by
  intro t ht
  obtain rfl := complete_next ht
  exact .quiet _ h

theorem raisesWithin_check {ok : Bool} {e : BteError} {info : Word} (he : e ≠ .illegal) (ho : RaisesWithin s o) :
    RaisesWithin s (check ok e info s o) := by
  intro t ht
  rcases check_next ht with ⟨-, hnext⟩ | ⟨-, rfl⟩
  · exact ho t hnext
  · exact .failedCheck e info he

theorem raisesWithin_checkRegion {align len : Nat} {a : Word} (ho : RaisesWithin s o) :
    RaisesWithin s (checkRegion align len a s o) :=
  raisesWithin_check nofun (raisesWithin_check nofun ho)

theorem raisesWithin_checkBlock {p : PlaneIdx} {pos : BlockPos} (ho : RaisesWithin s o) :
    RaisesWithin s (checkBlock p pos s o) :=
  raisesWithin_check nofun (raisesWithin_check nofun ho)

theorem raisesWithin_touchBlock {base pitch : Nat} (ho : RaisesWithin s o) :
    RaisesWithin s (touchBlock base pitch u o) :=
  fun t ht => ho t (touchBlock_next ht).2

theorem raisesWithin_block {e : BteError} {info : Word} (he : e = .bitOverrun ∨ e = .audOutOvf) :
    RaisesWithin s (raise e info u) := by
  intro t ht
  obtain rfl := Host.Outcome.next.inj ht
  exact .failedBlock e info u he

/-- The block loop (R117), by induction on its turns: only its own two errors, and committed blocks keep ERR. -/
theorem raisesWithin_packetLoop (b : BitSource) (dst cap n pos : Nat) (h : u.err = s.err) :
    RaisesWithin s (packetLoop b dst cap n pos u) := by
  induction n generalizing pos u with
  | zero => exact raisesWithin_complete h
  | succ n ih =>
    unfold packetLoop
    split
    · exact raisesWithin_complete h
    · split
      · exact raisesWithin_block (.inr rfl)
      · split
        · exact raisesWithin_block (.inl rfl)
        · exact ih _ h

theorem raisesWithin_audPacket (src len dst cap : Word) : RaisesWithin s (audPacket src len dst cap s) := by
  unfold audPacket
  split
  · exact raisesWithin_complete rfl
  · exact raisesWithin_packetLoop _ _ _ _ _ rfl

/-- The pixels of a block are no flag. -/
theorem err_putBlock (s : State) (p : PlaneIdx) (pos : BlockPos) (px : List Byte) :
    (putBlock p pos px s).err = s.err := by
  rw [putBlock, writeBlock_eq]

theorem raisesWithin_mcCopy (p : PlaneIdx) (pos : BlockPos) (dx dy : BitVec 8) :
    RaisesWithin s (mcCopy p pos dx dy s) :=
  raisesWithin_touchBlock (raisesWithin_touchBlock (raisesWithin_complete (err_putBlock s _ _ _)))

end Raises

/-- R131: a command's checks and audio blocks are all that raises, and ILLEGAL is none of their errors. -/
theorem exec_raisesWithin (i : Instr) (s : State) : RaisesWithin s (exec i s) := by
  cases i with
  | nop | mcSwap => exact raisesWithin_complete rfl
  | endList =>
    intro t ht
    obtain rfl := Host.Outcome.next.inj ht
    exact .quiet _ rfl
  | xfCfg | audCfg => exact raisesWithin_check nofun (raisesWithin_complete rfl)
  | xfPerm | xfCalc =>
    exact raisesWithin_check nofun (raisesWithin_checkRegion (raisesWithin_complete rfl))
  | audPkt =>
    exact raisesWithin_check nofun <| raisesWithin_check nofun <| raisesWithin_check nofun <|
      raisesWithin_check nofun <| raisesWithin_check nofun <| raisesWithin_check nofun <|
      raisesWithin_audPacket _ _ _ _
  | mcSkip => exact raisesWithin_checkBlock (raisesWithin_mcCopy _ _ _ _)
  | mcMotion => exact raisesWithin_checkBlock (raisesWithin_check nofun (raisesWithin_mcCopy _ _ _ _))
  | mcResidue =>
    exact raisesWithin_checkBlock <| raisesWithin_check nofun <| raisesWithin_checkRegion <|
      raisesWithin_touchBlock <| raisesWithin_touchBlock <| raisesWithin_complete (err_putBlock s _ _ _)
  | mcIdctPut | mcIdctAdd =>
    exact raisesWithin_checkBlock <| raisesWithin_checkRegion <| raisesWithin_touchBlock <|
      raisesWithin_complete (err_putBlock s _ _ _)
  | mcIdct => exact raisesWithin_checkRegion (raisesWithin_complete rfl)
  | mcDequant =>
    exact raisesWithin_checkRegion (raisesWithin_checkRegion (raisesWithin_complete rfl))

/-- ILLEGAL has a code of its own (R129). -/
theorem eq_illegal_of_errorCode {e : BteError} (h : errorCode e = errorCode .illegal) : e = .illegal := by
  cases e
  case illegal => rfl
  all_goals exact absurd h (by decide)

/-- A command that starts with ERR = 0 does not end in ILLEGAL. -/
theorem errCode_ne_illegal_of_exec {i : Instr} {s t : State} (h : exec i s = .next t) (hs : s.err = false)
    (ht : t.err = true) : t.errCode ≠ errorCode .illegal := by
  cases exec_raisesWithin i s t h with
  | quiet _ hquiet => rw [hquiet, hs] at ht; cases ht
  | failedCheck e info he => exact fun hcode => he (eq_illegal_of_errorCode hcode)
  | failedBlock e info u he =>
    intro hcode
    obtain rfl := eq_illegal_of_errorCode hcode
    exact he.elim nofun nofun

/-! ### The obligation -/

/-- Settles O3: the rows of the opcode map reject on R62's grounds, and only the fetch raises ILLEGAL. -/
theorem illegalHeadersRaiseIllegal : Obligations.IllegalHeadersRaiseIllegal := by
  refine ⟨decodeHeader_error_iff, fun s hs hin hill =>
    step_of_fetchError hs (fetchCommand_of_illegalHeader hin hill), ?_⟩
  intro s t hs hin hstep herr hcode hclear
  cases hfetch : fetchCommand s with
  | ok i =>
    obtain ⟨hhost, hbusy⟩ := hs
    rw [step_of_host_nil hhost, seqStep, if_pos hbusy, hfetch] at hstep
    exact absurd hcode (errCode_ne_illegal_of_exec hstep hclear herr)
  | error x =>
    obtain ⟨e, info⟩ := x
    obtain rfl := Host.Outcome.next.inj ((step_of_fetchError hs hfetch).symm.trans hstep)
    obtain rfl := eq_illegal_of_errorCode hcode
    exact illegalHeader_of_fetchCommand hfetch

end Sys2Proof.IllegalHeaders
end

section
/-!
The command cycle and the run (40_control.md R66 to R69): every command answers (R71), every turn of the sequencer
ends the run or moves CMDPTR on, and so a run ends by itself.
-/

namespace Sys2Proof.Runs

open Sys2Proof Sys2Proof.Machine Sys2Proof.Safety Sys2Proof.Laws Sys2Proof.Commands Sys2Proof.Steps
open Sys2Proof.Fetching

/-! ### Every command answers -/

section Answering

variable {s : State} {o : Out}

theorem answers_complete (k : Nat) (s : State) : Answers (complete k s) := ⟨_, rfl⟩

theorem answers_raise (e : BteError) (info : Word) (s : State) : Answers (raise e info s) := ⟨_, rfl⟩

/-- A check that fails answers with its error. -/
theorem answers_check {ok : Bool} {e : BteError} {info : Word} (ho : ok = true → Answers o) :
    Answers (check ok e info s o) := by
  cases ok with
  | true => exact ho rfl
  | false => exact answers_raise e info s

theorem answers_checkRegion {align len : Nat} {a : Word} (ho : Answers o) :
    Answers (checkRegion align len a s o) :=
  answers_check fun _ => answers_check fun _ => ho

theorem answers_checkBlock {p : PlaneIdx} {pos : BlockPos}
    (ho : planeValid s p = true → blockLegal s p pos = true → Answers o) : Answers (checkBlock p pos s o) :=
  answers_check fun hplane => answers_check (ho hplane)

/-- The destination of a checked block lies inside DMEM (43_motion.md R99). -/
theorem answers_touchDst {p : PlaneIdx} {pos : BlockPos} (hplane : planeValid s p = true)
    (hpos : blockLegal s p pos = true) (ho : Answers o) : Answers (touchDst p pos s o) := by
  rwa [touchDst_pass _ hplane hpos]

/-- A checked reference lies inside DMEM (43_motion.md R100). -/
theorem answers_touchRef {p : PlaneIdx} {pos : BlockPos} {dx dy : BitVec 8} (hplane : planeValid s p = true)
    (href : refLegal s p pos dx dy = true) (ho : Answers o) : Answers (touchRef p pos dx dy s o) := by
  rwa [touchRef_pass _ hplane href]

theorem answers_mcCopy {p : PlaneIdx} {pos : BlockPos} {dx dy : BitVec 8} (hplane : planeValid s p = true)
    (hpos : blockLegal s p pos = true) (href : refLegal s p pos dx dy = true) :
    Answers (mcCopy p pos dx dy s) :=
  answers_touchRef hplane href (answers_touchDst hplane hpos (answers_complete _ _))

end Answering

/-- The block loop of AUD_PKT, by induction on its turns (44_audio.md R117). -/
theorem answers_packetLoop (b : BitSource) (dst cap n pos : Nat) (s : State) :
    Answers (packetLoop b dst cap n pos s) := by
  induction n generalizing pos s with
  | zero => exact answers_complete _ _
  | succ n ih =>
    unfold packetLoop
    split
    · exact answers_complete _ _
    · split
      · exact answers_raise _ _ _
      · split
        · exact answers_raise _ _ _
        · exact ih _ _

theorem answers_audPacket (src len dst cap : Word) (s : State) : Answers (audPacket src len dst cap s) := by
  unfold audPacket
  split
  · exact answers_complete _ _
  · exact answers_packetLoop _ _ _ _ _ _

/-- R71, R130: the checks of the MC commands keep their blocks inside DMEM, so no command reaches the guard
(log entry 15). -/
theorem exec_answers (i : Instr) (s : State) : Answers (exec i s) := by
  cases i with
  | nop | mcSwap => exact answers_complete _ _
  | endList => exact ⟨_, rfl⟩
  | xfCfg | audCfg => exact answers_check fun _ => answers_complete _ _
  | xfPerm | xfCalc => exact answers_check fun _ => answers_checkRegion (answers_complete _ _)
  | audPkt =>
    exact answers_check fun _ => answers_check fun _ => answers_check fun _ => answers_check fun _ =>
      answers_check fun _ => answers_check fun _ => answers_audPacket _ _ _ _ s
  | mcSkip =>
    exact answers_checkBlock fun hplane hpos => answers_mcCopy hplane hpos (refLegal_zero hpos)
  | mcMotion =>
    exact answers_checkBlock fun hplane hpos => answers_check fun href => answers_mcCopy hplane hpos href
  | mcResidue =>
    exact answers_checkBlock fun hplane hpos => answers_check fun href => answers_checkRegion <|
      answers_touchRef hplane href <| answers_touchDst hplane hpos <| answers_complete _ _
  | mcIdctPut | mcIdctAdd =>
    exact answers_checkBlock fun hplane hpos => answers_checkRegion <|
      answers_touchDst hplane hpos <| answers_complete _ _
  | mcIdct => exact answers_checkRegion (answers_complete _ _)
  | mcDequant => exact answers_checkRegion (answers_checkRegion (answers_complete _ _))

/-! ### CMDPTR moves on -/

theorem headerInDmem_of_fetchCommand {s : State} {i : Instr} (h : fetchCommand s = .ok i) :
    s.cmdptr.toNat + 4 ≤ s.params.dmemSize := by
  rw [← inDmem_iff]
  by_contra hout
  rw [fetchCommand, if_neg hout] at h
  cases h

/-- No command has more than four argument words (R58). -/
theorem argCount_le (i : Instr) : i.argCount ≤ 4 := by
  cases i <;> simp [Instr.argCount]

/-- Below 2^31 the address after a command does not wrap. -/
theorem nextCommand_toNat {a : Word} {k : Nat} (ha : a.toNat ≤ 2 ^ 31) (hk : k ≤ 4) :
    (nextCommand a k).toNat = a.toNat + 4 * (1 + k) := by
  rw [nextCommand, BitVec.toNat_add, BitVec.toNat_ofNat]
  omega

theorem step_of_fetched {s : State} {i : Instr} (hs : Running s) (h : fetchCommand s = .ok i) :
    step s = exec i s := by
  obtain ⟨hhost, hbusy⟩ := hs
  rw [step_of_host_nil hhost, seqStep, if_pos hbusy, h]

/-! ### The run -/

/-- A run has ended: BUSY = 0 and exactly one of DONE and ERR is 1 (R67). -/
def RunEnded (t : State) : Prop :=
  t.busy = false ∧ (t.done = true ∧ t.err = false ∨ t.done = false ∧ t.err = true)

/-- A run is under way with at most `m` words of DMEM from CMDPTR on: the variant of the run (R67). -/
structure WordsLeft (m : Nat) (s : State) : Prop where
  running : Running s
  done : s.done = false
  err : s.err = false
  size : s.params.dmemSize ≤ 2 ^ 31
  left : s.params.dmemSize ≤ s.cmdptr.toNat + 4 * m

/-- R66: a fetched command ends the run, or completes and leaves it fewer words. -/
theorem runEnded_or_fewerWords_of_exec {m : Nat} {s t : State} {i : Instr} (hs : WordsLeft m s)
    (hheader : s.cmdptr.toNat + 4 ≤ s.params.dmemSize) (h : exec i s = .next t) :
    RunEnded t ∨ ∃ m', m = m' + 1 ∧ WordsLeft m' t := by
  obtain ⟨⟨hhost, hbusy⟩, hdone, herr, hsize, hleft⟩ := hs
  rcases commandCompletesOrRaisesOnce i s t h with
    ⟨-, hptr, hbusy', hdone', herr', -, -, -⟩ | ⟨-, -, -, hbusy', herr', hdone', -⟩ | ⟨-, rfl⟩
  · obtain ⟨⟨hparams, -, -, -, -, -, hhost', -⟩, -⟩ := eachUnitWritesItsOwnState i s t h
    obtain ⟨m', rfl⟩ : ∃ m', m = m' + 1 := ⟨m - 1, by omega⟩
    have hnext : t.cmdptr.toNat = s.cmdptr.toNat + 4 * (1 + i.argCount) :=
      (congrArg BitVec.toNat hptr).trans (nextCommand_toNat (by omega) (argCount_le i))
    refine .inr ⟨m', rfl, ⟨hhost'.trans hhost, hbusy'.trans hbusy⟩, hdone'.trans hdone,
      herr'.trans herr, ?_, ?_⟩
    · rwa [hparams]
    · rw [hparams, hnext]
      omega
  · exact .inl ⟨hbusy', .inr ⟨hdone'.trans hdone, herr'⟩⟩
  · exact .inl ⟨rfl, .inl ⟨rfl, herr⟩⟩

/-- R66: a step of a run answers, and ends the run or leaves it fewer words. -/
theorem step_endsRun_or_fewerWords {m : Nat} {s : State} (hs : WordsLeft m s) :
    ∃ t, step s = .next t ∧ (RunEnded t ∨ ∃ m', m = m' + 1 ∧ WordsLeft m' t) := by
  cases hfetch : fetchCommand s with
  | error x =>
    obtain ⟨e, info⟩ := x
    exact ⟨_, step_of_fetchError hs.running hfetch, .inl ⟨rfl, .inr ⟨hs.done, rfl⟩⟩⟩
  | ok i =>
    obtain ⟨t, ht⟩ := exec_answers i s
    exact ⟨t, (step_of_fetched hs.running hfetch).trans ht,
      runEnded_or_fewerWords_of_exec hs (headerInDmem_of_fetchCommand hfetch) ht⟩

theorem steps_succ {s t : State} (h : step s = .next t) (n : Nat) : steps (n + 1) s = steps n t := by
  rw [steps, h]

/-- The run ends within a step for each word left and one more, by induction on the words left. -/
theorem run_ends {m : Nat} {s : State} (hs : WordsLeft m s) :
    ∃ n t, n ≤ m + 1 ∧ steps n s = .next t ∧ RunEnded t := by
  induction m generalizing s with
  | zero =>
    obtain ⟨t, ht, hend | ⟨m', hm, -⟩⟩ := step_endsRun_or_fewerWords hs
    · exact ⟨1, t, le_rfl, steps_succ ht 0, hend⟩
    · exact absurd hm (Nat.succ_ne_zero m').symm
  | succ m ih =>
    obtain ⟨t, ht, hend | ⟨m', hm, hless⟩⟩ := step_endsRun_or_fewerWords hs
    · exact ⟨1, t, by omega, steps_succ ht 0, hend⟩
    · obtain rfl := Nat.succ.inj hm
      obtain ⟨n, u, hn, hsteps, hend⟩ := ih hless
      exact ⟨n + 1, u, Nat.succ_le_succ hn, (steps_succ ht n).trans hsteps, hend⟩

/-! ### The obligations -/

/-- Settles O8: at the start at most DMEM_SIZE / 4 words are left. -/
theorem everyRunEnds : Obligations.EveryRunEnds := by
  rintro s hs ⟨hpage, -, hsize, -⟩ - hdone herr
  exact run_ends ⟨hs, hdone, herr, hsize, by omega⟩

/-- Settles O7: with BUSY = 0 the turn of the sequencer is empty. -/
theorem idleSequencerChangesNothing : Obligations.IdleSequencerChangesNothing := by
  intro s hhost hbusy
  rw [step_of_host_nil hhost, seqStep, if_neg (Bool.eq_false_iff.1 hbusy)]

/-- Settles O20: NOP is the plain completion of a command without arguments. -/
theorem nopAdvances : Obligations.NopAdvances := complete_eq 0

/-- Settles O21: DONE alone makes the IRQ output follow IRQEN. -/
theorem endStopsTheRun : Obligations.EndStopsTheRun := by
  intro s
  have hirq : irq (endRun s) = s.irqEn := by simp [irq]
  exact ⟨endRun s, rfl, rfl, hirq⟩

end Sys2Proof.Runs
end

section
/-!
The FFT permutation (41_transform_fft.md R74, R78, R79) and the errors of the XF commands (R72 to R75).
-/

namespace Sys2Proof.FftPermutation

open Sys2Proof Sys2Proof.Machine Sys2Proof.Safety Sys2Proof.Laws Sys2Proof.BufferLaws
open Sys2Proof.MemoryForm

/-! ### The index function of R78 -/

/-- Two numbers that agree below bit k and at bit k agree below bit k + 1. -/
theorem mod_two_pow_succ_congr {i j k : Nat} (hlow : i % 2 ^ k = j % 2 ^ k)
    (hbit : i.testBit k = j.testBit k) : i % 2 ^ (k + 1) = j % 2 ^ (k + 1) := by
  rw [Nat.mod_pow_succ, Nat.mod_pow_succ, hlow, ← Nat.toNat_testBit, ← Nat.toNat_testBit, hbit]

theorem srp_of_upper_clear {inv : Bool} {i k : Nat} (h : i.testBit (k + 1) = false) :
    srp inv i (k + 2) = 2 * srp inv i (k + 1) := by
  rw [srp, if_pos h]

/-- With bit k + 1 set, `srp` is one above or one below a multiple of 4, as bit k has it. -/
theorem srp_of_upper_set {inv : Bool} {i k : Nat} (h : i.testBit (k + 1) = true) :
    srp inv i (k + 2) = 4 * srp inv i k + if inv = i.testBit k then -1 else 1 := by
  rw [srp, h]
  cases inv <;> cases i.testBit k <;> rfl

/-- The upper bit is the parity of `srp`. -/
theorem upper_eq_of_srp {inv : Bool} {i j k : Nat} (h : srp inv i (k + 2) % 2 = srp inv j (k + 2) % 2) :
    i.testBit (k + 1) = j.testBit (k + 1) := by
  have hodd : ∀ n : Nat, n.testBit (k + 1) = true ↔ srp inv n (k + 2) % 2 = 1 := fun n => by
    cases hn : n.testBit (k + 1) with
    | false => rw [srp_of_upper_clear hn]; simp
    | true => rw [srp_of_upper_set hn, eq_self, true_iff]; split <;> omega
  rw [Bool.eq_iff_iff, hodd, hodd, h]

/-- Below a set upper bit, the next bit is the residue of `srp` modulo 4. -/
theorem next_eq_of_srp {inv : Bool} {i j k : Nat} (hi : i.testBit (k + 1) = true)
    (hj : j.testBit (k + 1) = true) (h : srp inv i (k + 2) % 4 = srp inv j (k + 2) % 4) :
    i.testBit k = j.testBit k := by
  have hthree : ∀ n : Nat, n.testBit (k + 1) = true → (inv = n.testBit k ↔ srp inv n (k + 2) % 4 = 3) :=
    fun n hn => by
      rw [srp_of_upper_set hn]
      by_cases hbit : inv = n.testBit k
      · exact iff_of_true hbit (by rw [if_pos hbit]; omega)
      · exact iff_of_false hbit (by rw [if_neg hbit]; omega)
  have hbool : ∀ a b c : Bool, (a = b ↔ a = c) → b = c := by decide
  exact hbool inv _ _ (by rw [hthree i hi, hthree j hj, h])

/-- R78: `srp` modulo 2^k tells numbers apart that differ modulo 2^k: its residues modulo 2 and 4 give the upper
bits, and what is left of it is the `srp` of the lower bits. -/
theorem mod_eq_of_srp_modEq (inv : Bool) (i j : Nat) : ∀ k : Nat,
    srp inv i k ≡ srp inv j k [ZMOD 2 ^ k] → i % 2 ^ k = j % 2 ^ k
  | 0, _ => by simp [Nat.mod_one]
  | 1, h => by
    simp only [srp, Int.ModEq] at h
    omega
  | k + 2, h => by
    have htwo : (2 : ℤ) ^ (k + 2) = 2 * 2 ^ (k + 1) := by ring
    have hfour : (2 : ℤ) ^ (k + 2) = 4 * 2 ^ k := by ring
    have hupper : i.testBit (k + 1) = j.testBit (k + 1) := upper_eq_of_srp (h.of_dvd ⟨_, htwo⟩)
    refine mod_two_pow_succ_congr ?_ hupper
    cases hi : i.testBit (k + 1) with
    | false =>
      rw [srp_of_upper_clear hi, srp_of_upper_clear (hupper ▸ hi), htwo] at h
      exact mod_eq_of_srp_modEq inv i j (k + 1) (h.mul_left_cancel' two_ne_zero)
    | true =>
      have hj := hupper ▸ hi
      have hnext : i.testBit k = j.testBit k := next_eq_of_srp hi hj (h.of_dvd ⟨_, hfour⟩)
      rw [srp_of_upper_set hi, srp_of_upper_set hj, hnext, hfour] at h
      refine mod_two_pow_succ_congr ?_ hnext
      exact mod_eq_of_srp_modEq inv i j k ((h.add_right_cancel' _).mul_left_cancel' four_ne_zero)

theorem revIndex_cast (k : Nat) (inv : Bool) (i : Nat) :
    (revIndex k inv i : ℤ) = -srp inv i k % (2 ^ k : Nat) :=
  Int.toNat_of_nonneg (Int.emod_nonneg _ (by positivity))

theorem revIndex_lt (k : Nat) (inv : Bool) (i : Nat) : revIndex k inv i < 2 ^ k := by
  have hlt := Int.emod_lt_of_pos (-srp inv i k) (b := (2 ^ k : Nat)) (by positivity)
  rw [← revIndex_cast] at hlt
  exact Int.ofNat_lt.1 hlt

theorem revIndex_inj {k : Nat} {inv : Bool} {i j : Nat} (hi : i < 2 ^ k) (hj : j < 2 ^ k)
    (h : revIndex k inv i = revIndex k inv j) : i = j := by
  have hneg : -srp inv i k ≡ -srp inv j k [ZMOD (2 ^ k : Nat)] := by
    rw [Int.ModEq, ← revIndex_cast, ← revIndex_cast, h]
  have hmod := mod_eq_of_srp_modEq inv i j k (by simpa using hneg.neg)
  rwa [Nat.mod_eq_of_lt hi, Nat.mod_eq_of_lt hj] at hmod

/-- The index function takes every value below 2^k: it is injective on finitely many numbers. -/
theorem exists_revIndex_eq (k : Nat) (inv : Bool) {j : Nat} (hj : j < 2 ^ k) :
    ∃ i, i < 2 ^ k ∧ revIndex k inv i = j := by
  have hinj : Function.Injective fun i : Fin (2 ^ k) => (⟨revIndex k inv i, revIndex_lt k inv i⟩ : Fin (2 ^ k)) :=
    fun a b hab => Fin.ext (revIndex_inj a.isLt b.isLt (congrArg Fin.val hab))
  obtain ⟨i, hi⟩ := Finite.surjective_of_injective hinj ⟨j, hj⟩
  exact ⟨i, i.isLt, congrArg Fin.val hi⟩

/-! ### Tables filled through an injective index -/

/-- A loop that stores `v i` at index `g i` leaves it there where no other turn has the same index. -/
theorem foldl_setIfInBounds_getElem? {α : Type} (g : Nat → Nat) (v : Nat → α) {n : Nat} (a : Array α)
    (hg : ∀ i j, i < n → j < n → g i = g j → i = j) {i : Nat} (hi : i < n) (hsize : g i < a.size) :
    ((List.range n).foldl (fun t k => t.setIfInBounds (g k) (v k)) a)[g i]? = some (v i) := by
  have hdisjoint : (List.range n).Pairwise fun a b => ∀ m, g a = m → ¬ g b = m := by
    refine List.pairwise_lt_range.imp_of_mem fun ha hb hab m hm hm' => ?_
    exact hab.ne (hg _ _ (List.mem_range.1 ha) (List.mem_range.1 hb) (hm.trans hm'.symm))
  rw [foldl_getElem?_touched (fun k m => g k = m) _ _ _ _ hdisjoint a i (List.mem_range.2 hi) (g i) rfl,
    Array.getElem?_setIfInBounds_self_of_lt hsize]
  · exact fun d k j hkj => Array.getElem?_setIfInBounds_ne hkj
  · rintro d d' k hd j rfl
    have hlt := lt_size_congr (hd (g k) rfl)
    simp only [Array.getElem?_setIfInBounds_self, hlt]

theorem revtab_revIndex (k : Nat) (inv : Bool) {i : Nat} (hi : i < 2 ^ k) :
    (revtab k inv).getD (revIndex k inv i) 0 = i := by
  rw [Array.getD_eq_getD_getElem?, revtab, foldl_setIfInBounds_getElem? (revIndex k inv) (fun i => i) _
    (fun _ _ => revIndex_inj) hi (by simpa using revIndex_lt k inv i)]
  rfl

/-- What an entry of the table is: a number below 2^k whose index it stands at. -/
theorem revtab_spec (k : Nat) (inv : Bool) {j : Nat} (hj : j < 2 ^ k) :
    (revtab k inv).getD j 0 < 2 ^ k ∧ revIndex k inv ((revtab k inv).getD j 0) = j := by
  obtain ⟨i, hi, rfl⟩ := exists_revIndex_eq k inv hj
  rw [revtab_revIndex k inv hi]
  exact ⟨hi, rfl⟩

/-- R79: element j of the buffer is moved to index revtab[j]. -/
theorem permute_revtab (k : Nat) (inv : Bool) (z : Array Cx) {j : Nat} (hj : j < 2 ^ k) :
    cxAt (permute k inv z) ((revtab k inv).getD j 0) = cxAt z j := by
  have hinj : ∀ a b, a < 2 ^ k → b < 2 ^ k → (revtab k inv).getD a 0 = (revtab k inv).getD b 0 → a = b := by
    intro a b ha hb hab
    rw [← (revtab_spec k inv ha).2, hab, (revtab_spec k inv hb).2]
  rw [cxAt, Array.getD_eq_getD_getElem?]
  refine (congrArg (Option.getD · Cx.zero) (foldl_setIfInBounds_getElem?
    (fun a => (revtab k inv).getD a 0) (cxAt z) _ hinj hj ?_)).trans rfl
  simpa using (revtab_spec k inv hj).1

/-! ### Buffers as floats and as complex elements -/

theorem cxAt_eq (z : Array Cx) (k : Nat) : cxAt z k = z.toList.getD k Cx.zero := by simp [cxAt]

/-- Element k of a complex buffer lies in floats 2k and 2k + 1 (R72). -/
theorem floatAt_floatsOfCx (z : Array Cx) (k : Nat) :
    floatAt (floatsOfCx z.toList) (2 * k) = (cxAt z k).re ∧
    floatAt (floatsOfCx z.toList) (2 * k + 1) = (cxAt z k).im := by
  rw [cxAt_eq]
  induction z.toList generalizing k with
  | nil => exact ⟨rfl, rfl⟩
  | cons z zs ih =>
    cases k with
    | zero => exact ⟨rfl, rfl⟩
    | succ k => exact ih k

/-- The complex elements of a float buffer (R72). -/
theorem cxAt_cxOfFloats (d : List F32) (k : Nat) (h : 2 * k + 1 < d.length) :
    cxAt (cxOfFloats d).toArray k = ⟨floatAt d (2 * k), floatAt d (2 * k + 1)⟩ := by
  rw [cxAt_eq]
  match d, k with
  | [], _ | [_], _ => simp at h
  | _ :: _ :: _, 0 => rfl
  | _ :: _ :: ds, k + 1 =>
    exact (cxAt_eq _ k).symm.trans (cxAt_cxOfFloats ds k (by rw [List.length_cons, List.length_cons] at h; omega))

/-! ### XF_PERM -/

/-- XF_PERM moves words, whatever floats they are (R74): the two words of element j go to its new place. -/
theorem permutedWords_revtab (x : Context) {ws : List Word} (hlen : ws.length = 2 * 2 ^ x.bits.toNat) {j : Nat}
    (hj : j < 2 ^ x.bits.toNat) :
    let k := (revtab x.bits.toNat (x.type == 1#2)).getD j 0
    (permutedWords x ws).getD (2 * k) 0#32 = ws.getD (2 * j) 0#32 ∧
    (permutedWords x ws).getD (2 * k + 1) 0#32 = ws.getD (2 * j + 1) 0#32 := by
  intro k
  have hword : ∀ m, (permutedWords x ws).getD m 0#32 = (floatAt (floatsOfCx (permute x.bits.toNat
      (x.type == 1#2) (cxOfFloats (ws.map F32.mk)).toArray).toList) m).bits :=
    fun m => List.getD_map _ F32.zero F32.bits
  have hfloat : ∀ m, floatAt (ws.map F32.mk) m = ⟨ws.getD m 0#32⟩ := fun m => List.getD_map _ 0#32 F32.mk
  have hmoved := permute_revtab x.bits.toNat (x.type == 1#2) (cxOfFloats (ws.map F32.mk)).toArray hj
  rw [cxAt_cxOfFloats _ _ (by rw [List.length_map]; omega), hfloat, hfloat] at hmoved
  obtain ⟨hre, him⟩ := floatAt_floatsOfCx
    (permute x.bits.toNat (x.type == 1#2) (cxOfFloats (ws.map F32.mk)).toArray) k
  rw [hword, hword, hre, him, hmoved]
  exact ⟨rfl, rfl⟩

theorem bufferElems_fft {x : Context} (hx : x.kind = .fft) : bufferElems x = 2 * 2 ^ x.bits.toNat := by
  simp [bufferElems, hx]

theorem bufferBytes_fft {x : Context} (hx : x.kind = .fft) : bufferBytes x = 8 * 2 ^ x.bits.toNat := by
  rw [bufferBytes, bufferElems_fft hx]; omega

/-- XF_PERM's effect on DMEM. -/
def permuted (x : Context) (a : Nat) (s : State) : State :=
  store s a (bytesOfWords (permutedWords x (readWords s a (bufferElems x))))

theorem exec_xfPerm_pass (c : CtxIdx) (addr : Word) (s : State) (hk : (context s c).kind = .fft)
    (h : RegionOk s addr (bufferBytes (context s c))) :
    exec (.xfPerm c addr) s = complete 1 (permuted (context s c) addr.toNat s) := by
  obtain ⟨halign, hfits⟩ := h
  change execXfPerm c addr s = _
  rw [execXfPerm, check_of_true (beq_iff_eq.2 hk), checkRegion_pass _ halign hfits, permuted]

theorem sameOutside_permuted {x : Context} (a : Nat) (s : State) (hx : x.kind = .fft) :
    SameOutside (InRegion a (bufferBytes x)) s (permuted x a s) :=
  sameOutside_store_words s a _ _ (congrArg (4 * ·) (permutedWords_length hx))

theorem readWord_permuted {x : Context} (a : Nat) (s : State) (hx : x.kind = .fft) {j : Nat}
    (hj : j < 2 ^ x.bits.toNat) :
    let k := (revtab x.bits.toNat (x.type == 1#2)).getD j 0
    readWord (permuted x a s) (a + 8 * k) = readWord s (a + 8 * j) ∧
    readWord (permuted x a s) (a + 8 * k + 4) = readWord s (a + 8 * j + 4) := by
  intro k
  have hk : k < 2 ^ x.bits.toNat := (revtab_spec _ _ hj).1
  have helems := bufferElems_fft hx
  have hbefore : ∀ m, m < bufferElems x → (readWords s a (bufferElems x)).getD m 0#32 = readWord s (a + 4 * m) :=
    fun m hm => readWords_getD s a _ m hm _
  have hafter : ∀ m, m < bufferElems x → readWord (permuted x a s) (a + 4 * m) =
      (permutedWords x (readWords s a (bufferElems x))).getD m 0#32 :=
    fun m hm => readWord_store_words s a _ m (hm.trans_eq (permutedWords_length hx).symm)
  obtain ⟨hre, him⟩ := permutedWords_revtab x ((readWords_length s a _).trans helems) hj
  rw [← hafter _ (by omega), hbefore _ (by omega)] at hre him
  constructor
  · rwa [← Nat.mul_assoc, ← Nat.mul_assoc] at hre
  · rwa [Nat.mul_succ, Nat.mul_succ, ← Nat.mul_assoc, ← Nat.mul_assoc, ← Nat.add_assoc, ← Nat.add_assoc] at him

/-! ### Sizes out of range -/

/-- The size range of R73, failed. -/
theorem bitsInRange_eq_false {kind : XfKind} {bits : BitVec 8}
    (h : kind = .fft ∧ (bits.toNat < 4 ∨ 16 < bits.toNat) ∨ kind = .rdft ∧ (bits.toNat < 5 ∨ 16 < bits.toNat) ∨
      kind = .dct ∧ (bits.toNat < 5 ∨ 14 < bits.toNat)) : bitsInRange kind bits = false := by
  obtain ⟨rfl, h⟩ | ⟨rfl, h⟩ | ⟨rfl, h⟩ := h <;> exact decide_eq_false (by omega)

/-! ### The obligations -/

/-- Settles O24: the index function is a permutation, and the table is filled through it. -/
theorem revtabIsAPermutation : Obligations.RevtabIsAPermutation := fun k inv =>
  ⟨revtab_size k inv, fun i hi => ⟨revIndex_lt k inv i, revtab_revIndex k inv hi⟩, fun _ => revtab_spec k inv⟩

/-- Settles O23: the words of the permuted elements, stored over the region that was read. -/
theorem xfPermMovesElements : Obligations.XfPermMovesElements := by
  intro c addr s hkind hr
  rw [← bufferBytes_fft hkind] at hr ⊢
  exact ⟨_, exec_xfPerm_pass c addr s hkind hr, rfl, fun _ => readWord_permuted addr.toNat s hkind,
    sameOutside_permuted addr.toNat s hkind⟩

/-- Settles O28: each check raises its error where the checks before it pass. -/
theorem xfErrorsInOrder : Obligations.XfErrorsInOrder := by
  intro c addr kind type bits s
  have hperm : exec (.xfPerm c addr) s = execXfPerm c addr s := rfl
  have hcalc : exec (.xfCalc c addr) s = execXfCalc c addr s := rfl
  rw [hperm, hcalc, execXfPerm, execXfCalc]
  refine ⟨fun hbits => ?_, fun hkind => ?_, fun hkind halign => ?_, fun hkind halign hout => ?_,
    fun hkind => ?_, fun hkind halign => ?_, fun hkind halign hout => ?_⟩
  · rw [BitVec.ofNat_toNat]
    exact check_of_false (bitsInRange_eq_false hbits) _ _ _ _
  · exact check_of_false (beq_eq_false_iff_ne.2 hkind) _ _ _ _
  · rw [check_of_true (beq_iff_eq.2 hkind), checkRegion_misaligned _ halign]
  · rw [check_of_true (beq_iff_eq.2 hkind), checkRegion_outside _ halign ((bufferBytes_fft hkind).symm ▸ hout)]
  · exact check_of_false (bne_eq_false_iff_eq.2 hkind) _ _ _ _
  · rw [check_of_true (bne_iff_ne.2 hkind), checkRegion_misaligned _ halign]
  · rw [check_of_true (bne_iff_ne.2 hkind), checkRegion_outside _ halign hout]

end Sys2Proof.FftPermutation
end

section
/-!
XF_CALC on FFT and RDFT contexts (41_transform_fft.md R75, R80; 42_transform_rdft_dct.md R88, R89): the loops of
R89 on the buffer in place, read as equations between its elements before and after.
-/

namespace Sys2Proof.RealTransforms

open Sys2Proof Sys2Proof.Machine Sys2Proof.Safety Sys2Proof.Laws Sys2Proof.FftPermutation

/-! ### Buffers as lists -/

theorem fAt_eq_floatAt (d : Array F32) (i : Nat) : fAt d i = floatAt d.toList i := by simp [fAt, floatAt]

theorem fAt_congr {d d' : Array F32} {i : Nat} (h : d[i]? = d'[i]?) : fAt d i = fAt d' i := by
  rw [fAt_eq, fAt_eq, h]

theorem list_ext_floatAt {u v : List F32} (hlen : u.length = v.length)
    (h : ∀ i, i < u.length → floatAt u i = floatAt v i) : u = v := by
  refine List.ext_getElem hlen fun i hu hv => ?_
  simpa [floatAt, hu, hv] using h i hu

theorem cx_ext_cxAt {z z' : Array Cx} (hsize : z.size = z'.size) (h : ∀ k, k < z.size → cxAt z k = cxAt z' k) :
    z = z' := by
  refine Array.ext hsize fun i hz hz' => ?_
  simpa [cxAt, hz, hz'] using h i hz

/-! ### CORE -/

/-- The buffer of n = 2·half elements as CORE reads it (R89). -/
theorem cxOfFloats_eq_map {d : Array F32} {half : Nat} (hsize : d.size = 2 * half) :
    ((List.range half).map fun k => Cx.mk (fAt d (2 * k)) (fAt d (2 * k + 1))).toArray =
      (cxOfFloats d.toList).toArray := by
  have hlen : (cxOfFloats d.toList).length = half := by
    rw [cxOfFloats_length, Array.length_toList, hsize]; omega
  refine cx_ext_cxAt (by simp [hlen]) fun k hk => ?_
  have hk' : k < half := by simpa using hk
  rw [cxAt_cxOfFloats _ _ (by rw [Array.length_toList]; omega), ← fAt_eq_floatAt, ← fAt_eq_floatAt]
  simp [cxAt, hk']

/-- CORE's last loop: the complex elements written back as floats (R89). -/
def storeCx (z : Array Cx) (half : Nat) (d : Array F32) : Array F32 :=
  (List.range half).foldl (fun d k => fSet (fSet d (2 * k) (cxAt z k).re) (2 * k + 1) (cxAt z k).im) d

@[simp] theorem storeCx_size (z : Array Cx) (half : Nat) (d : Array F32) : (storeCx z half d).size = d.size :=
  foldl_size _ (by simp) _ d

/-- Turn k writes the two floats of element k, and no other turn does. -/
theorem fAt_storeCx (z : Array Cx) {half : Nat} {d : Array F32} (hsize : d.size = 2 * half) {k : Nat}
    (hk : k < half) :
    fAt (storeCx z half d) (2 * k) = (cxAt z k).re ∧ fAt (storeCx z half d) (2 * k + 1) = (cxAt z k).im := by
  have hturn : ∀ j, j / 2 = k →
      (storeCx z half d)[j]? = (fSet (fSet d (2 * k) (cxAt z k).re) (2 * k + 1) (cxAt z k).im)[j]? := by
    refine foldl_getElem?_touched (fun k j => j / 2 = k) _ ?_ ?_ _ ?_ d k (List.mem_range.2 hk)
    · intro d i j hij
      simp only [fSet_getElem?]
      rw [if_neg (by omega), if_neg (by omega)]
    · intro d d' i hd j hij
      have hlt := lt_size_congr (hd j hij)
      simp only [fSet_getElem?, fSet_size, hd j hij, hlt]
    · exact List.pairwise_lt_range.imp fun hab m hm hm' => by omega
  rw [fAt_congr (hturn (2 * k) (by omega)), fAt_congr (hturn (2 * k + 1) (by omega))]
  have hlow : 2 * k < d.size := by omega
  have hhigh : 2 * k + 1 < d.size := by omega
  simp [fAt_fSet, hlow, hhigh]

/-- Complex elements written over a whole buffer are its floats (R72). -/
theorem storeCx_toList (z : Array Cx) {d : Array F32} (hsize : d.size = 2 * z.size) :
    (storeCx z z.size d).toList = floatsOfCx z.toList := by
  refine list_ext_floatAt (by simp [hsize]) fun i hi => ?_
  rw [Array.length_toList, storeCx_size] at hi
  rw [← fAt_eq_floatAt]
  obtain ⟨k, rfl | rfl⟩ := Nat.even_or_odd' i
  · rw [(floatAt_floatsOfCx z k).1]
    exact (fAt_storeCx z hsize (by omega)).1
  · rw [(floatAt_floatsOfCx z k).2]
    exact (fAt_storeCx z hsize (by omega)).2

/-- CORE on a buffer of 2^bits elements is `coreOf` of its elements (R89). -/
theorem rdftCore_toList (p : Params) (bits : Nat) (inv : Bool) {d : Array F32} (hbits : 1 ≤ bits)
    (hsize : d.size = 2 ^ bits) : (rdftCore p bits inv d).toList = coreOf p bits inv d.toList := by
  have hhalf : d.size = 2 * 2 ^ (bits - 1) := by rw [hsize, mul_pow_sub_one (by omega)]
  rw [rdftCore, coreOf, cxOfFloats_eq_map hhalf]
  generalize hz : fftCalc p (bits - 1) (permute (bits - 1) inv (cxOfFloats d.toList).toArray) = z
  have hzsize : z.size = 2 ^ (bits - 1) := by rw [← hz, fftCalc_size, permute_size]
  rw [← hzsize] at hhalf ⊢
  exact storeCx_toList z hhalf

/-! ### The fold -/

/-- The row of R88 that a type is. -/
def rowOf (code : BitVec 2) (t : RdftType) : RdftRow :=
  ⟨code, rdftInverse t, rdftSignNeg t, rdftFftInv t, rdftSineNeg t⟩

theorem eq_rowOf {r : RdftRow} (hr : r ∈ rdftRows) : r = rowOf r.code (rdftTypeOf r.code) := by
  revert r; decide

/-- R89's first statement of the fold: the DC and Nyquist pair. -/
def pairEnds (d : Array F32) : Array F32 :=
  fSet (fSet d 0 (fadd (fAt d 0) (fAt d 1))) 1 (fsub (fAt d 0) (fAt d 1))

/-- R89's loop over i = 1 .. n/4 - 1. -/
def foldLoop (p : Params) (bits : Nat) (t : RdftType) (d : Array F32) : Array F32 :=
  (List.range' 1 (2 ^ bits / 4 - 1)).foldl (rdftFold p bits t) d

/-- R89's last statement of the fold: the sign of element n/2 + 1. -/
def signMiddle (bits : Nat) (neg : Bool) (d : Array F32) : Array F32 :=
  if neg then fSet d (2 ^ bits / 2 + 1) (fneg (fAt d (2 ^ bits / 2 + 1))) else d

/-- R89's statements between its two CORE lines. -/
def rdftMiddle (p : Params) (bits : Nat) (t : RdftType) (d : Array F32) : Array F32 :=
  signMiddle bits (rdftSignNeg t) (foldLoop p bits t (pairEnds d))

/-- R89's two statements before the inverse types' CORE. -/
def halveEnds (d : Array F32) : Array F32 :=
  fSet (fSet d 0 (fmul (fAt d 0) f32Half)) 1 (fmul (fAt d 1) f32Half)

theorem rdft_of_forward {t : RdftType} (ht : rdftInverse t = false) (p : Params) (bits : Nat) (d : Array F32) :
    rdft p bits t d = rdftMiddle p bits t (rdftCore p bits (rdftFftInv t) d) := by
  simp only [rdft, rdftMiddle, signMiddle, foldLoop, pairEnds, ht, Bool.false_eq_true, if_false]

theorem rdft_of_inverse {t : RdftType} (ht : rdftInverse t = true) (p : Params) (bits : Nat) (d : Array F32) :
    rdft p bits t d = rdftCore p bits (rdftFftInv t) (halveEnds (rdftMiddle p bits t d)) := by
  simp only [rdft, rdftMiddle, signMiddle, foldLoop, pairEnds, halveEnds, ht, if_true]

@[simp] theorem pairEnds_size (d : Array F32) : (pairEnds d).size = d.size := by simp [pairEnds]

@[simp] theorem foldLoop_size (p : Params) (bits : Nat) (t : RdftType) (d : Array F32) :
    (foldLoop p bits t d).size = d.size := foldl_size _ (rdftFold_size p bits t) _ d

@[simp] theorem rdftMiddle_size (p : Params) (bits : Nat) (t : RdftType) (d : Array F32) :
    (rdftMiddle p bits t d).size = d.size := by
  rw [rdftMiddle, signMiddle]
  split <;> simp

@[simp] theorem halveEnds_size (d : Array F32) : (halveEnds d).size = d.size := by simp [halveEnds]

theorem halveEnds_toList {d : Array F32} (hsize : 2 ≤ d.size) : (halveEnds d).toList = halvedEnds d.toList := by
  obtain ⟨l⟩ := d
  match l with
  | [] | [_] => simp at hsize
  | _ :: _ :: _ => rfl

theorem fAt_pairEnds {d : Array F32} (hsize : 2 ≤ d.size) :
    fAt (pairEnds d) 0 = fadd (fAt d 0) (fAt d 1) ∧ fAt (pairEnds d) 1 = fsub (fAt d 0) (fAt d 1) ∧
    ∀ j, 2 ≤ j → fAt (pairEnds d) j = fAt d j := by
  simp only [pairEnds, fAt_fSet, fSet_size, true_and]
  refine ⟨?_, ?_, fun j hj => ?_⟩
  · rw [if_neg (by omega), if_pos (by omega)]
  · rw [if_pos (by omega)]
  · rw [if_neg (by omega), if_neg (by omega)]

theorem fAt_signMiddle_self {bits : Nat} {d : Array F32} (hsize : 2 ^ bits / 2 + 1 < d.size) (neg : Bool) :
    fAt (signMiddle bits neg d) (2 ^ bits / 2 + 1) =
      if neg then fneg (fAt d (2 ^ bits / 2 + 1)) else fAt d (2 ^ bits / 2 + 1) := by
  cases neg with
  | false => rfl
  | true => exact (fAt_fSet _ _ _ _).trans (if_pos ⟨rfl, hsize⟩)

theorem fAt_signMiddle_of_ne {bits j : Nat} (d : Array F32) (hj : j ≠ 2 ^ bits / 2 + 1) (neg : Bool) :
    fAt (signMiddle bits neg d) j = fAt d j := by
  cases neg with
  | false => rfl
  | true => exact (fAt_fSet _ _ _ _).trans (if_neg fun h => hj h.1.symm)

/-! ### One turn of the loop -/

/-- What turn i of R89's loop makes of the four elements it touches. -/
def RdftTurn (p : Params) (bits : Nat) (r : RdftRow) (u v : List F32) (i : Nat) : Prop :=
  let k2 := if r.inverse then minusHalf else oneHalf
  let tcos := cosTable p bits i
  let tsin := sinTable p bits r.sineNeg i
  let i2 := 2 ^ bits - 2 * i
  let evre := fmul oneHalf (fadd (floatAt u (2 * i)) (floatAt u i2))
  let odim := fmul (fneg k2) (fsub (floatAt u (2 * i)) (floatAt u i2))
  let evim := fmul oneHalf (fsub (floatAt u (2 * i + 1)) (floatAt u (i2 + 1)))
  let odre := fmul k2 (fadd (floatAt u (2 * i + 1)) (floatAt u (i2 + 1)))
  floatAt v (2 * i) = fsub (fadd evre (fmul odre tcos)) (fmul odim tsin) ∧
  floatAt v (2 * i + 1) = fadd (fadd evim (fmul odim tcos)) (fmul odre tsin) ∧
  floatAt v i2 = fadd (fsub evre (fmul odre tcos)) (fmul odim tsin) ∧
  floatAt v (i2 + 1) = fadd (fadd (fneg evim) (fmul odim tcos)) (fmul odre tsin)

/-- A turn is about the elements it touches only. -/
theorem RdftTurn.congr {p : Params} {bits : Nat} {r : RdftRow} {u v u' v' : List F32} {i : Nat}
    (h : RdftTurn p bits r u v i) (hu : ∀ j, RdftTouches bits i j → floatAt u j = floatAt u' j)
    (hv : ∀ j, RdftTouches bits i j → floatAt v j = floatAt v' j) : RdftTurn p bits r u' v' i := by
  simp only [RdftTouches, forall_eq_or_imp, forall_eq] at hu hv
  obtain ⟨hu1, hu2, hu3, hu4⟩ := hu
  obtain ⟨hv1, hv2, hv3, hv4⟩ := hv
  unfold RdftTurn at h ⊢
  simp only [hu1, hu2, hu3, hu4, hv1, hv2, hv3, hv4] at h
  exact h

/-- Four writes at a, a + 1, b and b + 1, read back. -/
theorem fAt_fSet_four {d : Array F32} {a b : Nat} (hab : a + 1 < b) (hb : b + 1 < d.size) (w x y z : F32) :
    let v := fSet (fSet (fSet (fSet d a w) (a + 1) x) b y) (b + 1) z
    fAt v a = w ∧ fAt v (a + 1) = x ∧ fAt v b = y ∧ fAt v (b + 1) = z := by
  simp only [fAt_fSet, fSet_size, true_and]
  refine ⟨?_, ?_, ?_, ?_⟩
  · rw [if_neg (by omega), if_neg (by omega), if_neg (by omega), if_pos (by omega)]
  · rw [if_neg (by omega), if_neg (by omega), if_pos (by omega)]
  · rw [if_neg (by omega), if_pos (by omega)]
  · rw [if_pos (by omega)]

theorem minusHalf_eq : minusHalf = fneg f32Half := by decide

theorem rdftTurn_rdftFold (p : Params) (bits : Nat) (code : BitVec 2) (t : RdftType) {d : Array F32}
    (hsize : d.size = 2 ^ bits) {i : Nat} (hi : 1 ≤ i) (hi' : i < 2 ^ bits / 4) :
    RdftTurn p bits (rowOf code t) d.toList (rdftFold p bits t d i).toList i := by
  have hab : 2 * i + 1 < 2 ^ bits - 2 * i := by omega
  have hb : 2 ^ bits - 2 * i + 1 < d.size := by omega
  unfold RdftTurn
  simp only [← fAt_eq_floatAt, minusHalf_eq]
  exact fAt_fSet_four hab hb _ _ _ _

/-! ### The whole loop -/

theorem touches_disjoint (bits : Nat) : (List.range' 1 (2 ^ bits / 4 - 1)).Pairwise fun a b =>
    ∀ m, RdftTouches bits a m → ¬ RdftTouches bits b m := by
  refine (List.pairwise_lt_range' 1).imp_of_mem fun ha hb hab m hm hm' => ?_
  rw [List.mem_range'_1] at ha hb
  unfold RdftTouches at hm hm'
  omega

theorem fAt_foldLoop_untouched (p : Params) (bits : Nat) (t : RdftType) (d : Array F32) {j : Nat}
    (hj : ∀ i, 1 ≤ i → i < 2 ^ bits / 4 → ¬ RdftTouches bits i j) : fAt (foldLoop p bits t d) j = fAt d j := by
  refine fAt_congr (foldl_getElem?_untouched _ _ (rdftFold_untouched p bits t) _ d j fun i hi => ?_)
  rw [List.mem_range'_1] at hi
  exact hj i hi.1 (by omega)

theorem fAt_foldLoop_touched (p : Params) (bits : Nat) (t : RdftType) (d : Array F32) {i j : Nat} (hi : 1 ≤ i)
    (hi' : i < 2 ^ bits / 4) (hj : RdftTouches bits i j) :
    fAt (foldLoop p bits t d) j = fAt (rdftFold p bits t d i) j :=
  fAt_congr (foldl_getElem?_touched _ _ (rdftFold_untouched p bits t) (rdftFold_touched p bits t) _
    (touches_disjoint bits) d i (List.mem_range'_1.2 (by omega)) j hj)

/-- R89's fold, element by element. -/
theorem rdftFolds_rdftMiddle (p : Params) {bits : Nat} (code : BitVec 2) (t : RdftType) {d : Array F32}
    (hbits : 2 ≤ bits) (hsize : d.size = 2 ^ bits) :
    RdftFolds p bits (rowOf code t) d.toList (rdftMiddle p bits t d).toList := by
  obtain ⟨q, hq, hn⟩ : ∃ q, 0 < q ∧ 2 ^ bits = 4 * q :=
    ⟨2 ^ (bits - 2), by positivity, by rw [← Nat.pow_add 2 2, Nat.add_sub_cancel' hbits]⟩
  obtain ⟨hdc, hnyquist, hrest⟩ := fAt_pairEnds (d := d) (by omega)
  have hloop : ∀ j, j = 0 ∨ j = 1 ∨ j = 2 ^ bits / 2 ∨ j = 2 ^ bits / 2 + 1 →
      fAt (foldLoop p bits t (pairEnds d)) j = fAt (pairEnds d) j := fun j hj =>
    fAt_foldLoop_untouched p bits t _ fun i hi hi' htouch => by unfold RdftTouches at htouch; omega
  have hmiddle : 2 ^ bits / 2 + 1 < (foldLoop p bits t (pairEnds d)).size := by
    rw [foldLoop_size, pairEnds_size]; omega
  refine ⟨by simp [hsize], ?_, ?_, ?_, ?_, fun i hi hi' => ?_⟩
  · rw [← fAt_eq_floatAt, rdftMiddle, fAt_signMiddle_of_ne _ (by omega), hloop 0 (by omega), hdc]
    simp only [fAt_eq_floatAt]
  · rw [← fAt_eq_floatAt, rdftMiddle, fAt_signMiddle_of_ne _ (by omega), hloop 1 (by omega), hnyquist]
    simp only [fAt_eq_floatAt]
  · rw [← fAt_eq_floatAt, rdftMiddle, fAt_signMiddle_of_ne _ (by omega), hloop (2 ^ bits / 2) (by omega),
      hrest _ (by omega), fAt_eq_floatAt]
  · rw [← fAt_eq_floatAt, rdftMiddle, fAt_signMiddle_self hmiddle, hloop (2 ^ bits / 2 + 1) (by omega),
      hrest _ (by omega), fAt_eq_floatAt, rowOf]
  · refine (rdftTurn_rdftFold p bits code t ((pairEnds_size d).trans hsize) hi hi').congr (fun j hj => ?_)
      fun j hj => ?_
    · rw [← fAt_eq_floatAt, hrest j (by unfold RdftTouches at hj; omega), fAt_eq_floatAt]
    · rw [← fAt_eq_floatAt, ← fAt_eq_floatAt, rdftMiddle,
        fAt_signMiddle_of_ne _ (by unfold RdftTouches at hj; omega), fAt_foldLoop_touched p bits t _ hi hi' hj]

/-- A forward type is CORE and then the fold (R89). -/
theorem rdft_forward_spec (p : Params) {bits : Nat} (code : BitVec 2) {t : RdftType} {d : Array F32}
    (hbits : 2 ≤ bits) (hsize : d.size = 2 ^ bits) (ht : rdftInverse t = false) :
    RdftFolds p bits (rowOf code t) (coreOf p bits (rdftFftInv t) d.toList) (rdft p bits t d).toList := by
  rw [rdft_of_forward ht, ← rdftCore_toList p bits _ (by omega) hsize]
  exact rdftFolds_rdftMiddle p code t hbits ((rdftCore_size p bits _ d).trans hsize)

/-- An inverse type is the fold, the halving of elements 0 and 1, and then CORE (R89). -/
theorem rdft_inverse_spec (p : Params) {bits : Nat} (code : BitVec 2) {t : RdftType} {d : Array F32}
    (hbits : 2 ≤ bits) (hsize : d.size = 2 ^ bits) (ht : rdftInverse t = true) :
    ∃ v, RdftFolds p bits (rowOf code t) d.toList v ∧
      (rdft p bits t d).toList = coreOf p bits (rdftFftInv t) (halvedEnds v) := by
  have hmiddle : (rdftMiddle p bits t d).size = 2 ^ bits := (rdftMiddle_size p bits t d).trans hsize
  have htwo : 2 ≤ 2 ^ bits := Nat.le_self_pow (by omega) 2
  refine ⟨_, rdftFolds_rdftMiddle p code t hbits hsize, ?_⟩
  rw [rdft_of_inverse ht, rdftCore_toList p bits _ (by omega) ((halveEnds_size _).trans hmiddle),
    halveEnds_toList (htwo.trans_eq hmiddle.symm)]

/-! ### The obligation -/

/-- Settles O26: `rdft` is CORE and the fold in the order of the type's row. -/
theorem fftAndRdftFollowTheirProcedures : Obligations.FftAndRdftFollowTheirProcedures := by
  refine ⟨?_, ?_⟩
  · rintro p ⟨kind, type, bits⟩ d rfl
    exact ⟨rfl, fun _ => rfl⟩
  · rintro p ⟨kind, type, bits⟩ d rfl (hmin : 5 ≤ bits.toNat) - hlen r hr rfl
    have hbits : 2 ≤ bits.toNat := by omega
    rw [eq_rowOf hr]
    exact ⟨rdft_forward_spec p r.code (d := d.toArray) hbits hlen,
      rdft_inverse_spec p r.code (d := d.toArray) hbits hlen⟩

end Sys2Proof.RealTransforms
end

section
/-!
XF_CALC on DCT contexts (42_transform_rdft_dct.md R91 to R96): the loops before and after the RDFT on the buffer
in place, read as equations between its elements before and after.
-/

namespace Sys2Proof.CosineTransforms

open Sys2Proof Sys2Proof.Machine Sys2Proof.Safety Sys2Proof.Laws Sys2Proof.RealTransforms

theorem exists_samples_eq {bits : Nat} (hbits : 2 ≤ bits) : ∃ q, 0 < q ∧ 2 ^ bits = 4 * q :=
  ⟨2 ^ (bits - 2), by positivity, by rw [← Nat.pow_add 2 2, Nat.add_sub_cancel' hbits]⟩

/-! ### Two writes -/

theorem fAt_fSet_of_ne {i j : Nat} (h : i ≠ j) (d : Array F32) (v : F32) : fAt (fSet d i v) j = fAt d j := by
  rw [fAt_fSet, if_neg fun hij => h hij.1]

theorem fAt_fSet_self {d : Array F32} {i : Nat} (h : i < d.size) (v : F32) : fAt (fSet d i v) i = v := by
  rw [fAt_fSet, if_pos ⟨rfl, h⟩]

theorem fAt_fSet_two {d : Array F32} {a b : Nat} (hab : a ≠ b) (ha : a < d.size) (hb : b < d.size) (x y : F32) :
    fAt (fSet (fSet d a x) b y) a = x ∧ fAt (fSet (fSet d a x) b y) b = y :=
  ⟨(fAt_fSet_of_ne hab.symm _ _).trans (fAt_fSet_self ha x), fAt_fSet_self (by rwa [fSet_size]) y⟩

theorem fAt_fSet_two_of_ne {a b j : Nat} (ha : a ≠ j) (hb : b ≠ j) (d : Array F32) (x y : F32) :
    fAt (fSet (fSet d a x) b y) j = fAt d j := by
  rw [fAt_fSet_of_ne hb, fAt_fSet_of_ne ha]

/-! ### Loops whose turns read what other turns write -/

section Turns

variable {σ β : Type} {f : σ → Nat → σ} (g : σ → β)

/-- The state of a loop after its first k turns. -/
def afterTurns (f : σ → Nat → σ) (s : σ) (k : Nat) : σ := (List.range k).foldl f s

theorem afterTurns_succ (s : σ) (k : Nat) : afterTurns f s (k + 1) = f (afterTurns f s k) k := by
  simp [afterTurns, List.range_succ]

/-- What turns a, …, b - 1 keep stands after turn b as it stood after turn a. -/
theorem afterTurns_kept {s : σ} {a b : Nat} (hab : a ≤ b)
    (h : ∀ s i, a ≤ i → i < b → g (f s i) = g s) : g (afterTurns f s b) = g (afterTurns f s a) := by
  induction b, hab using Nat.le_induction with
  | base => rfl
  | succ b hab ih =>
    rw [afterTurns_succ, h _ b hab (by omega), ih fun s i hi hib => h s i hi (by omega)]

/-- What the first k turns keep stands as at the start. -/
theorem afterTurns_untouched {s : σ} {k : Nat} (h : ∀ s i, i < k → g (f s i) = g s) :
    g (afterTurns f s k) = g s :=
  afterTurns_kept g (Nat.zero_le k) fun s i _ => h s i

/-- What no turn after turn k changes ends as turn k leaves it. -/
theorem afterTurns_last {s : σ} {k n : Nat} (hk : k < n) (h : ∀ s i, k < i → i < n → g (f s i) = g s) :
    g (afterTurns f s n) = g (f (afterTurns f s k) k) := by
  rw [afterTurns_kept g hk h, afterTurns_succ]

end Turns

/-! ### Loops over mirrored pairs -/

/-- Turn i of a loop that replaces elements i and m i by functions of the two. -/
def mirrorTurn (m : Nat → Nat) (low high : Nat → F32 → F32 → F32) (d : Array F32) (i : Nat) : Array F32 :=
  fSet (fSet d i (low i (fAt d i) (fAt d (m i)))) (m i) (high i (fAt d i) (fAt d (m i)))

/-- The two elements that turn i touches. -/
def MirrorTouches (m : Nat → Nat) (i j : Nat) : Prop := j = i ∨ j = m i

section Mirror

variable {m : Nat → Nat} {low high : Nat → F32 → F32 → F32}

@[simp] theorem mirrorTurn_size (d : Array F32) (i : Nat) : (mirrorTurn m low high d i).size = d.size := by
  simp [mirrorTurn]

@[simp] theorem mirrorLoop_size (l : List Nat) (d : Array F32) :
    (l.foldl (mirrorTurn m low high) d).size = d.size := foldl_size _ mirrorTurn_size l d

theorem mirrorTurn_untouched (d : Array F32) (i j : Nat) (h : ¬ MirrorTouches m i j) :
    (mirrorTurn m low high d i)[j]? = d[j]? := by
  simp only [MirrorTouches, not_or] at h
  simp only [mirrorTurn, fSet_getElem?]
  rw [if_neg (by omega), if_neg (by omega)]

theorem mirrorTurn_touched (d d' : Array F32) (i : Nat) (h : ∀ j, MirrorTouches m i j → d[j]? = d'[j]?) (j : Nat)
    (hj : MirrorTouches m i j) : (mirrorTurn m low high d i)[j]? = (mirrorTurn m low high d' i)[j]? := by
  have hi := fAt_congr (h i (.inl rfl))
  have hm := fAt_congr (h (m i) (.inr rfl))
  simp only [mirrorTurn, fSet_getElem?, fSet_size, hi, hm, h j hj, lt_size_congr (h j hj)]

theorem fAt_mirrorLoop_untouched {l : List Nat} (d : Array F32) {j : Nat} (h : ∀ i ∈ l, ¬ MirrorTouches m i j) :
    fAt (l.foldl (mirrorTurn m low high) d) j = fAt d j :=
  fAt_congr (foldl_getElem?_untouched _ _ mirrorTurn_untouched l d j h)

/-- Where the pairs are disjoint, each ends as its own turn makes it from the buffer at the start. -/
theorem fAt_mirrorLoop {l : List Nat} (hl : l.Pairwise fun a b => ∀ j, MirrorTouches m a j → ¬ MirrorTouches m b j)
    {d : Array F32} {i : Nat} (hil : i ∈ l) (him : i ≠ m i) (hi : i < d.size) (hm : m i < d.size) :
    fAt (l.foldl (mirrorTurn m low high) d) i = low i (fAt d i) (fAt d (m i)) ∧
    fAt (l.foldl (mirrorTurn m low high) d) (m i) = high i (fAt d i) (fAt d (m i)) := by
  have hturn := foldl_getElem?_touched _ _ (mirrorTurn_untouched (low := low) (high := high)) mirrorTurn_touched
    l hl d i hil
  rw [fAt_congr (hturn i (.inl rfl)), fAt_congr (hturn (m i) (.inr rfl))]
  exact fAt_fSet_two him hi hm _ _

/-- Turns over the lower half have disjoint pairs when the mirror images lie above it. -/
theorem mirrors_disjoint {half : Nat} {l : List Nat} (hl : l.Pairwise (· < ·))
    (hm : ∀ i ∈ l, i < half ∧ half ≤ m i) (hinj : ∀ a ∈ l, ∀ b ∈ l, a < b → m a ≠ m b) :
    l.Pairwise fun a b => ∀ j, MirrorTouches m a j → ¬ MirrorTouches m b j := by
  refine hl.imp_of_mem fun {a b} ha hb hab j hja hjb => ?_
  have := hm a ha
  have := hm b hb
  have := hinj a ha b hb hab
  unfold MirrorTouches at hja hjb
  omega

end Mirror

/-- The pairs i and n - i of R93 and R96. -/
theorem mirrors_disjoint_sub {bits : Nat} {l : List Nat} (hl : l.Pairwise (· < ·))
    (hm : ∀ i ∈ l, i < 2 ^ bits / 2) :
    l.Pairwise fun a b =>
      ∀ j, MirrorTouches (fun i => 2 ^ bits - i) a j → ¬ MirrorTouches (fun i => 2 ^ bits - i) b j := by
  refine mirrors_disjoint (half := 2 ^ bits / 2) hl (fun i hi => ?_) fun a ha b hb hab => ?_
  · have := hm i hi; omega
  · have := hm a ha; have := hm b hb; omega

/-- The pairs i and n - i - 1 of R94 and R95. -/
theorem lastMirrors_disjoint (bits : Nat) : (List.range (2 ^ bits / 2)).Pairwise fun a b =>
    ∀ j, MirrorTouches (fun i => 2 ^ bits - i - 1) a j → ¬ MirrorTouches (fun i => 2 ^ bits - i - 1) b j := by
  refine mirrors_disjoint (half := 2 ^ bits / 2) List.pairwise_lt_range (fun i hi => ?_) fun a ha b hb hab => ?_
  · rw [List.mem_range] at hi; omega
  · rw [List.mem_range] at ha hb; omega

/-! ### DCT_II -/

/-- R94's first loop. -/
def dctIIFold (p : Params) (bits : Nat) (d : Array F32) : Array F32 :=
  (List.range (2 ^ bits / 2)).foldl (mirrorTurn (fun i => 2 ^ bits - i - 1)
    (fun i a b => fadd (fmul (fadd a b) f32Half) (fmul (dctSin p bits (2 * i + 1)) (fsub a b)))
    (fun i a b => fsub (fmul (fadd a b) f32Half) (fmul (dctSin p bits (2 * i + 1)) (fsub a b)))) d

/-- The turn of R94's second loop at the even element i, with `next` carried beside the buffer. -/
def dctIITurn (p : Params) (bits i : Nat) (s : Array F32 × F32) : Array F32 × F32 :=
  (fSet (fSet s.1 i (fadd (fmul (dctCos p bits i) (fAt s.1 i)) (fmul (dctSin p bits i) (fAt s.1 (i + 1)))))
    (i + 1) s.2,
   fadd s.2 (fsub (fmul (dctSin p bits i) (fAt s.1 i)) (fmul (dctCos p bits i) (fAt s.1 (i + 1)))))

/-- R94's second loop after k turns. -/
def dctIIAfterTurns (p : Params) (bits : Nat) (s : Array F32 × F32) (k : Nat) : Array F32 × F32 :=
  afterTurns (fun s k => dctIITurn p bits (2 ^ bits - 2 - 2 * k) s) s k

/-- R94's statements after the RDFT. -/
def dctIIUnfold (p : Params) (bits : Nat) (r : Array F32) : Array F32 :=
  (dctIIAfterTurns p bits (fSet r 1 (fneg (fAt r 1)), fmul (fAt r 1) f32Half) (2 ^ bits / 2)).1

theorem dctII_eq (p : Params) (bits : Nat) (d : Array F32) :
    dctII p bits d = dctIIUnfold p bits (rdft p bits .dftR2C (dctIIFold p bits d)) := rfl

theorem dctIIBefore_dctIIFold (p : Params) {bits : Nat} {d : Array F32} (hsize : d.size = 2 ^ bits) :
    DctIIBefore p bits d.toList (dctIIFold p bits d).toList := by
  refine ⟨by simp [dctIIFold, hsize], fun i hi => ?_⟩
  simp only [← fAt_eq_floatAt]
  exact fAt_mirrorLoop (m := fun i => 2 ^ bits - i - 1) (lastMirrors_disjoint bits) (List.mem_range.2 hi)
    (by omega) (by omega) (by omega)

theorem dctIITurn_keeps (p : Params) {bits i j : Nat} (s : Array F32 × F32) (hi : i ≠ j) (hi' : i + 1 ≠ j) :
    fAt (dctIITurn p bits i s).1 j = fAt s.1 j := fAt_fSet_two_of_ne hi hi' _ _ _

@[simp] theorem dctIIAfterTurns_size (p : Params) (bits : Nat) (s : Array F32 × F32) (k : Nat) :
    (dctIIAfterTurns p bits s k).1.size = s.1.size :=
  afterTurns_untouched (fun s : Array F32 × F32 => s.1.size) fun s i _ => by simp [dctIITurn]

/-- The turn at 2m reads its two elements as they stood at the start. -/
theorem fAt_dctIIAfterTurns_unread (p : Params) {bits k j : Nat} (s : Array F32 × F32)
    (hj : j + 2 * k < 2 ^ bits) : fAt (dctIIAfterTurns p bits s k).1 j = fAt s.1 j :=
  afterTurns_untouched (fun s => fAt s.1 j) fun s i hi => dctIITurn_keeps p s (by omega) (by omega)

/-- The turn at 2m writes `next` above the even element, and no later turn writes there. -/
theorem fAt_dctIIAfterTurns (p : Params) {bits k m : Nat} {s : Array F32 × F32} (hsize : s.1.size = 2 ^ bits)
    (hkm : 2 * (k + m + 1) = 2 ^ bits) :
    let y := (dctIIAfterTurns p bits s (2 ^ bits / 2)).1
    fAt y (2 * m) = fadd (fmul (dctCos p bits (2 * m)) (fAt s.1 (2 * m)))
      (fmul (dctSin p bits (2 * m)) (fAt s.1 (2 * m + 1))) ∧
    fAt y (2 * m + 1) = (dctIIAfterTurns p bits s k).2 := by
  have hturn : ∀ j, 2 * m ≤ j → fAt (dctIIAfterTurns p bits s (2 ^ bits / 2)).1 j =
      fAt (dctIITurn p bits (2 * m) (dctIIAfterTurns p bits s k)).1 j := fun j hj => by
    have hlast := afterTurns_last (f := fun s k => dctIITurn p bits (2 ^ bits - 2 - 2 * k) s) (s := s)
      (fun s => fAt s.1 j) (k := k) (n := 2 ^ bits / 2) (by omega)
      fun s i _ _ => dctIITurn_keeps p s (by omega) (by omega)
    rwa [show 2 ^ bits - 2 - 2 * k = 2 * m by omega] at hlast
  have hwrite := fAt_fSet_two (d := (dctIIAfterTurns p bits s k).1) (a := 2 * m) (b := 2 * m + 1) (by omega)
    (by rw [dctIIAfterTurns_size]; omega) (by rw [dctIIAfterTurns_size]; omega)
  dsimp only
  rw [hturn _ le_rfl, hturn _ (by omega), dctIITurn, (hwrite _ _).1, (hwrite _ _).2,
    fAt_dctIIAfterTurns_unread p s (by omega), fAt_dctIIAfterTurns_unread p s (by omega)]
  exact ⟨rfl, rfl⟩

/-- `next` after the turn at 2m. -/
theorem dctIIAfterTurns_next (p : Params) {bits k m : Nat} (s : Array F32 × F32)
    (hkm : 2 * (k + m + 1) = 2 ^ bits) :
    (dctIIAfterTurns p bits s (k + 1)).2 = fadd (dctIIAfterTurns p bits s k).2
      (fsub (fmul (dctSin p bits (2 * m)) (fAt s.1 (2 * m)))
        (fmul (dctCos p bits (2 * m)) (fAt s.1 (2 * m + 1)))) := by
  rw [← fAt_dctIIAfterTurns_unread p (bits := bits) s (k := k) (j := 2 * m) (by omega),
    ← fAt_dctIIAfterTurns_unread p (bits := bits) s (k := k) (j := 2 * m + 1) (by omega), dctIIAfterTurns,
    afterTurns_succ, show 2 ^ bits - 2 - 2 * k = 2 * m by omega]
  rfl

theorem dctIIAfter_dctIIUnfold (p : Params) {bits : Nat} {r : Array F32} (hbits : 2 ≤ bits)
    (hsize : r.size = 2 ^ bits) : DctIIAfter p bits r.toList (dctIIUnfold p bits r).toList := by
  obtain ⟨q, hq, hn⟩ := exists_samples_eq hbits
  have heven : ∀ m, fAt (fSet r 1 (fneg (fAt r 1))) (2 * m) = fAt r (2 * m) := fun m =>
    fAt_fSet_of_ne (by omega) _ _
  have hodd : ∀ m, fAt (fSet r 1 (fneg (fAt r 1))) (2 * m + 1) =
      if m = 0 then fneg (fAt r 1) else fAt r (2 * m + 1) := fun m => by
    split
    · next h => rw [h, fAt_fSet_self (by omega)]
    · exact fAt_fSet_of_ne (by omega) _ _
  have hspec := fun k m => fAt_dctIIAfterTurns p (k := k) (m := m)
    (s := (fSet r 1 (fneg (fAt r 1)), fmul (fAt r 1) f32Half)) ((fSet_size ..).trans hsize)
  unfold DctIIAfter
  simp only [← fAt_eq_floatAt]
  refine ⟨by simp [dctIIUnfold, hsize], ?_, fun m hm => ⟨?_, fun hm0 => ?_⟩⟩
  · rw [show 2 ^ bits - 1 = 2 * (2 ^ bits / 2 - 1) + 1 by omega]
    exact (hspec 0 _ (by omega)).2
  · rw [← heven m, ← hodd m]
    exact (hspec (2 ^ bits / 2 - 1 - m) m (by omega)).1
  · rw [← heven m, ← hodd m, show 2 * m - 1 = 2 * (m - 1) + 1 by omega]
    refine (hspec (2 ^ bits / 2 - 1 - m + 1) (m - 1) (by omega)).2.trans ?_
    rw [dctIIAfterTurns_next p _ (m := m) (by omega), ← (hspec (2 ^ bits / 2 - 1 - m) m (by omega)).2]
    rfl

/-! ### DCT_III -/

/-- The turn of R95's first loop at the even element i. -/
def dctIIITurn (p : Params) (bits i : Nat) (d : Array F32) : Array F32 :=
  fSet (fSet d i (fadd (fmul (dctCos p bits i) (fAt d i))
      (fmul (dctSin p bits i) (fsub (fAt d (i - 1)) (fAt d (i + 1))))))
    (i + 1) (fsub (fmul (dctSin p bits i) (fAt d i))
      (fmul (dctCos p bits i) (fsub (fAt d (i - 1)) (fAt d (i + 1)))))

/-- R95's first loop after k turns. -/
def dctIIIAfterTurns (p : Params) (bits : Nat) (d : Array F32) (k : Nat) : Array F32 :=
  afterTurns (fun d k => dctIIITurn p bits (2 ^ bits - 2 - 2 * k) d) d k

/-- R95's statements before the RDFT. -/
def dctIIIFold (p : Params) (bits : Nat) (d : Array F32) : Array F32 :=
  fSet (dctIIIAfterTurns p bits d (2 ^ bits / 2 - 1)) 1 (fmul f32Two (fAt d (2 ^ bits - 1)))

/-- R95's loop after the RDFT. -/
def dctIIIUnfold (p : Params) (bits : Nat) (r : Array F32) : Array F32 :=
  let invN := rne32 (numPow2 (-(bits : Int)))
  (List.range (2 ^ bits / 2)).foldl (mirrorTurn (fun i => 2 ^ bits - i - 1)
    (fun i a b => fadd (fadd (fmul a invN) (fmul b invN))
      (fmul (csc2Table p bits i) (fsub (fmul a invN) (fmul b invN))))
    (fun i a b => fsub (fadd (fmul a invN) (fmul b invN))
      (fmul (csc2Table p bits i) (fsub (fmul a invN) (fmul b invN))))) r

theorem dctIII_eq (p : Params) (bits : Nat) (d : Array F32) :
    dctIII p bits d = dctIIIUnfold p bits (rdft p bits .idftC2R (dctIIIFold p bits d)) := rfl

theorem dctIIITurn_keeps (p : Params) {bits i j : Nat} (d : Array F32) (hi : i ≠ j) (hi' : i + 1 ≠ j) :
    fAt (dctIIITurn p bits i d) j = fAt d j := fAt_fSet_two_of_ne hi hi' _ _ _

@[simp] theorem dctIIIAfterTurns_size (p : Params) (bits : Nat) (d : Array F32) (k : Nat) :
    (dctIIIAfterTurns p bits d k).size = d.size :=
  afterTurns_untouched Array.size fun d i _ => by simp [dctIIITurn]

/-- The turn at 2m reads its elements, and the one below them, as they stood at the start. -/
theorem fAt_dctIIIAfterTurns_unread (p : Params) {bits k j : Nat} (d : Array F32) (hj : j + 2 * k < 2 ^ bits) :
    fAt (dctIIIAfterTurns p bits d k) j = fAt d j :=
  afterTurns_untouched (fun d => fAt d j) fun d i hi => dctIIITurn_keeps p d (by omega) (by omega)

/-- No turn after the one at 2m writes its two elements. -/
theorem fAt_dctIIIAfterTurns (p : Params) {bits m : Nat} {d : Array F32} (hsize : d.size = 2 ^ bits)
    (heven : 2 ∣ 2 ^ bits) (hm : 1 ≤ m) (hm' : m < 2 ^ bits / 2) :
    let u := dctIIIAfterTurns p bits d (2 ^ bits / 2 - 1)
    let val2 := fsub (fAt d (2 * m - 1)) (fAt d (2 * m + 1))
    fAt u (2 * m) = fadd (fmul (dctCos p bits (2 * m)) (fAt d (2 * m))) (fmul (dctSin p bits (2 * m)) val2) ∧
    fAt u (2 * m + 1) =
      fsub (fmul (dctSin p bits (2 * m)) (fAt d (2 * m))) (fmul (dctCos p bits (2 * m)) val2) := by
  obtain ⟨k, hk⟩ : ∃ k, k + m + 1 = 2 ^ bits / 2 := ⟨2 ^ bits / 2 - 1 - m, by omega⟩
  have hturn : ∀ j, 2 * m ≤ j → fAt (dctIIIAfterTurns p bits d (2 ^ bits / 2 - 1)) j =
      fAt (dctIIITurn p bits (2 * m) (dctIIIAfterTurns p bits d k)) j := fun j hj => by
    have hlast := afterTurns_last (f := fun d k => dctIIITurn p bits (2 ^ bits - 2 - 2 * k) d) (s := d)
      (fun d => fAt d j) (k := k) (n := 2 ^ bits / 2 - 1) (by omega)
      fun d i _ _ => dctIIITurn_keeps p d (by omega) (by omega)
    rwa [show 2 ^ bits - 2 - 2 * k = 2 * m by omega] at hlast
  have hwrite := fAt_fSet_two (d := dctIIIAfterTurns p bits d k) (a := 2 * m) (b := 2 * m + 1) (by omega)
    (by rw [dctIIIAfterTurns_size]; omega) (by rw [dctIIIAfterTurns_size]; omega)
  dsimp only
  rw [hturn _ le_rfl, hturn _ (by omega), dctIIITurn, (hwrite _ _).1, (hwrite _ _).2,
    fAt_dctIIIAfterTurns_unread p d (by omega), fAt_dctIIIAfterTurns_unread p d (by omega),
    fAt_dctIIIAfterTurns_unread p d (by omega)]
  exact ⟨rfl, rfl⟩

theorem dctIIIBefore_dctIIIFold (p : Params) {bits : Nat} {d : Array F32} (hbits : 2 ≤ bits)
    (hsize : d.size = 2 ^ bits) : DctIIIBefore p bits d.toList (dctIIIFold p bits d).toList := by
  obtain ⟨q, hq, hn⟩ := exists_samples_eq hbits
  unfold DctIIIBefore
  simp only [← fAt_eq_floatAt, dctIIIFold]
  refine ⟨by simp [hsize], ?_, fAt_fSet_self (by rw [dctIIIAfterTurns_size]; omega) _, fun m hm hm' => ?_⟩
  · rw [fAt_fSet_of_ne (by omega), fAt_dctIIIAfterTurns_unread p d (by omega)]
  · rw [fAt_fSet_of_ne (by omega), fAt_fSet_of_ne (by omega)]
    exact fAt_dctIIIAfterTurns p hsize (by omega) hm hm'

theorem dctIIIAfter_dctIIIUnfold (p : Params) {bits : Nat} {r : Array F32} (hsize : r.size = 2 ^ bits) :
    DctIIIAfter p bits r.toList (dctIIIUnfold p bits r).toList := by
  refine ⟨by simp [dctIIIUnfold, hsize], fun i hi => ?_⟩
  simp only [← fAt_eq_floatAt]
  exact fAt_mirrorLoop (m := fun i => 2 ^ bits - i - 1) (lastMirrors_disjoint bits) (List.mem_range.2 hi)
    (by omega) (by omega) (by omega)

/-! ### DST_I -/

/-- R96's loop before the RDFT. -/
def dstIFoldLoop (p : Params) (bits : Nat) (d : Array F32) : Array F32 :=
  (List.range' 1 (2 ^ bits / 2 - 1)).foldl (mirrorTurn (fun i => 2 ^ bits - i)
    (fun i a b => fadd (fmul (dctSin p bits (2 * i)) (fadd a b)) (fmul (fsub a b) f32Half))
    (fun i a b => fsub (fmul (dctSin p bits (2 * i)) (fadd a b)) (fmul (fsub a b) f32Half))) d

/-- R96's last statement before the RDFT. -/
def doubleMiddle (bits : Nat) (d : Array F32) : Array F32 :=
  fSet d (2 ^ bits / 2) (fmul (fAt d (2 ^ bits / 2)) f32Two)

/-- R96's statements before the RDFT. -/
def dstIFold (p : Params) (bits : Nat) (d : Array F32) : Array F32 :=
  doubleMiddle bits (dstIFoldLoop p bits (fSet d 0 F32.zero))

/-- The turn of R96's second loop at the odd element i. -/
def dstITurn (i : Nat) (d : Array F32) : Array F32 :=
  fSet (fSet d (i + 1) (fadd (fAt d (i + 1)) (fAt d (i - 1)))) i
    (fneg (fAt (fSet d (i + 1) (fadd (fAt d (i + 1)) (fAt d (i - 1)))) (i + 2)))

/-- R96's second loop after k turns. -/
def dstIAfterTurns (d : Array F32) (k : Nat) : Array F32 := afterTurns (fun d k => dstITurn (2 * k + 1) d) d k

/-- R96's statements after the RDFT. -/
def dstIUnfold (bits : Nat) (r : Array F32) : Array F32 :=
  fSet (dstIAfterTurns (fSet r 0 (fmul (fAt r 0) f32Half)) (2 ^ bits / 2 - 1)) (2 ^ bits - 1) F32.zero

theorem dstI_eq (p : Params) (bits : Nat) (d : Array F32) :
    dstI p bits d = dstIUnfold bits (rdft p bits .dftR2C (dstIFold p bits d)) := rfl

@[simp] theorem dstIFoldLoop_size (p : Params) (bits : Nat) (d : Array F32) :
    (dstIFoldLoop p bits d).size = d.size := mirrorLoop_size _ d

@[simp] theorem doubleMiddle_size (bits : Nat) (d : Array F32) : (doubleMiddle bits d).size = d.size :=
  fSet_size ..

theorem fAt_dstIFoldLoop_untouched (p : Params) {bits j : Nat} (d : Array F32)
    (hj : ∀ i, 1 ≤ i → i < 2 ^ bits / 2 → j ≠ i ∧ j ≠ 2 ^ bits - i) :
    fAt (dstIFoldLoop p bits d) j = fAt d j := by
  refine fAt_mirrorLoop_untouched d fun i hi htouch => ?_
  rw [List.mem_range'_1] at hi
  have := hj i hi.1 (by omega)
  exact htouch.elim this.1 this.2

theorem dstIBefore_dstIFold (p : Params) {bits : Nat} {d : Array F32} (hbits : 2 ≤ bits)
    (hsize : d.size = 2 ^ bits) : DstIBefore p bits d.toList (dstIFold p bits d).toList := by
  obtain ⟨q, hq, hn⟩ := exists_samples_eq hbits
  have hdisjoint := mirrors_disjoint_sub (bits := bits) (l := List.range' 1 (2 ^ bits / 2 - 1))
    (List.pairwise_lt_range' 1) fun i hi => by rw [List.mem_range'_1] at hi; omega
  have hkeep : ∀ {j}, 1 ≤ j → fAt (fSet d 0 F32.zero) j = fAt d j := fun hj => fAt_fSet_of_ne (by omega) _ _
  unfold DstIBefore
  simp only [← fAt_eq_floatAt, dstIFold]
  refine ⟨by simp [hsize], ?_, ?_, fun i hi hi' => ?_⟩
  · rw [doubleMiddle, fAt_fSet_of_ne (by omega), fAt_dstIFoldLoop_untouched p _ fun i hi hi' => by omega,
      fAt_fSet_self (by omega)]
  · rw [doubleMiddle, fAt_fSet_self (by rw [dstIFoldLoop_size, fSet_size]; omega),
      fAt_dstIFoldLoop_untouched p _ fun i hi hi' => by omega, hkeep (by omega)]
    rfl
  · rw [doubleMiddle, fAt_fSet_of_ne (by omega), fAt_fSet_of_ne (by omega), ← hkeep hi,
      ← hkeep (j := 2 ^ bits - i) (by omega)]
    exact fAt_mirrorLoop hdisjoint (List.mem_range'_1.2 (by omega)) (by omega) (by rw [fSet_size]; omega)
      (by rw [fSet_size]; omega)

theorem dstITurn_keeps {i j : Nat} (d : Array F32) (hi : i ≠ j) (hi' : i + 1 ≠ j) :
    fAt (dstITurn i d) j = fAt d j := fAt_fSet_two_of_ne hi' hi _ _ _

theorem fAt_dstITurn {i : Nat} {d : Array F32} (hi : i + 1 < d.size) :
    fAt (dstITurn i d) (i + 1) = fadd (fAt d (i + 1)) (fAt d (i - 1)) ∧
    fAt (dstITurn i d) i = fneg (fAt d (i + 2)) := by
  rw [dstITurn, fAt_fSet_of_ne (i := i + 1) (j := i + 2) (by omega)]
  exact fAt_fSet_two (by omega) hi (by omega) _ _

@[simp] theorem dstIAfterTurns_size (d : Array F32) (k : Nat) : (dstIAfterTurns d k).size = d.size :=
  afterTurns_untouched Array.size fun d i _ => by simp [dstITurn]

theorem fAt_dstIAfterTurns_unread {k j : Nat} (d : Array F32) (hj : j = 0 ∨ 2 * k < j) :
    fAt (dstIAfterTurns d k) j = fAt d j :=
  afterTurns_untouched (fun d => fAt d j) fun d i hi => dstITurn_keeps d (by omega) (by omega)

/-- Turn k reads the sum that the turn before it left, which no later turn writes. -/
theorem fAt_dstIAfterTurns {k n : Nat} {d : Array F32} (hk : k < n) (hn : 2 * n < d.size) :
    fAt (dstIAfterTurns d n) (2 * k + 2) = fadd (fAt d (2 * k + 2)) (fAt (dstIAfterTurns d n) (2 * k)) ∧
    fAt (dstIAfterTurns d n) (2 * k + 1) = fneg (fAt d (2 * k + 3)) := by
  have hturn : ∀ j, j ≤ 2 * k + 2 →
      fAt (dstIAfterTurns d n) j = fAt (dstITurn (2 * k + 1) (dstIAfterTurns d k)) j := fun j hj =>
    afterTurns_last (fun d => fAt d j) hk fun d i _ _ => dstITurn_keeps d (by omega) (by omega)
  have hwrite := fAt_dstITurn (i := 2 * k + 1) (d := dstIAfterTurns d k) (by rw [dstIAfterTurns_size]; omega)
  rw [hturn _ le_rfl, hturn (2 * k) (by omega), hturn (2 * k + 1) (by omega), hwrite.1, hwrite.2,
    dstITurn_keeps _ (by omega) (by omega), fAt_dstIAfterTurns_unread (j := 2 * k + 1 + 1) d (by omega),
    fAt_dstIAfterTurns_unread (j := 2 * k + 1 + 2) d (by omega)]
  exact ⟨rfl, rfl⟩

theorem dstIAfter_dstIUnfold {bits : Nat} {r : Array F32} (hbits : 2 ≤ bits) (hsize : r.size = 2 ^ bits) :
    DstIAfter bits r.toList (dstIUnfold bits r).toList := by
  obtain ⟨q, hq, hn⟩ := exists_samples_eq hbits
  unfold DstIAfter
  simp only [← fAt_eq_floatAt, dstIUnfold]
  refine ⟨by simp [hsize], ?_, fAt_fSet_self (by rw [dstIAfterTurns_size, fSet_size]; omega) _,
    fun k hk hk' => ?_⟩
  · rw [fAt_fSet_of_ne (by omega), fAt_dstIAfterTurns_unread _ (.inl rfl), fAt_fSet_self (by omega)]
    rfl
  · obtain ⟨k, rfl⟩ := Nat.exists_eq_add_of_le' hk
    have hturn := fAt_dstIAfterTurns (d := fSet r 0 (fmul (fAt r 0) f32Half)) (k := k) (n := 2 ^ bits / 2 - 1)
      (by omega) (by rw [fSet_size]; omega)
    rw [fAt_fSet_of_ne (j := 2 * k + 2) (by omega), fAt_fSet_of_ne (j := 2 * k + 3) (by omega)] at hturn
    rw [fAt_fSet_of_ne (by omega), fAt_fSet_of_ne (by omega), fAt_fSet_of_ne (by omega)]
    exact hturn

/-! ### The RDFT inside a longer buffer -/

theorem fAt_push {d : Array F32} {j : Nat} (hj : j < d.size) (x : F32) : fAt (d.push x) j = fAt d j := by
  rw [fAt_eq, fAt_eq, Array.getElem?_push_lt hj, Array.getElem?_eq_getElem hj]

theorem fSet_push {d : Array F32} {i : Nat} (hi : i < d.size) (x v : F32) :
    fSet (d.push x) i v = (fSet d i v).push x := by
  have hi' : i < d.size + 1 := by omega
  simp [fSet, Array.setIfInBounds, Array.set_push, hi, hi']

/-- A loop on the elements below the last runs as it does without the last. -/
theorem foldl_push {n : Nat} {x : F32} {f : Array F32 → Nat → Array F32} {l : List Nat}
    (hsize : ∀ d i, (f d i).size = d.size)
    (hf : ∀ d : Array F32, d.size = n → ∀ i ∈ l, f (d.push x) i = (f d i).push x)
    {d : Array F32} (hd : d.size = n) :
    l.foldl f (d.push x) = (l.foldl f d).push x := by
  induction l generalizing d with
  | nil => rfl
  | cons i l ih =>
    rw [List.foldl_cons, List.foldl_cons, hf d hd i List.mem_cons_self]
    exact ih (fun d hd i hi => hf d hd i (List.mem_cons_of_mem _ hi)) ((hsize d i).trans hd)

section Push

variable {bits : Nat} {d : Array F32} {x : F32}

theorem rdftCore_push (p : Params) (inv : Bool) (hbits : 1 ≤ bits) (hsize : d.size = 2 ^ bits) :
    rdftCore p bits inv (d.push x) = (rdftCore p bits inv d).push x := by
  have hhalf : d.size = 2 * 2 ^ (bits - 1) := by rw [hsize, mul_pow_sub_one (by omega)]
  have hread :
      ((List.range (2 ^ (bits - 1))).map fun k => Cx.mk (fAt (d.push x) (2 * k)) (fAt (d.push x) (2 * k + 1))) =
      (List.range (2 ^ (bits - 1))).map fun k => Cx.mk (fAt d (2 * k)) (fAt d (2 * k + 1)) :=
    List.map_congr_left fun k hk => by
      rw [List.mem_range] at hk
      rw [fAt_push (by omega), fAt_push (by omega)]
  rw [rdftCore, hread]
  refine foldl_push (by simp) (fun d hd k hk => ?_) hhalf
  rw [List.mem_range] at hk
  rw [fSet_push (by omega), fSet_push (by rw [fSet_size]; omega)]

theorem rdftFold_push (p : Params) (t : RdftType) (hsize : d.size = 2 ^ bits) {i : Nat} (hi : 1 ≤ i)
    (hi' : i < 2 ^ bits / 4) : rdftFold p bits t (d.push x) i = (rdftFold p bits t d i).push x := by
  have ha : 2 * i < d.size := by omega
  have hb : 2 * i + 1 < d.size := by omega
  have hc : 2 ^ bits - 2 * i < d.size := by omega
  have hd : 2 ^ bits - 2 * i + 1 < d.size := by omega
  simp only [rdftFold, fAt_push, fSet_push, fSet_size, ha, hb, hc, hd]

theorem pairEnds_push (hsize : 2 ≤ d.size) : pairEnds (d.push x) = (pairEnds d).push x := by
  have h0 : 0 < d.size := by omega
  have h1 : 1 < d.size := by omega
  simp only [pairEnds, fAt_push, fSet_push, fSet_size, h0, h1]

theorem foldLoop_push (p : Params) (t : RdftType) (hsize : d.size = 2 ^ bits) :
    foldLoop p bits t (d.push x) = (foldLoop p bits t d).push x := by
  refine foldl_push (rdftFold_size p bits t) (fun d hd i hi => ?_) hsize
  rw [List.mem_range'_1] at hi
  exact rdftFold_push p t hd hi.1 (by omega)

theorem signMiddle_push (neg : Bool) (hsize : 2 ^ bits / 2 + 1 < d.size) :
    signMiddle bits neg (d.push x) = (signMiddle bits neg d).push x := by
  cases neg with
  | false => rfl
  | true => simp only [signMiddle, if_true, fAt_push hsize, fSet_push hsize]

/-- A forward RDFT of n samples leaves an element after them alone and does not read it. -/
theorem rdft_push {t : RdftType} (ht : rdftInverse t = false) (p : Params) (hbits : 2 ≤ bits)
    (hsize : d.size = 2 ^ bits) : rdft p bits t (d.push x) = (rdft p bits t d).push x := by
  obtain ⟨q, hq, hn⟩ := exists_samples_eq hbits
  have hcore : (rdftCore p bits (rdftFftInv t) d).size = 2 ^ bits := (rdftCore_size ..).trans hsize
  rw [rdft_of_forward ht, rdft_of_forward ht, rdftCore_push p _ (by omega) hsize, rdftMiddle, rdftMiddle,
    pairEnds_push (by omega), foldLoop_push p t ((pairEnds_size _).trans hcore),
    signMiddle_push _ (by rw [foldLoop_size, pairEnds_size]; omega)]

end Push

/-! ### DCT_I -/

/-- A turn of R93's first loop, `next` left out. -/
def dctIFoldTurn (p : Params) (bits : Nat) : Array F32 → Nat → Array F32 :=
  mirrorTurn (fun i => 2 ^ bits - i)
    (fun i a b => fsub (fmul (fadd a b) f32Half) (fmul (dctSin p bits (2 * i)) (fsub a b)))
    (fun i a b => fadd (fmul (fadd a b) f32Half) (fmul (dctSin p bits (2 * i)) (fsub a b)))

/-- R93's first loop, `next` left out. -/
def dctIFold (p : Params) (bits : Nat) (d : Array F32) : Array F32 :=
  (List.range (2 ^ bits / 2)).foldl (dctIFoldTurn p bits) d

/-- `next` after a turn of R93's first loop on the buffer `d`. -/
def dctINextTurn (p : Params) (bits : Nat) (d : Array F32) (next : F32) (i : Nat) : F32 :=
  fadd next (fmul (dctCos p bits (2 * i)) (fsub (fAt d i) (fAt d (2 ^ bits - i))))

/-- A turn of R93's first loop. -/
def dctIPairTurn (p : Params) (bits : Nat) (s : Array F32 × F32) (i : Nat) : Array F32 × F32 :=
  (dctIFoldTurn p bits s.1 i, dctINextTurn p bits s.1 s.2 i)

/-- The turn of R93's second loop at the odd element i. -/
def dctITurn (i : Nat) (d : Array F32) : Array F32 := fSet d i (fsub (fAt d (i - 2)) (fAt d i))

/-- R93's second loop after k turns. -/
def dctIAfterTurns (d : Array F32) (k : Nat) : Array F32 := afterTurns (fun d k => dctITurn (2 * k + 3) d) d k

/-- R93's statements after the RDFT. -/
def dctIUnfold (bits : Nat) (next : F32) (r : Array F32) : Array F32 :=
  dctIAfterTurns (fSet (fSet r (2 ^ bits) (fAt r 1)) 1 next) (2 ^ bits / 2 - 1)

@[simp] theorem dctIFold_size (p : Params) (bits : Nat) (d : Array F32) : (dctIFold p bits d).size = d.size :=
  mirrorLoop_size _ d

/-- Every turn reads its pair as it stood at the start, so `next` is a sum over the buffer at the start. -/
theorem foldl_dctIPairTurn (p : Params) {bits k : Nat} (d : Array F32) (next : F32) (hk : k ≤ 2 ^ bits / 2) :
    (List.range k).foldl (dctIPairTurn p bits) (d, next) =
      ((List.range k).foldl (dctIFoldTurn p bits) d, (List.range k).foldl (dctINextTurn p bits d) next) := by
  induction k with
  | zero => rfl
  | succ k ih =>
    have hread : ∀ j, j = k ∨ j = 2 ^ bits - k →
        fAt ((List.range k).foldl (dctIFoldTurn p bits) d) j = fAt d j := fun j hj =>
      fAt_mirrorLoop_untouched d fun i hi htouch => by
        rw [List.mem_range] at hi
        simp only [MirrorTouches] at htouch
        omega
    simp only [List.range_succ, List.foldl_append, List.foldl_cons, List.foldl_nil, ih (by omega)]
    rw [dctIPairTurn, dctINextTurn, hread _ (.inl rfl), hread _ (.inr rfl)]
    rfl

theorem dctINext_toList (p : Params) (bits : Nat) (d : Array F32) :
    dctINext p bits d.toList = (List.range (2 ^ bits / 2)).foldl (dctINextTurn p bits d)
      (fmul f32NegHalf (fsub (fAt d 0) (fAt d (2 ^ bits)))) := by
  simp only [dctINext, ← fAt_eq_floatAt, minusHalf_eq]
  rfl

theorem dctI_eq (p : Params) (bits : Nat) (d : Array F32) :
    dctI p bits d = dctIUnfold bits (dctINext p bits d.toList) (rdft p bits .dftR2C (dctIFold p bits d)) := by
  have hloop := foldl_dctIPairTurn p d (fmul f32NegHalf (fsub (fAt d 0) (fAt d (2 ^ bits)))) (le_refl (2 ^ bits / 2))
  rw [← dctINext_toList] at hloop
  change (match (List.range (2 ^ bits / 2)).foldl (dctIPairTurn p bits) _ with
    | (d, next) => dctIUnfold bits next (rdft p bits .dftR2C d)) = _
  rw [hloop]
  rfl

theorem dctIBefore_of_dctIFold (p : Params) {bits : Nat} {d u : Array F32} {x : F32} (hbits : 2 ≤ bits)
    (hsize : d.size = 2 ^ bits + 1) (hu : dctIFold p bits d = u.push x) (husize : u.size = 2 ^ bits) :
    DctIBefore p bits d.toList u.toList := by
  obtain ⟨q, hq, hn⟩ := exists_samples_eq hbits
  have hdisjoint := mirrors_disjoint_sub (bits := bits) List.pairwise_lt_range fun i hi => List.mem_range.1 hi
  have hread : ∀ {j}, j < 2 ^ bits → fAt u j = fAt (dctIFold p bits d) j := fun hj => by
    rw [hu, fAt_push (by omega)]
  unfold DctIBefore
  simp only [← fAt_eq_floatAt]
  refine ⟨by simp [husize], ?_, fun i hi => ?_⟩
  · rw [hread (by omega)]
    refine fAt_mirrorLoop_untouched d fun i hi htouch => ?_
    rw [List.mem_range] at hi
    simp only [MirrorTouches] at htouch
    omega
  · obtain ⟨hlow, hhigh⟩ := fAt_mirrorLoop hdisjoint (List.mem_range.2 hi) (d := d) (by omega) (by omega)
      (by omega)
    exact ⟨(hread (by omega)).trans hlow, fun hi0 => (hread (by omega)).trans hhigh⟩

@[simp] theorem dctIAfterTurns_size (d : Array F32) (k : Nat) : (dctIAfterTurns d k).size = d.size :=
  afterTurns_untouched Array.size fun d i _ => by simp [dctITurn]

theorem fAt_dctIAfterTurns_unread {k j : Nat} (d : Array F32) (hj : j % 2 = 0 ∨ j = 1 ∨ 2 * k + 1 < j) :
    fAt (dctIAfterTurns d k) j = fAt d j :=
  afterTurns_untouched (fun d => fAt d j) fun d i hi => fAt_fSet_of_ne (by omega) _ _

/-- Turn k reads the difference that the turn before it left, which no later turn writes. -/
theorem fAt_dctIAfterTurns {k n : Nat} {d : Array F32} (hk : k < n) (hn : 2 * n + 1 < d.size) :
    fAt (dctIAfterTurns d n) (2 * k + 3) = fsub (fAt (dctIAfterTurns d n) (2 * k + 1)) (fAt d (2 * k + 3)) := by
  have hturn : ∀ j, j ≤ 2 * k + 3 →
      fAt (dctIAfterTurns d n) j = fAt (dctITurn (2 * k + 3) (dctIAfterTurns d k)) j := fun j hj =>
    afterTurns_last (fun d => fAt d j) hk fun d i _ _ => fAt_fSet_of_ne (by omega) _ _
  rw [hturn _ le_rfl, hturn (2 * k + 1) (by omega), dctITurn, fAt_fSet_self (by rw [dctIAfterTurns_size]; omega),
    fAt_fSet_of_ne (by omega), fAt_dctIAfterTurns_unread (j := 2 * k + 3) d (by omega)]
  rfl

theorem dctIAfter_dctIUnfold (p : Params) {bits : Nat} (d : Array F32) {r : Array F32} (x : F32) (hbits : 2 ≤ bits)
    (hsize : r.size = 2 ^ bits) :
    DctIAfter p bits d.toList r.toList (dctIUnfold bits (dctINext p bits d.toList) (r.push x)).toList := by
  obtain ⟨q, hq, hn⟩ := exists_samples_eq hbits
  have hread : ∀ v w {j}, j ≠ 1 → j < 2 ^ bits →
      fAt (fSet (fSet (r.push x) (2 ^ bits) v) 1 w) j = fAt r j := fun v w j hj hj' => by
    rw [fAt_fSet_two_of_ne (by omega) (by omega), fAt_push (by omega)]
  unfold DctIAfter
  simp only [← fAt_eq_floatAt, dctIUnfold]
  refine ⟨by simp [hsize], ?_, ?_, fun i hi => ⟨?_, fun hi0 => ?_⟩⟩
  · rw [fAt_dctIAfterTurns_unread _ (by omega), fAt_fSet_of_ne (by omega),
      fAt_fSet_self (by rw [Array.size_push]; omega), fAt_push (by omega)]
  · rw [fAt_dctIAfterTurns_unread _ (by omega), fAt_fSet_self (by rw [fSet_size, Array.size_push]; omega)]
  · rw [fAt_dctIAfterTurns_unread _ (by omega), hread _ _ (by omega) (by omega)]
  · obtain ⟨k, rfl⟩ := Nat.exists_eq_add_of_le' (Nat.one_le_iff_ne_zero.2 hi0)
    rw [← hread (fAt (r.push x) 1) (dctINext p bits d.toList) (j := 2 * (k + 1) + 1) (by omega) (by omega)]
    exact fAt_dctIAfterTurns (by omega) (by rw [fSet_size, fSet_size, Array.size_push]; omega)

/-- DCT_I runs its RDFT on the first n of its n + 1 elements (R92, R93). -/
theorem dctI_spec (p : Params) {bits : Nat} {d : Array F32} (hbits : 2 ≤ bits) (hsize : d.size = 2 ^ bits + 1) :
    ∃ u : Array F32, DctIBefore p bits d.toList u.toList ∧
      DctIAfter p bits d.toList (rdft p bits .dftR2C u).toList (dctI p bits d).toList := by
  obtain ⟨u, x, hu⟩ := Array.eq_push_of_size_ne_zero (xs := dctIFold p bits d) (by simp [hsize])
  have husize : u.size = 2 ^ bits := by
    have hpush := congrArg Array.size hu
    rw [dctIFold_size, Array.size_push] at hpush
    omega
  refine ⟨u, dctIBefore_of_dctIFold p hbits hsize hu husize, ?_⟩
  rw [dctI_eq, hu, rdft_push rfl p hbits husize]
  exact dctIAfter_dctIUnfold p d x hbits ((rdft_size ..).trans husize)

/-! ### The obligation -/

/-- Settles O27: each type is its fold, the RDFT and its unfolding; the RDFT keeps the size. -/
theorem dctTypesFollowTheirProcedures : Obligations.DctTypesFollowTheirProcedures := by
  rintro p ⟨kind, type, bits⟩ d rfl (hmin : 5 ≤ bits.toNat) -
  have hbits : 2 ≤ bits.toNat := by omega
  refine ⟨?_, ?_, ?_, ?_⟩
  · rintro rfl hlen
    obtain ⟨u, hbefore, hafter⟩ := dctI_spec p (d := d.toArray) hbits hlen
    exact ⟨u.toList, hbefore, hafter⟩
  · rintro rfl hlen
    have hbefore := dctIIBefore_dctIIFold p (d := d.toArray) hlen
    exact ⟨_, hbefore, dctIIAfter_dctIIUnfold p hbits ((rdft_size ..).trans hbefore.1)⟩
  · rintro rfl hlen
    have hbefore := dctIIIBefore_dctIIIFold p (d := d.toArray) hbits hlen
    exact ⟨_, hbefore, dctIIIAfter_dctIIIUnfold p ((rdft_size ..).trans hbefore.1)⟩
  · rintro rfl hlen
    have hbefore := dstIBefore_dstIFold p (d := d.toArray) hbits hlen
    exact ⟨_, hbefore, dstIAfter_dstIUnfold hbits ((rdft_size ..).trans hbefore.1)⟩

end Sys2Proof.CosineTransforms
end

section
/-!
The motion-compensation commands (43_motion.md R98 to R103): every command answers, the errors of the MC commands in
their order, and the blocks they touch.
-/

namespace Sys2Proof.Motion

open Sys2Proof Sys2Proof.Machine Sys2Proof.Safety Sys2Proof.Laws Sys2Proof.Steps Sys2Proof.BlockWrites
open Sys2Proof.Runs

/-! ### Every step of the sequencer answers -/

/-- A turn of the sequencer changes nothing, raises a fetch error or executes the command fetched (R66). -/
theorem answers_seqStep (s : State) : Answers (seqStep s) := by
  unfold seqStep
  split
  · split
    · exact answers_raise _ _ s
    · exact exec_answers _ s
  · exact ⟨s, rfl⟩

/-- Settles O9: the commands by `exec_answers`, the step without a pending host move as a turn of the sequencer. -/
theorem commandsAlwaysAnswer : Obligations.CommandsAlwaysAnswer := by
  refine ⟨exec_answers, fun s hhost => ?_⟩
  rw [step_of_host_nil hhost]
  exact answers_seqStep s

/-! ### Checks that fail -/

section Failures

variable {p : PlaneIdx} {pos : BlockPos} {dx dy : BitVec 8} {blk : Word} {s : State} (k : Out)

theorem checkBlock_badPlane (hp : ¬ PlaneOk s p) :
    checkBlock p pos s k = .next (takeError .mcGeom (planeWord p) s) :=
  check_of_false (Bool.eq_false_iff.2 fun h => hp ((planeValid_iff s p).1 h)) _ _ _ _

theorem checkBlock_badPosition (hp : PlaneOk s p) (hpos : ¬ PosOk s p pos) :
    checkBlock p pos s k = .next (takeError .mcBlock pos.word s) := by
  rw [checkBlock, check_of_true ((planeValid_iff s p).2 hp)]
  exact check_of_false (Bool.eq_false_iff.2 fun h => hpos ((blockLegal_iff s p pos).1 h)) _ _ _ _

theorem checkBounds_badOffset (hr : ¬ RefOk s p pos dx dy) :
    checkBounds p pos dx dy s k = .next (takeError .mcBounds (refInfo s p pos dx dy) s) :=
  check_of_false (Bool.eq_false_iff.2 fun h => hr ((refLegal_iff s p pos dx dy).1 h)) _ _ _ _

/-- ALIGN, then ADDR, of a coefficient block or quantizer table (R101). -/
theorem checkCoefs_badRegion :
    (blk.toNat % 4 ≠ 0 → checkCoefs blk s k = .next (takeError .align blk s)) ∧
    (blk.toNat % 4 = 0 → s.params.dmemSize < blk.toNat + 256 →
      checkCoefs blk s k = .next (takeError .addr blk s)) :=
  ⟨checkRegion_misaligned k, checkRegion_outside k⟩

end Failures

/-! ### The order of the checks -/

section Order

variable (p : PlaneIdx) (dx dy : BitVec 8) (pos : BlockPos) (blk qtab : Word) (s : State) {i : Instr}

/-- The five commands on a block of pixels begin with the plane and the position (R98, R99). -/
theorem exec_begins_checkBlock
    (hi : i ∈ [Instr.mcSkip p pos, .mcMotion p dx dy pos, .mcResidue p dx dy pos blk, .mcIdctPut p pos blk,
      .mcIdctAdd p pos blk]) :
    ∃ k, exec i s = checkBlock p pos s k := by
  simp only [List.mem_cons, List.not_mem_nil, or_false] at hi
  obtain rfl | rfl | rfl | rfl | rfl := hi <;> exact ⟨_, rfl⟩

/-- The two commands with a motion vector go on with the offset (R100). -/
theorem exec_begins_checkBounds (hi : i ∈ [Instr.mcMotion p dx dy pos, .mcResidue p dx dy pos blk]) :
    ∃ k, exec i s = checkBlock p pos s (checkBounds p pos dx dy s k) := by
  simp only [List.mem_cons, List.not_mem_nil, or_false] at hi
  obtain rfl | rfl := hi <;> exact ⟨_, rfl⟩

/-- The five commands with a coefficient block check it once the checks of their pixels have passed (R101). -/
theorem exec_reaches_checkCoefs
    (hi : i ∈ [Instr.mcResidue p dx dy pos blk, .mcIdctPut p pos blk, .mcIdctAdd p pos blk, .mcIdct blk,
      .mcDequant blk qtab])
    (hr : i = .mcResidue p dx dy pos blk → RefOk s p pos dx dy)
    (hblock : i ≠ .mcIdct blk → i ≠ .mcDequant blk qtab → PlaneOk s p ∧ PosOk s p pos) :
    ∃ k, exec i s = checkCoefs blk s k := by
  have hpass : ∀ k, i ≠ .mcIdct blk → i ≠ .mcDequant blk qtab → checkBlock p pos s k = k := by
    intro k hidct hdequant
    obtain ⟨hp, hpos⟩ := hblock hidct hdequant
    exact checkBlock_pass k hp hpos
  simp only [List.mem_cons, List.not_mem_nil, or_false] at hi
  obtain rfl | rfl | rfl | rfl | rfl := hi
  · exact ⟨_, (hpass _ nofun nofun).trans (checkBounds_pass _ (hr rfl))⟩
  · exact ⟨_, hpass _ nofun nofun⟩
  · exact ⟨_, hpass _ nofun nofun⟩
  · exact ⟨_, rfl⟩
  · exact ⟨_, rfl⟩

end Order

/-- Settles O52: each check's failure, at the place where the command reaches it. -/
theorem mcErrorsInOrder : Obligations.McErrorsInOrder := by
  intro p dx dy pos blk qtab s
  refine ⟨fun i hi => ?_, fun i hi hp hpos hr => ?_, fun i hi hr hblock => ?_, fun hblk => ?_⟩
  · obtain ⟨k, hexec⟩ := exec_begins_checkBlock p dx dy pos blk s hi
    rw [hexec]
    exact ⟨checkBlock_badPlane k, checkBlock_badPosition k⟩
  · obtain ⟨k, hexec⟩ := exec_begins_checkBounds p dx dy pos blk s hi
    rw [hexec, checkBlock_pass _ hp hpos]
    exact checkBounds_badOffset k hr
  · obtain ⟨k, hexec⟩ := exec_reaches_checkCoefs p dx dy pos blk qtab s hi hr hblock
    rw [hexec]
    exact checkCoefs_badRegion k
  · obtain ⟨k, hexec⟩ : ∃ k, exec (.mcDequant blk qtab) s = checkCoefs qtab s k :=
      ⟨_, checkCoefs_pass _ hblk⟩
    rw [hexec]
    exact checkCoefs_badRegion k

/-! ### The co-located block -/

theorem refOk_zero {s : State} {p : PlaneIdx} {pos : BlockPos} (hpos : PosOk s p pos) :
    RefOk s p pos 0#8 0#8 :=
  (refLegal_iff s p pos _ _).1 (refLegal_zero ((blockLegal_iff s p pos).2 hpos))

/-- The reference offset of a co-located block is that of the block in its own buffer (R99, R100). -/
theorem refOffset_zero (s : State) (p : PlaneIdx) (pos : BlockPos) :
    (refOffset s p pos 0#8 0#8).toNat = 8 * pos.brow.toNat * planePitch s p + 8 * pos.bx.toNat := by
  simp only [refOffset, show (0#8 : BitVec 8).toInt = 0 from rfl, add_zero]
  exact Int.toNat_natCast _

/-- Settles O44: MCCOPY with the motion vector (0, 0), which a legal position makes legal. -/
theorem mcSkipCopiesBlock : Obligations.McSkipCopiesBlock := by
  intro p pos s hp hpos
  have hexec : exec (.mcSkip p pos) s = complete 1 (putBlock p pos (refBlock s p pos 0#8 0#8) s) := by
    change execMcSkip p pos s = _
    rw [execMcSkip, checkBlock_pass _ hp hpos, mcCopy, touchRef_of_ok _ hp (refOk_zero hpos),
      touchDst_of_ok _ hp hpos]
  rw [hexec]
  refine writesPixels_putBlock hp (refBlock_length _ _ _ _ _) fun r c hr hc => ?_
  rw [refBlock_getD s p pos _ _ hr hc, refOffset_zero, pixelAddr]
  congr 1
  ring

/-! ### Blocks and references inside their buffers -/

/-- A block that begins at or after the start of a region and whose last pixel is in it lies in it whole. -/
theorem pixelAddr_inRegion {start len base pitch r c : Nat} (hbase : start ≤ base)
    (hlast : base + 7 * pitch + 8 ≤ start + len) (hr : r < 8) (hc : c < 8) :
    InRegion start len (pixelAddr base pitch r c) := by
  have hrow : r * pitch ≤ 7 * pitch := Nat.mul_le_mul_right _ (by omega)
  unfold InRegion pixelAddr
  omega

/-- The block's rows end inside its buffer, below 2^31, its columns are below 2^16, and a vector moves it by at most
128 rows and columns (R100). -/
theorem refOffset_bounds {s : State} {p : PlaneIdx} {pos : BlockPos} (dx dy : BitVec 8) (hp : PlaneOk s p)
    (hpos : PosOk s p pos) (hsize : s.params.dmemSize ≤ 2 ^ 31) :
    -(2 : Int) ^ 24 < refOffset s p pos dx dy ∧ refOffset s p pos dx dy < (2 : Int) ^ 32 := by
  obtain ⟨hx, hy⟩ := hpos
  obtain ⟨-, -, hwidth, hfits, -⟩ := hp
  have hpitch : planePitch s p < 2 ^ 16 := (s.pitch[p]).isLt
  have hrow : pos.brow.toNat * planePitch s p ≤ planeBH s p * planePitch s p := Nat.mul_le_mul_right _ hy.le
  have hextent : planeExtent s p = 8 * (planeBH s p * planePitch s p) := by
    rw [planeExtent]
    ring
  have hdx := BitVec.le_toInt dx
  have hdx' := BitVec.toInt_lt (x := dx)
  have hdyLow : -128 * (planePitch s p : Int) ≤ dy.toInt * planePitch s p :=
    mul_le_mul_of_nonneg_right (BitVec.le_toInt dy) (Int.natCast_nonneg _)
  have hdyHigh : dy.toInt * planePitch s p ≤ 127 * (planePitch s p : Int) :=
    mul_le_mul_of_nonneg_right (Int.le_of_lt_add_one BitVec.toInt_lt) (Int.natCast_nonneg _)
  have hoffset : refOffset s p pos dx dy = 8 * ((pos.brow.toNat * planePitch s p : Nat) : Int) +
      dy.toInt * planePitch s p + 8 * pos.bx.toNat + dx.toInt := by
    rw [refOffset]
    push_cast
    ring
  omega

/-- Settles O53: the first and the last pixel bound the others. -/
theorem blocksStayInsideBuffers : Obligations.BlocksStayInsideBuffers := by
  intro p dx dy pos s hp hpos
  have hvalid := (planeValid_iff s p).2 hp
  have hlegal := (blockLegal_iff s p pos).2 hpos
  refine ⟨fun r c hr hc => ⟨?_, fun href => ?_⟩, refOk_zero hpos, refOffset_bounds dx dy hp hpos⟩
  · have hstart : curBase s p ≤ blockDst s p pos := by
      rw [blockDst, Nat.add_assoc]
      exact Nat.le_add_right _ _
    exact pixelAddr_inRegion hstart (blockDst_fits hvalid hlegal) hr hc
  · have hlast := refBase_fits hvalid ((refLegal_iff s p pos dx dy).2 href)
    exact pixelAddr_inRegion (Nat.le_add_right _ _) hlast hr hc

end Sys2Proof.Motion
end

section
/-!
The inverse DCT of sparse blocks (43_motion.md R105, R106): an IDCT8 whose only input is the first gives eight equal
outputs.
-/

namespace Sys2Proof.SparseBlocks

open Sys2Proof Sys2Proof.Machine

/-- Without AC inputs every term of IDCT8 but the first input is 0 (R105). -/
theorem idct8_dc (M : Word → Word) {t : Nat → Word} (hac : ∀ k, 1 ≤ k → k < 8 → t k = 0#32) :
    idct8 M (t 0) (t 1) (t 2) (t 3) (t 4) (t 5) (t 6) (t 7) = List.replicate 8 (M (t 0)) := by
  rw [hac 1 (by decide) (by decide), hac 2 (by decide) (by decide), hac 3 (by decide) (by decide),
    hac 4 (by decide) (by decide), hac 5 (by decide) (by decide), hac 6 (by decide) (by decide),
    hac 7 (by decide) (by decide)]
  simp [idct8, List.replicate]

theorem idctColumn_dc {b : List Word} {col : Nat}
    (hac : ∀ k, 1 ≤ k → k < 8 → wordAt b (col + 8 * k) = 0#32) :
    idctColumn b col = List.replicate 8 (wordAt b col) :=
  idct8_dc mungeColumn (t := fun k => wordAt b (col + 8 * k)) hac

theorem idctRow_dc {cols : List (List Word)} {row : Nat}
    (hac : ∀ col, 1 ≤ col → col < 8 → wordAt (cols.getD col []) row = 0#32) :
    idctRow cols row = List.replicate 8 (mungeRow (wordAt (cols.getD 0 []) row)) :=
  idct8_dc mungeRow (t := fun col => wordAt (cols.getD col []) row) hac

theorem wordAt_replicate {n k : Nat} (w : Word) (hk : k < n) : wordAt (List.replicate n w) k = w :=
  List.getD_replicate _ hk

/-- Every column of a DC-only block is flat, so each row has the DC coefficient as its only input (R106). -/
theorem idct_dc {b : List Word} (hac : ∀ j, 1 ≤ j → j < 64 → wordAt b j = 0#32) :
    idct b = List.replicate 64 (mungeRow (wordAt b 0)) := by
  have hcols : ∀ col < 8, ∀ row < 8,
      wordAt (((List.range 8).map (idctColumn b)).getD col []) row = wordAt b col := by
    intro col hcol row hrow
    have hflat : idctColumn b col = List.replicate 8 (wordAt b col) :=
      idctColumn_dc fun k hk hk' => hac _ (by omega) (by omega)
    rw [← wordAt_replicate (wordAt b col) hrow, ← hflat]
    simp [hcol]
  have hrows : ∀ row ∈ List.range 8, idctRow ((List.range 8).map (idctColumn b)) row =
      List.replicate 8 (mungeRow (wordAt b 0)) := by
    intro row hrow
    have hrow' := List.mem_range.1 hrow
    rw [← hcols 0 (by decide) row hrow']
    exact idctRow_dc fun col hpos hcol => (hcols col hcol row hrow').trans (hac col hpos (by omega))
  calc idct b
    _ = (List.range 8).flatMap fun _ => List.replicate 8 (mungeRow (wordAt b 0)) := List.flatMap_congr hrows
    _ = List.replicate 64 (mungeRow (wordAt b 0)) := rfl

/-- Settles O54: a column alone, and a block whose columns are flat. -/
theorem idctOfSparseBlocks : Obligations.IdctOfSparseBlocks := by
  refine ⟨fun b col => idctColumn_dc, fun b k hac hk => ?_⟩
  rw [idct_dc hac, wordAt_replicate _ hk, mungeRow]

end Sys2Proof.SparseBlocks
end

section
/-!
Programs of the bit reader (44_audio.md R119): what a sequence of reads does, and `getFloat()` (R120).
-/

namespace Sys2Proof.BitPrograms

open Sys2Proof Sys2Proof.Machine Sys2Proof.Safety

/-! ### Sequences of reads -/

section Sequences

variable {α β : Type} {x : BitReader α} {f : α → BitReader β} {pos q : Nat}

theorem bind_of_ok {a : α} (h : x pos = .ok (a, q)) : (x >>= f) pos = f a q := by
  change (x pos >>= fun r => f r.1 r.2) = _
  rw [h]
  rfl

theorem bind_of_error (h : x pos = .error q) : (x >>= f) pos = .error q := by
  change (x pos >>= fun r => f r.1 r.2) = _
  rw [h]
  rfl

/-- A sequence of reads that succeeds, taken apart. -/
theorem bind_ok {b : β} (h : (x >>= f) pos = .ok (b, q)) :
    ∃ a p, x pos = .ok (a, p) ∧ f a p = .ok (b, q) := by
  cases hx : x pos with
  | error p =>
    rw [bind_of_error hx] at h
    cases h
  | ok r =>
    obtain ⟨a, p⟩ := r
    exact ⟨a, p, rfl, (bind_of_ok hx).symm.trans h⟩

/-- Two continuations that agree on every value that a reader yields agree after it. -/
theorem bind_congr_of_ok {g : α → BitReader β} (h : ∀ pos a q, x pos = .ok (a, q) → f a = g a) :
    x >>= f = x >>= g := by
  funext pos
  cases hx : x pos with
  | error q => rw [bind_of_error hx, bind_of_error hx]
  | ok r =>
    obtain ⟨a, q⟩ := r
    rw [bind_of_ok hx, bind_of_ok hx, h pos a q hx]

end Sequences

/-! ### `get(n)` -/

section Get

variable {bs : List Byte} {n pos : Nat}

theorem getBits_of_le (h : pos + n ≤ 8 * bs.length) :
    getBits (bitSourceOf bs) n pos = .ok (bitSum bs pos n, pos + n) :=
  (PacketInput.bitReaderReadsLsbFirst bs n pos).1 h

theorem getBits_of_lt (h : 8 * bs.length < pos + n) : getBits (bitSourceOf bs) n pos = .error pos :=
  (PacketInput.bitReaderReadsLsbFirst bs n pos).2 h

/-- A read that succeeds yields a field of n bits and moves past it. -/
theorem getBits_ok {b : BitSource} {v q : Nat} (h : getBits b n pos = .ok (v, q)) :
    v < 2 ^ n ∧ q = pos + n := by
  unfold getBits at h
  split at h
  · cases h
  · obtain ⟨rfl, rfl⟩ := Prod.mk.inj (Except.ok.inj h)
    exact ⟨Nat.mod_lt _ (Nat.two_pow_pos n), rfl⟩

theorem bitSum_lt (bs : List Byte) (pos n : Nat) : bitSum bs pos n < 2 ^ n := by
  rw [← PacketInput.bits_mod_two_pow]
  exact Nat.mod_lt _ (Nat.two_pow_pos n)

/-- A one-bit field is its bit. -/
theorem bitSum_one_eq_one_iff (bs : List Byte) (pos : Nat) : bitSum bs pos 1 = 1 ↔ bitOf bs pos = true := by
  cases h : bitOf bs pos <;> simp [bitSum, h]

end Get

/-! ### `getFloat()` -/

/-- A magnitude of 24 bits whose last bit a binary32 can hold is not rounded (R10). -/
theorem rne32_fin_exact (neg : Bool) {m : Nat} {e : Int} (hm : m < 2 ^ 24) (hlow : -149 ≤ e)
    (hhigh : e ≤ 104) :
    f32Value (rne32 (.fin neg m e)) = some (ratOf neg m e) ∧
      (rne32 (.fin neg m e)).bits.getLsbD 31 = neg := by
  obtain ⟨q, r, hround, hrne⟩ := Rounding.rne32_fin neg m e
  have hm' : (m : ℚ) ≤ 2 ^ 24 - 1 := by
    have : (m : ℚ) ≤ (2 ^ 24 - 1 : Nat) := by exact_mod_cast (by omega : m ≤ 2 ^ 24 - 1)
    exact this.trans_eq (by norm_num)
  have hqe : q ≤ e := by
    by_contra hlt
    have hbig := hround.ge (by omega)
    have hsmall : (m : ℚ) * 2 ^ (e - q) ≤ (2 ^ 24 - 1) * 2 ^ (-1 : Int) :=
      mul_le_mul hm' (zpow_le_zpow_right₀ one_le_two (by omega)) (by positivity) (by norm_num)
    norm_num at hbig hsmall
    linarith
  have hr : (m : ℚ) * 2 ^ (e - q) = r := by
    have hint : (m : ℚ) * 2 ^ (e - q) = ((m * 2 ^ (e - q).toNat : Nat) : Int) := by
      push_cast
      rw [← zpow_natCast, Int.toNat_of_nonneg (by omega)]
    have hzero := (hround.nearest.le_of_int (m * 2 ^ (e - q).toNat : Nat)).1
    rw [← hint, sub_self, abs_zero] at hzero
    exact sub_eq_zero.1 (abs_nonpos_iff.1 hzero)
  have hfinite : Rounding.roundedCode q r < 255 * 2 ^ 23 := by
    rw [← not_le, Rounding.roundedCode_overflow_iff hround, not_le, mul_assoc, ← zpow_add₀ two_ne_zero,
      sub_add_cancel]
    calc (m : ℚ) * 2 ^ e ≤ (2 ^ 24 - 1) * 2 ^ (104 : Int) :=
          mul_le_mul hm' (zpow_le_zpow_right₀ one_le_two hhigh) (by positivity) (by norm_num)
      _ < 2 ^ 128 - 2 ^ 103 := by norm_num
  obtain ⟨m', e', hnum, hval⟩ := Rounding.f32Num_roundedCode_fin neg hround hfinite
  rw [hrne]
  refine ⟨?_, Rounding.sign_ofCode neg _ (Rounding.roundedCode_lt q r)⟩
  rw [f32Value, hnum, numValue, hval, Rounding.ratOf_factor_self neg m e q, hr]

/-- Negation of an exact value (R10). -/
theorem f32Value_fneg {x : F32} {neg : Bool} {m : Nat} {e : Int} (h : f32Value x = some (ratOf neg m e)) :
    f32Value (fneg x) = some (ratOf (!neg) m e) := by
  obtain ⟨neg', m', e', hnum, hval⟩ := Rounding.f32Value_eq_some h
  rw [f32Value, Rounding.f32Num_fneg, hnum, FNum.neg, numValue, Rounding.ratOf_not, hval, Rounding.ratOf_not]

/-- The float that `getFloat()` makes of its three fields (R120). -/
def floatOf (power mant : Nat) (sign : Bool) : F32 :=
  if sign then fneg (rne32 (.fin false mant ((power : Int) - 23)))
  else rne32 (.fin false mant ((power : Int) - 23))

theorem floatOf_exact {power mant : Nat} (sign : Bool) (hp : power < 2 ^ 5) (hm : mant < 2 ^ 23) :
    f32Value (floatOf power mant sign) = some (ratOf sign mant ((power : Int) - 23)) ∧
      (floatOf power mant sign).bits.getLsbD 31 = sign := by
  obtain ⟨hvalue, hsign⟩ :=
    rne32_fin_exact false (m := mant) (e := (power : Int) - 23) (by omega) (by omega) (by omega)
  cases sign with
  | false => exact ⟨hvalue, hsign⟩
  | true => exact ⟨f32Value_fneg hvalue, (Rounding.sign_fneg _).trans (by rw [hsign]; rfl)⟩

theorem getFloat_of_le {bs : List Byte} {pos : Nat} (h : pos + 29 ≤ 8 * bs.length) :
    getFloat (bitSourceOf bs) pos =
      .ok (floatOf (bitSum bs pos 5) (bitSum bs (pos + 5) 23) (bitOf bs (pos + 28)), pos + 29) := by
  rw [getFloat, bind_of_ok (getBits_of_le (by omega)), bind_of_ok (getBits_of_le (by omega)),
    bind_of_ok (getBits_of_le (by omega))]
  simp only [bitSum_one_eq_one_iff]
  rfl

/-- Settles O40: three reads in order; 23 bits of mantissa fit a binary32 significand, so `rne32` is exact. -/
theorem getFloatIsExact : Obligations.GetFloatIsExact := by
  intro bs pos
  refine ⟨fun h => ⟨_, getFloat_of_le h, ?_⟩, fun h => ?_, fun h5 h => ?_, fun h28 h => ?_⟩
  · exact floatOf_exact _ (bitSum_lt bs pos 5) (bitSum_lt bs (pos + 5) 23)
  · exact bind_of_error (getBits_of_lt h)
  · rw [getFloat, bind_of_ok (getBits_of_le h5)]
    exact bind_of_error (getBits_of_lt (by omega))
  · rw [getFloat, bind_of_ok (getBits_of_le (by omega)), bind_of_ok (getBits_of_le (by omega))]
    exact bind_of_error (getBits_of_lt (by omega))

end Sys2Proof.BitPrograms
end

section
/-!
The samples of an audio block: the conversion to int16 (44_audio.md R127) and the overlap-add (R128).
-/

namespace Sys2Proof.Samples

open Sys2Proof Sys2Proof.Machine Sys2Proof.Safety Sys2Proof.Laws

/-! ### PCM -/

theorem clampHalf_toInt (v : Int) : (clampHalf v).toInt = min (max v (-32768)) 32767 := by
  rw [clampHalf, BitVec.toInt_ofInt_eq_self (by decide)]
  · omega
  · omega

theorem ratOf_of_exp_nonneg (neg : Bool) (m : Nat) {e : Int} (h : 0 ≤ e) :
    ratOf neg m e = signedInt neg (m <<< e.toNat) := by
  have hshift := Rounding.signedInt_shiftLeft neg m e 0 h
  rw [sub_zero, zpow_zero, mul_one] at hshift
  exact hshift.symm

theorem ratOf_of_exp_neg (neg : Bool) (m : Nat) {e : Int} (h : ¬ 0 ≤ e) :
    ratOf neg m e = signedInt neg m / (2 ^ (-e).toNat : Nat) := by
  have hpow : (2 : ℚ) ^ e = ((2 ^ (-e).toNat : Nat) : ℚ)⁻¹ := by
    push_cast
    rw [← zpow_natCast, Int.toNat_of_nonneg (by omega), zpow_neg, inv_inv]
  rw [Rounding.ratOf_eq_signedInt, hpow, div_eq_mul_inv]

/-- The integer division of `floorFin` is the floor. -/
theorem floorFin_eq_floor (neg : Bool) (m : Nat) (e : Int) : floorFin neg m e = ⌊ratOf neg m e⌋ := by
  unfold floorFin
  split
  · rename_i h
    rw [ratOf_of_exp_nonneg neg m h, Int.floor_intCast]
  · rename_i h
    rw [ratOf_of_exp_neg neg m h, Rat.floor_intCast_div_natCast]

/-- HALF_UP (R127): the half is added exactly. -/
theorem roundHalfUp_eq_floor (neg : Bool) (m : Nat) (e : Int) :
    roundHalfUp neg m e = ⌊ratOf neg m e + 1 / 2⌋ := by
  obtain ⟨neg', m', e', hadd, hval⟩ := Rounding.add_fin_value neg false m 1 e (-1)
  have hhalf : ratOf false 1 (-1) = 1 / 2 := by norm_num [ratOf]
  rw [roundHalfUp, hadd, ← hhalf, ← hval]
  exact floorFin_eq_floor neg' m' e'

/-- HALF_EVEN (R127): the magnitude is rounded, and the sign put back. -/
theorem roundHalfEven_nearest (neg : Bool) (m : Nat) (e : Int) :
    |ratOf neg m e - roundHalfEven neg m e| ≤ 1 / 2 ∧
      (|ratOf neg m e - roundHalfEven neg m e| = 1 / 2 → Even (roundHalfEven neg m e)) := by
  unfold roundHalfEven
  split
  · rename_i h
    rw [ratOf_of_exp_nonneg neg m h, sub_self]
    norm_num
  · rename_i h
    obtain ⟨hhalf, htie⟩ := Rounding.isNearestEven_rneShift m (-e).toNat
    have habs : |ratOf neg m e - signedInt neg (rneShift m (-e).toNat)| =
        |(m : ℚ) / 2 ^ (-e).toNat - rneShift m (-e).toNat| := by
      rw [ratOf_of_exp_neg neg m h]
      cases neg
      · simp [signedInt]
      · simp only [signedInt, if_true]
        push_cast
        rw [neg_div, ← neg_sub', abs_neg]
    rw [habs]
    refine ⟨hhalf, fun he => ?_⟩
    have heven : Even ((rneShift m (-e).toNat : Nat) : Int) := by
      rw [Int.even_coe_nat]
      exact Nat.even_iff.2 (htie he)
    cases neg
    · exact heven
    · exact heven.neg

/-- Settles O42: by the datum of x, and for a finite one by the rounding. -/
theorem pcmRoundsAndClamps : Obligations.PcmRoundsAndClamps := by
  intro n x
  refine ⟨fun q hq => ?_, fun r => ⟨fun h => ?_, fun h => ?_, fun h => ?_⟩⟩
  · obtain ⟨neg, m, e, hnum, rfl⟩ := Rounding.f32Value_eq_some hq
    obtain ⟨hhalf, htie⟩ := roundHalfEven_nearest neg m e
    refine ⟨?_, roundHalfEven neg m e, hhalf, htie, ?_⟩
    · rw [pcm, hnum, ← roundHalfUp_eq_floor]
      exact clampHalf_toInt _
    · rw [pcm, hnum]
      exact clampHalf_toInt _
  · rw [pcm, h]
    rfl
  · rw [pcm, h]
    rfl
  · rw [pcm, h]

/-! ### The overlap-add -/

theorem half_toInt_bounds (h : Half) : -32768 ≤ h.toInt ∧ h.toInt < 32768 := by
  have hle := h.le_toInt
  have hlt := h.toInt_lt
  omega

/-- A floored weighted mean lies between its two integers. -/
theorem weightedMean_between {a b i n : Int} (hn : 0 < n) (h0 : 0 ≤ i) (hi : i ≤ n) :
    min a b ≤ (a * (n - i) + b * i) / n ∧ (a * (n - i) + b * i) / n ≤ max a b := by
  have hni : 0 ≤ n - i := by omega
  constructor
  · rw [Int.le_ediv_iff_mul_le hn]
    calc min a b * n = min a b * (n - i) + min a b * i := by ring
      _ ≤ a * (n - i) + b * i := add_le_add (mul_le_mul_of_nonneg_right (min_le_left a b) hni)
          (mul_le_mul_of_nonneg_right (min_le_right a b) h0)
  · refine Int.ediv_le_of_le_mul hn ?_
    calc a * (n - i) + b * i ≤ max a b * (n - i) + max a b * i :=
          add_le_add (mul_le_mul_of_nonneg_right (le_max_left a b) hni)
            (mul_le_mul_of_nonneg_right (le_max_right a b) h0)
      _ = max a b * n := by ring

/-- The crossfade fits an int16, as it lies between its inputs (R128). -/
theorem crossfade_toInt (prev out : Half) {k i : Nat} (hi : i ≤ 2 ^ k) :
    (crossfade prev out (2 ^ k) i).toInt =
      (prev.toInt * ((2 : Int) ^ k - i) + out.toInt * i) / (2 : Int) ^ k := by
  have hi' : (i : Int) ≤ 2 ^ k := by exact_mod_cast hi
  obtain ⟨hlow, hhigh⟩ := weightedMean_between (a := prev.toInt) (b := out.toInt)
    (by positivity : (0 : Int) < 2 ^ k) (Int.natCast_nonneg i) hi'
  obtain ⟨hp0, hp1⟩ := half_toInt_bounds prev
  obtain ⟨ho0, ho1⟩ := half_toInt_bounds out
  rw [crossfade, Nat.log2_two_pow, Nat.cast_pow, Nat.cast_ofNat, BitVec.toInt_ofInt_eq_self (by decide)]
  · omega
  · omega

/-- Sample i after the overlap-add: turn i of the loop is the only one that writes it. -/
theorem sampleAt_overlapAdd {t : Track} {out : Array Half} (hfirst : t.first = false) {i : Nat}
    (hi : i < out.size) : sampleAt (overlapAdd t out) i =
      if i < overlapCount t then crossfade (prevAt t i) (sampleAt out i) (overlapCount t) i
      else sampleAt out i := by
  have huntouched : ∀ (d : Array Half) (k j : Nat), ¬ k = j →
      (d.setIfInBounds k (crossfade (prevAt t k) (sampleAt out k) (overlapCount t) k))[j]? = d[j]? :=
    fun d k j h => Array.getElem?_setIfInBounds_ne h
  have hsample : ∀ d : Array Half, sampleAt d i = d[i]?.getD 0#16 := fun d => by simp [sampleAt]
  rw [overlapAdd, hfirst, if_neg Bool.false_ne_true, hsample]
  split
  · rename_i hcount
    rw [foldl_getElem?_touched (fun k j => k = j) _ huntouched
      (fun d d' k h j hj => by subst hj; simp [Array.getElem?_setIfInBounds, lt_size_congr (h k rfl)])
      _ (List.nodup_range.imp fun hne m hm hm' => hne (hm.trans hm'.symm)) _ i (List.mem_range.2 hcount) i rfl,
      Array.getElem?_setIfInBounds_self_of_lt hi]
    rfl
  · rename_i hcount
    rw [foldl_getElem?_untouched (fun k j => k = j) _ huntouched _ _ i
      (fun k hk h => hcount (h ▸ List.mem_range.1 hk)), hsample]

/-- Settles O43: the weighted mean, then the loop sample by sample. -/
theorem overlapAddCrossfades : Obligations.OverlapAddCrossfades := by
  refine ⟨fun prev out k i hi => ?_, fun t out => ⟨fun h => if_pos h, fun h i => sampleAt_overlapAdd h⟩⟩
  rw [crossfade_toInt prev out hi]
  exact ⟨rfl, weightedMean_between (by positivity) (Int.natCast_nonneg i) (by exact_mod_cast hi)⟩

end Sys2Proof.Samples
end

section
/-!
The spectral coefficients of an audio block (44_audio.md R121 to R125). RUNS carries a band and its step from
coefficient to coefficient and writes into an array; the statement gives each coefficient its band's step and lists
the coefficients. The two agree because the bands of a configured track do not repeat a boundary (R115).
-/

namespace Sys2Proof.Coefficients

open Sys2Proof Sys2Proof.Machine Sys2Proof.Safety Sys2Proof.Laws Sys2Proof.AudioTrack Sys2Proof.BitPrograms

/-! ### Boundaries -/

/-- The boundaries of a track rise strictly from 2 to F, up to entry NBANDS. -/
structure BandsRise (t : Track) : Prop where
  first : bandAt t 0 = 2
  last : bandAt t t.nBands.toNat = t.frameLen.toNat
  two_le : 2 ≤ t.frameLen.toNat
  rise : ∀ k, k < t.nBands.toNat → bandAt t k < bandAt t (k + 1)
  count : t.nBands.toNat ≤ 25

/-- Neighbouring critical frequencies are at least 100 Hz apart (R114). -/
theorem crit_add_hundred_le {i : Nat} (h : i + 1 < 25) : crit i + 100 ≤ crit (i + 1) := by
  have hall : ∀ i < 24, crit i + 100 ≤ crit (i + 1) := by decide
  exact hall i (by omega)

/-- 100 Hz are at least two coefficients of half a frame: the frame length grows with the rate (R113). -/
theorem two_mul_halfRate_le (rate : Half) (codec : Codec) (stereo : Bool) :
    2 * halfRate (effectiveRate rate.toNat codec stereo) ≤
      100 * (2 ^ frameBits rate.toNat codec stereo / 2) := by
  have := rate.isLt
  unfold halfRate effectiveRate frameBits
  split_ifs <;> omega

/-- Where 100 Hz are two coefficients or more, no boundary repeats (R115). -/
theorem bandBound_lt_succ {effRate F : Nat} (hF : 4 ≤ F) (hpos : 1 ≤ halfRate effRate)
    (hrate : 2 * halfRate effRate ≤ 100 * (F / 2)) {k : Nat} (hk : k < bandCount effRate) :
    bandBound effRate F k < bandBound effRate F (k + 1) := by
  obtain ⟨-, hle, -, -⟩ := bandCount_spec effRate
  rcases Nat.eq_or_lt_of_le (Nat.succ_le_of_lt hk) with hlast | hinner
  · have hend : bandBound effRate F (k + 1) = F := by rw [← Nat.succ_eq_add_one, hlast, bandBound_last]
    rw [hend]
    rcases Nat.eq_zero_or_pos k with rfl | hk0
    · rw [bandBound_zero]
      omega
    · exact bandBound_inner_lt (by omega) hk0 hk
  · rw [bandBound_inner (Nat.succ_le_succ (Nat.zero_le k)) hinner, Nat.succ_sub_one]
    rcases Nat.eq_zero_or_pos k with rfl | hk0
    · have hdiv : 2 ≤ crit 0 * (F / 2) / halfRate effRate := (Nat.le_div_iff_mul_le hpos).2 hrate
      rw [bandBound_zero]
      omega
    · obtain ⟨j, rfl⟩ : ∃ j, k = j + 1 := ⟨k - 1, by omega⟩
      have hcrit := Nat.mul_le_mul_right (F / 2) (crit_add_hundred_le (i := j) (by omega))
      have hstep : crit j * (F / 2) / halfRate effRate + 2 ≤ crit (j + 1) * (F / 2) / halfRate effRate := by
        rw [← Nat.add_mul_div_right _ _ hpos]
        exact Nat.div_le_div_right ((Nat.add_le_add_left hrate _).trans (by rwa [← Nat.add_mul]))
      rw [bandBound_inner hk0 hk, Nat.add_sub_cancel]
      omega

theorem four_le_two_pow_frameBits (rate : Nat) (codec : Codec) (stereo : Bool) :
    4 ≤ 2 ^ frameBits rate codec stereo := by
  obtain ⟨hlow, -⟩ := frameBits_bounds rate codec stereo
  exact Nat.pow_le_pow_right (n := 2) (i := 2) (by decide) (by omega)

theorem bandsRise_configuredTrack {rate : Half} (codec : Codec) (stereo : Bool) (hrate : rate ≠ 0#16) :
    BandsRise (configuredTrack rate codec stereo) := by
  have hpos : 1 ≤ halfRate (effectiveRate rate.toNat codec stereo) := by
    have : rate.toNat ≠ 0 := fun h => hrate (BitVec.eq_of_toNat_eq h)
    unfold halfRate effectiveRate
    split_ifs <;> omega
  obtain ⟨-, hle, -, -⟩ := bandCount_spec (effectiveRate rate.toNat codec stereo)
  constructor
  · rw [bandAt_configuredTrack, bandBound_zero]
  · rw [bandAt_configuredTrack, configuredTrack_nBands, configuredTrack_frameLen, bandBound_last]
  · rw [configuredTrack_frameLen]
    exact (two_pow_frameBits_bounds _ _ _).1
  · intro k hk
    rw [configuredTrack_nBands] at hk
    rw [bandAt_configuredTrack, bandAt_configuredTrack]
    exact bandBound_lt_succ (four_le_two_pow_frameBits _ _ _) hpos (two_mul_halfRate_le _ _ _) hk
  · rwa [configuredTrack_nBands]

/-- AUD_PKT changes no boundary. -/
theorem bandsRise_of_trackOk {t : Track} (h : TrackOk t) (hvalid : t.valid = true) : BandsRise t := by
  rcases h with rfl | ⟨hrate, ⟨stereo, hconf⟩, -⟩
  · cases hvalid
  · obtain ⟨hfirst, hlast, hframe, hrise, hcount⟩ := bandsRise_configuredTrack t.codec stereo hrate
    rw [hconf]
    exact ⟨hfirst, hlast, hframe, hrise, hcount⟩

/-! ### The current band -/

/-- RUNS's band and step before coefficient i: the bands below k begin before i, band k at i or later, and the
step is the one of the band before k. -/
structure AtCoef (t : Track) (quants : List F32) (i : Nat) (r : RunState) : Prop where
  le : r.k ≤ t.nBands.toNat
  below : ∀ j, j < r.k → bandAt t j < i
  reached : i ≤ bandAt t r.k
  step : r.q = quants.getD (r.k - 1) F32.zero

section Bands

variable {t : Track} {quants : List F32} {i : Nat} {r : RunState}

theorem AtCoef.enter (ht : BandsRise t) (h : AtCoef t quants i r) (hi : i < t.frameLen.toNat)
    (heq : bandAt t r.k = i) : AtCoef t quants (i + 1) (enterBand quants r) ∧ r.k < t.nBands.toNat := by
  have hk : r.k < t.nBands.toNat := by
    refine Nat.lt_of_le_of_ne h.le fun hlast => ?_
    rw [hlast, ht.last] at heq
    omega
  have hrise : i < bandAt t (r.k + 1) := heq ▸ ht.rise r.k hk
  refine ⟨⟨hk, fun j hj => ?_, hrise, rfl⟩, hk⟩
  rcases Nat.lt_succ_iff_lt_or_eq.1 hj with hj | rfl
  · exact (h.below j hj).trans (Nat.lt_succ_self i)
  · exact heq.trans_lt (Nat.lt_succ_self i)

theorem AtCoef.stay (h : AtCoef t quants i r) (hlt : i < bandAt t r.k) : AtCoef t quants (i + 1) r :=
  ⟨h.le, fun j hj => (h.below j hj).trans (Nat.lt_succ_self i), hlt, h.step⟩

/-- The band in which i lies is entered where it begins at i (R125, one coefficient of a nonzero run). -/
def enterAt (t : Track) (quants : List F32) (i : Nat) (r : RunState) : RunState :=
  if bandAt t r.k = i then enterBand quants r else r

theorem enterAt_withCoef (coef : Array F32) :
    enterAt t quants i { r with coef := coef } = { enterAt t quants i r with coef := coef } := by
  unfold enterAt
  split <;> rfl

/-- At coefficient i the step is that of the band in which i lies. -/
theorem AtCoef.enterAt (ht : BandsRise t) (h : AtCoef t quants i r) (h2 : 2 ≤ i) (hi : i < t.frameLen.toNat) :
    AtCoef t quants (i + 1) (enterAt t quants i r) ∧
    ∃ k, k < t.nBands.toNat ∧ bandAt t k ≤ i ∧ i < bandAt t (k + 1) ∧
      (enterAt t quants i r).q = quants.getD k F32.zero := by
  unfold Coefficients.enterAt
  split
  · rename_i heq
    obtain ⟨hnext, hk⟩ := h.enter ht hi heq
    exact ⟨hnext, r.k, hk, heq.le, heq ▸ ht.rise r.k hk, rfl⟩
  · rename_i hne
    have hlt : i < bandAt t r.k := Nat.lt_of_le_of_ne h.reached (Ne.symm hne)
    have hk0 : r.k ≠ 0 := by
      intro h0
      rw [h0, ht.first] at hlt
      omega
    obtain ⟨k, hk⟩ : ∃ k, r.k = k + 1 := ⟨r.k - 1, by omega⟩
    have hle := h.le
    refine ⟨h.stay hlt, k, by omega, (h.below k (by omega)).le, by rwa [hk] at hlt, ?_⟩
    rw [h.step, hk, Nat.add_sub_cancel]

theorem catchUp_withCoef (j n : Nat) (coef : Array F32) :
    catchUp t quants j n { r with coef := coef } = { catchUp t quants j n r with coef := coef } := by
  induction n generalizing r with
  | zero => rfl
  | succ n ih =>
    simp only [catchUp]
    split
    · exact ih (r := enterBand quants r)
    · rfl

/-- The bands that begin before j are entered, however many they are (R125, after a zero run). -/
theorem atCoef_catchUp (ht : BandsRise t) {j : Nat} (hj : j ≤ t.frameLen.toNat) {n : Nat}
    (hn : t.nBands.toNat ≤ n + r.k) (hle : r.k ≤ t.nBands.toNat) (hbelow : ∀ k, k < r.k → bandAt t k < j)
    (hstep : r.q = quants.getD (r.k - 1) F32.zero) : AtCoef t quants j (catchUp t quants j n r) := by
  induction n generalizing r with
  | zero =>
    refine ⟨hle, hbelow, ?_, hstep⟩
    rw [catchUp, show r.k = t.nBands.toNat by omega, ht.last]
    exact hj
  | succ n ih =>
    rw [catchUp]
    split
    · rename_i hlt
      have hk : r.k < t.nBands.toNat := by
        refine Nat.lt_of_le_of_ne hle fun hlast => ?_
        rw [hlast, ht.last] at hlt
        omega
      refine ih (r := enterBand quants r) ?_ hk (fun k hk' => ?_) rfl
      · change t.nBands.toNat ≤ n + (r.k + 1)
        omega
      · rcases Nat.lt_succ_iff_lt_or_eq.1 hk' with hk' | rfl
        · exact hbelow k hk'
        · exact hlt
    · rename_i hge
      exact ⟨hle, hbelow, Nat.le_of_not_lt hge, hstep⟩

theorem AtCoef.catchUp (ht : BandsRise t) (h : AtCoef t quants i r) {j : Nat} (hij : i ≤ j)
    (hj : j ≤ t.frameLen.toNat) : AtCoef t quants j (catchUp t quants j 26 r) :=
  atCoef_catchUp ht hj (by have := ht.count; omega) h.le (fun k hk => (h.below k hk).trans_le hij) h.step

end Bands

/-! ### Coefficients written one after the other -/

/-- The coefficients xs written from coefficient i on. -/
def writeFrom (coef : Array F32) : Nat → List F32 → Array F32
  | _, [] => coef
  | i, x :: xs => writeFrom (fSet coef i x) (i + 1) xs

theorem writeFrom_append (coef : Array F32) (i : Nat) (xs ys : List F32) :
    writeFrom coef i (xs ++ ys) = writeFrom (writeFrom coef i xs) (i + xs.length) ys := by
  induction xs generalizing coef i with
  | nil => rfl
  | cons x xs ih =>
    rw [List.cons_append, writeFrom, ih, writeFrom, List.length_cons, Nat.add_assoc, Nat.add_comm 1]

theorem zeroRun_eq_writeFrom (coef : Array F32) (i n : Nat) :
    zeroRun coef i n = writeFrom coef i (List.replicate n F32.zero) := by
  induction n with
  | zero => rfl
  | succ n ih =>
    rw [List.replicate_succ', writeFrom_append, ← ih, List.length_replicate, zeroRun, List.range_succ,
      List.foldl_append]
    rfl

/-- Coefficients that fill an array to its end. -/
theorem toList_writeFrom {coef : Array F32} {i : Nat} {xs : List F32} (h : coef.size = i + xs.length) :
    (writeFrom coef i xs).toList = coef.toList.take i ++ xs := by
  induction xs generalizing coef i with
  | nil =>
    rw [writeFrom, List.append_nil, List.take_of_length_le]
    exact h.le
  | cons x xs ih =>
    rw [List.length_cons] at h
    have hi : i < coef.toList.length := by
      rw [Array.length_toList]
      omega
    rw [writeFrom, ih (by rw [fSet_size]; omega), fSet, Array.toList_setIfInBounds,
      List.take_add_one, List.take_set_of_le (le_refl i), List.getElem?_set_self hi, List.append_assoc]
    rfl

/-! ### How many values a reader yields -/

section Lengths

variable {p : Params} {b : BitSource} {stepAt : Nat → F32}

theorem readValues_length {n pos q : Nat} {vs : List Nat} (h : readValues b n pos = .ok (vs, q)) :
    vs.length = n := by
  induction n generalizing pos q vs with
  | zero =>
    obtain ⟨rfl, -⟩ := Prod.mk.inj (Except.ok.inj h)
    rfl
  | succ n ih =>
    obtain ⟨v, _, -, h⟩ := bind_ok h
    obtain ⟨ws, _, hws, h⟩ := bind_ok h
    obtain ⟨rfl, -⟩ := Prod.mk.inj (Except.ok.inj h)
    rw [List.length_cons, ih hws]

theorem runCoefs_length {width n i pos q : Nat} {xs : List F32}
    (h : runCoefs p b width stepAt n i pos = .ok (xs, q)) : xs.length = n := by
  induction n generalizing i pos q xs with
  | zero =>
    obtain ⟨rfl, -⟩ := Prod.mk.inj (Except.ok.inj h)
    rfl
  | succ n ih =>
    obtain ⟨x, _, -, h⟩ := bind_ok h
    obtain ⟨ys, _, hys, h⟩ := bind_ok h
    obtain ⟨rfl, -⟩ := Prod.mk.inj (Except.ok.inj h)
    rw [List.length_cons, ih hys]

/-- The m coefficients of one run, zeros where the width is 0 (R125). -/
def runOf (p : Params) (b : BitSource) (stepAt : Nat → F32) (width m i : Nat) : BitReader (List F32) :=
  if width = 0 then pure (List.replicate m F32.zero) else runCoefs p b width stepAt m i

theorem runOf_length {width m i pos q : Nat} {xs : List F32}
    (h : runOf p b stepAt width m i pos = .ok (xs, q)) : xs.length = m := by
  unfold runOf at h
  split at h
  · obtain ⟨rfl, -⟩ := Prod.mk.inj (Except.ok.inj h)
    exact List.length_replicate
  · exact runCoefs_length h

theorem runsByLength_succ {F n i : Nat} (h : i < F) :
    runsByLength p b F stepAt (n + 1) i = (do
      let len ← runLength b
      let width ← getBits b 4
      let xs ← runOf p b stepAt width (min len (F - i)) i
      let ys ← runsByLength p b F stepAt n (i + min len (F - i))
      pure (xs ++ ys)) := by
  rw [runsByLength, if_neg (Nat.not_le_of_lt h)]
  refine bind_congr fun len => bind_congr fun width => ?_
  unfold runOf
  by_cases hw : width = 0
  · rw [if_pos hw, if_pos hw]
  · rw [if_neg hw, if_neg hw]

/-- A run is at least 8 coefficients long before it is cut: every 4-bit index has an entry of RLE (R124). -/
theorem eight_le_runLength {pos len q : Nat} (h : runLength b pos = .ok (len, q)) : 8 ≤ len := by
  obtain ⟨flag, _, -, h⟩ := bind_ok h
  split at h
  · obtain ⟨index, _, hindex, h⟩ := bind_ok h
    obtain ⟨rfl, -⟩ := Prod.mk.inj (Except.ok.inj h)
    obtain ⟨hlt, -⟩ := getBits_ok hindex
    have hall : ∀ index < 2 ^ 4,
        8 ≤ 8 * [2, 3, 4, 5, 6, 8, 9, 10, 11, 12, 13, 14, 15, 16, 32, 64].getD index 0 := by decide
    exact hall index hlt
  · obtain ⟨rfl, -⟩ := Prod.mk.inj (Except.ok.inj h)
    exact le_refl 8

/-- The runs end at F, by induction on the turns: each moves i up. -/
theorem runsByLength_length {F n i pos q : Nat} {ys : List F32} (hn : F ≤ n + i)
    (h : runsByLength p b F stepAt n i pos = .ok (ys, q)) : ys.length = F - i := by
  induction n generalizing i pos q ys with
  | zero =>
    obtain ⟨rfl, -⟩ := Prod.mk.inj (Except.ok.inj h)
    rw [List.length_nil]
    omega
  | succ n ih =>
    by_cases hi : i < F
    · rw [runsByLength_succ hi] at h
      obtain ⟨len, _, hlen, h⟩ := bind_ok h
      obtain ⟨width, _, -, h⟩ := bind_ok h
      obtain ⟨xs, _, hxs, h⟩ := bind_ok h
      obtain ⟨zs, _, hzs, h⟩ := bind_ok h
      obtain ⟨rfl, -⟩ := Prod.mk.inj (Except.ok.inj h)
      have := eight_le_runLength hlen
      rw [List.length_append, runOf_length hxs, ih (by omega) hzs]
      omega
    · rw [runsByLength, if_pos (Nat.le_of_not_lt hi)] at h
      obtain ⟨rfl, -⟩ := Prod.mk.inj (Except.ok.inj h)
      rw [List.length_nil]
      omega

end Lengths

/-! ### RUNS -/

section Runs

variable {p : Params} {t : Track} {quants : List F32} {b : BitSource} {stepAt : Nat → F32}

/-- `stepAt` gives each coefficient the step of the band in which it lies. -/
def StepsOf (t : Track) (quants : List F32) (stepAt : Nat → F32) : Prop :=
  ∀ k i, k < t.nBands.toNat → bandAt t k ≤ i → i < bandAt t (k + 1) → stepAt i = quants.getD k F32.zero

theorem nonzeroRun_succ (width n i : Nat) (r : RunState) :
    nonzeroRun p t quants b width (n + 1) i r =
      readCoef p b width (enterAt t quants i r).q >>= fun x =>
        nonzeroRun p t quants b width n (i + 1)
          { enterAt t quants i r with coef := fSet (enterAt t quants i r).coef i x } := rfl

/-- A nonzero run, by induction on its coefficients: it writes what `runCoefs` yields. -/
theorem nonzeroRun_eq (ht : BandsRise t) (hsteps : StepsOf t quants stepAt) (width : Nat) {n i : Nat}
    {r : RunState} (hr : AtCoef t quants i r) (h2 : 2 ≤ i) (hi : i + n ≤ t.frameLen.toNat) :
    ∃ u, AtCoef t quants (i + n) u ∧ ∀ coef,
      nonzeroRun p t quants b width n i { r with coef := coef } =
        (fun xs => { u with coef := writeFrom coef i xs }) <$> runCoefs p b width stepAt n i := by
  induction n generalizing i r with
  | zero => exact ⟨r, hr, fun coef => (map_pure _ _).symm⟩
  | succ n ih =>
    obtain ⟨hnext, k, hk, hlow, hhigh, hq⟩ := hr.enterAt ht h2 (by omega)
    obtain ⟨u, hu, heq⟩ := ih hnext (by omega) (by omega)
    refine ⟨u, by rwa [Nat.add_assoc, Nat.add_comm 1] at hu, fun coef => ?_⟩
    rw [nonzeroRun_succ, enterAt_withCoef, runCoefs, hsteps k i hk hlow hhigh, ← hq, map_bind]
    refine bind_congr fun x => ?_
    rw [heq, map_bind]
    simp only [map_eq_pure_bind, pure_bind]
    rfl

/-- One run of RUNS, zero or not. -/
def runInto (p : Params) (t : Track) (quants : List F32) (b : BitSource) (width m i : Nat) (r : RunState) :
    BitReader RunState :=
  if width = 0 then pure (catchUp t quants (i + m) 26 { r with coef := zeroRun r.coef i m })
  else nonzeroRun p t quants b width m i r

theorem runInto_eq (ht : BandsRise t) (hsteps : StepsOf t quants stepAt) (width : Nat) {m i : Nat}
    {r : RunState} (hr : AtCoef t quants i r) (h2 : 2 ≤ i) (hi : i + m ≤ t.frameLen.toNat) :
    ∃ u, AtCoef t quants (i + m) u ∧ runInto p t quants b width m i r =
      (fun xs => { u with coef := writeFrom r.coef i xs }) <$> runOf p b stepAt width m i := by
  unfold runInto runOf
  split
  · refine ⟨_, hr.catchUp ht (Nat.le_add_right i m) hi, ?_⟩
    rw [map_pure, catchUp_withCoef, zeroRun_eq_writeFrom]
  · obtain ⟨u, hu, heq⟩ := nonzeroRun_eq (p := p) (b := b) ht hsteps width hr h2 hi
    exact ⟨u, hu, heq r.coef⟩

theorem readRunEnd_eq (b : BitSource) (i : Nat) : readRunEnd b i = (i + ·) <$> runLength b := by
  rw [readRunEnd, runLength, map_bind]
  refine bind_congr fun flag => ?_
  split
  · rw [map_bind]
    rfl
  · rfl

theorem runsFrom_succ {n i : Nat} (h : i < t.frameLen.toNat) (r : RunState) :
    runsFrom p t quants b (n + 1) i r = (do
      let len ← runLength b
      let width ← getBits b 4
      let u ← runInto p t quants b width (min len (t.frameLen.toNat - i)) i r
      runsFrom p t quants b n (i + min len (t.frameLen.toNat - i)) u) := by
  rw [runsFrom]
  simp only [if_neg (Nat.not_le_of_lt h), readRunEnd_eq, bind_map_left]
  refine bind_congr fun len => bind_congr fun width => ?_
  have hend : min (i + len) t.frameLen.toNat = i + min len (t.frameLen.toNat - i) := by omega
  rw [hend, Nat.add_sub_cancel_left]
  unfold runInto
  split
  · rw [pure_bind]
  · rfl

/-- RUNS's outer loop writes what `runsByLength` yields, by induction on the turns. -/
theorem runsFrom_eq (ht : BandsRise t) (hsteps : StepsOf t quants stepAt) {n i : Nat} {r : RunState}
    (hr : AtCoef t quants i r) (h2 : 2 ≤ i) :
    RunState.coef <$> runsFrom p t quants b n i r =
      writeFrom r.coef i <$> runsByLength p b t.frameLen.toNat stepAt n i := by
  induction n generalizing i r with
  | zero => rfl
  | succ n ih =>
    by_cases hi : i < t.frameLen.toNat
    · rw [runsFrom_succ hi, runsByLength_succ hi]
      simp only [map_bind]
      refine bind_congr fun len => bind_congr fun width => ?_
      obtain ⟨u, hu, heq⟩ := runInto_eq (p := p) (b := b) ht hsteps width hr h2
        (m := min len (t.frameLen.toNat - i)) (by omega)
      rw [heq, bind_map_left]
      refine bind_congr_of_ok fun pos xs q hxs => ?_
      rw [ih (r := { u with coef := writeFrom r.coef i xs }) ⟨hu.le, hu.below, hu.reached, hu.step⟩ (by omega)]
      rw [map_eq_pure_bind]
      refine bind_congr fun ys => ?_
      rw [map_pure, writeFrom_append, runOf_length hxs]
    · rw [runsFrom, runsByLength, if_pos (Nat.le_of_not_lt hi)]
      simp only [if_pos (Nat.le_of_not_lt hi), map_pure]
      rfl

end Runs

/-! ### A channel -/

theorem readQuants_eq (p : Params) (root : F32) (b : BitSource) (n : Nat) :
    readQuants p root b n = List.map (quantStep p root) <$> readValues b n := by
  induction n with
  | zero => rfl
  | succ n ih =>
    rw [readQuants, readValues, map_bind]
    refine bind_congr fun v => ?_
    rw [ih, bind_map_left, map_bind]
    rfl

/-- The steps of a track's bands are QUANT of their values (R123). -/
theorem stepsOf_values {p : Params} {t : Track} {vs : List Nat} {stepAt : Nat → F32}
    (hlen : vs.length = t.nBands.toNat)
    (h : ∀ k i, k < t.nBands.toNat → bandAt t k ≤ i → i < bandAt t (k + 1) →
      stepAt i = quantStep p t.root (vs.getD k 0)) :
    StepsOf t (vs.map (quantStep p t.root)) stepAt := by
  intro k i hk hlow hhigh
  rw [h k i hk hlow hhigh]
  simp [hlen ▸ hk]

/-- R121: two scaled floats, then the runs fill the channel to its end. -/
theorem readChannel_eq {p : Params} {t : Track} {b : BitSource} {stepAt : List Nat → Nat → F32}
    (ht : BandsRise t)
    (hstep : ∀ vs k i, k < t.nBands.toNat → bandAt t k ≤ i → i < bandAt t (k + 1) →
      stepAt vs i = quantStep p t.root (vs.getD k 0)) :
    readChannel p t b = (do
      let c0 ← getFloat b
      let c1 ← getFloat b
      let vs ← readValues b t.nBands.toNat
      let cs ← runsByLength p b t.frameLen.toNat (stepAt vs) t.frameLen.toNat 2
      pure (fmul c0 t.root :: fmul c1 t.root :: cs).toArray) := by
  rw [readChannel]
  refine bind_congr fun c0 => bind_congr fun c1 => ?_
  simp only [readQuants_eq, bind_map_left]
  refine bind_congr_of_ok fun _ vs _ hvs => ?_
  have hsteps := stepsOf_values (readValues_length hvs) (hstep vs)
  have hstart : AtCoef t (vs.map (quantStep p t.root)) 2
      ⟨0, (vs.map (quantStep p t.root)).getD 0 F32.zero,
        fSet (fSet (Array.replicate t.frameLen.toNat F32.zero) 0 (fmul c0 t.root)) 1 (fmul c1 t.root)⟩ :=
    ⟨Nat.zero_le _, fun j hj => absurd hj (Nat.not_lt_zero j), ht.first.ge, rfl⟩
  have hruns := runsFrom_eq (p := p) (b := b) (n := t.frameLen.toNat) ht hsteps hstart (le_refl 2)
  rw [map_eq_pure_bind] at hruns
  rw [hruns, map_eq_pure_bind]
  refine bind_congr_of_ok fun _ cs _ hcs => congrArg pure ?_
  have hlen := runsByLength_length (Nat.le_add_right _ _) hcs
  have h2 := ht.two_le
  apply Array.toList_inj.1
  rw [toList_writeFrom (by simp only [fSet_size, Array.size_replicate]; omega)]
  obtain ⟨m, hm⟩ := Nat.exists_eq_add_of_le' h2
  simp [fSet, hm, List.replicate_succ]

/-! ### A coefficient, a step, a block -/

section Coef

variable {p : Params} {bs : List Byte} {width pos : Nat} (q : F32)

/-- A zero magnitude is +0.0 (R125). -/
theorem readCoef_zero_absent (hsign : p.zeroSignBit = .absent) (h : pos + width ≤ 8 * bs.length)
    (hv : bitSum bs pos width = 0) :
    readCoef p (bitSourceOf bs) width q pos = .ok (F32.zero, pos + width) := by
  rw [readCoef, bind_of_ok (getBits_of_le h), hv, if_neg (not_not.2 rfl), hsign]
  exact bind_of_ok (getBits_of_le (n := 0) h)

theorem readCoef_zero_present (hsign : p.zeroSignBit = .present) (h : pos + width + 1 ≤ 8 * bs.length)
    (hv : bitSum bs pos width = 0) :
    readCoef p (bitSourceOf bs) width q pos = .ok (F32.zero, pos + width + 1) := by
  rw [readCoef, bind_of_ok (getBits_of_le (by omega)), hv, if_neg (not_not.2 rfl), hsign]
  exact bind_of_ok (getBits_of_le (n := 1) h)

theorem readCoef_nonzero (h : pos + width + 1 ≤ 8 * bs.length) (hv : bitSum bs pos width ≠ 0) :
    readCoef p (bitSourceOf bs) width q pos =
      .ok (fmul (if bitOf bs (pos + width) then fneg q else q) (f32OfNat (bitSum bs pos width)),
        pos + width + 1) := by
  rw [readCoef, bind_of_ok (getBits_of_le (by omega)), if_pos hv, bind_of_ok (getBits_of_le h)]
  simp only [bitSum_one_eq_one_iff]
  cases bitOf bs (pos + width) <;> rfl

end Coef

theorem getBits_zero {b : BitSource} {pos : Nat} (h : pos ≤ b.size) : getBits b 0 pos = .ok (0, pos) := by
  rw [getBits, if_neg (by omega), Nat.pow_zero, Nat.mod_one, Nat.add_zero]

theorem readBlockBits_dct {p : Params} {t : Track} {b : BitSource} (hcodec : t.codec = .dct) :
    readBlockBits p t b = getBits b p.dctBlockSkipBits.toNat >>= fun _ => readChannels p t b t.ch.toNat := by
  rw [readBlockBits, hcodec]

theorem readBlockBits_rdft {p : Params} {t : Track} {b : BitSource} (hcodec : t.codec = .rdft) :
    readBlockBits p t b = getBits b 0 >>= fun _ => readChannels p t b t.ch.toNat := by
  rw [readBlockBits, hcodec]

/-- Settles O41: the skipped bits by `getBits`; a channel by `readChannel_eq`, as a configured track's bands
rise; QUANT by its clamp, and evaluated at two values; a coefficient by its magnitude. -/
theorem coefficientsDecodeRunByRun : Obligations.CoefficientsDecodeRunByRun := by
  refine ⟨fun p t b pos hcodec => ⟨fun h => ?_, fun h => ?_⟩, fun p t b pos hcodec h => ?_,
    fun p t b stepAt hok hvalid hstep => readChannel_eq (bandsRise_of_trackOk hok hvalid) hstep,
    fun p root v => ⟨fun h => ?_, fun h => ?_⟩, by decide +kernel, by decide +kernel,
    fun p bs width pos q h => ⟨fun hv hsign => readCoef_zero_absent q hsign (by omega) hv,
      fun hv hsign => readCoef_zero_present q hsign h hv, readCoef_nonzero q h⟩⟩
  · rw [readBlockBits_dct hcodec]
    exact bind_of_error (if_pos h)
  · rw [readBlockBits_dct hcodec]
    exact bind_of_ok (if_neg (Nat.not_lt_of_le h))
  · rw [readBlockBits_rdft hcodec]
    exact bind_of_ok (getBits_zero h)
  · rw [quantStep, Nat.min_eq_left h]
  · rw [quantStep, quantStep, Nat.min_eq_right h, Nat.min_self]

end Sys2Proof.Coefficients
end

section
/-!
AUD_PKT's block loop (44_audio.md R117, R118): which blocks it decodes and how it ends, what one block writes, and
the faulted track.
-/

namespace Sys2Proof.Packets

open Sys2Proof Sys2Proof.Machine Sys2Proof.Safety Sys2Proof.Laws Sys2Proof.Commands Sys2Proof.BitPrograms

/-! ### Every block reads at least one bit -/

/-- Where the reader succeeds, it has read at least k bits. -/
def Advances {α : Type} (k : Nat) (x : BitReader α) : Prop := ∀ pos a q, x pos = .ok (a, q) → pos + k ≤ q

section Advancing

variable {α β : Type}

theorem advances_pure (a : α) : Advances 0 (pure a : BitReader α) := by
  intro pos a' q h
  obtain ⟨-, rfl⟩ := Prod.mk.inj (Except.ok.inj h)
  exact le_refl _

theorem advances_getBits (b : BitSource) (n : Nat) : Advances n (getBits b n) := by
  intro pos v q h
  exact (getBits_ok h).2.ge

theorem Advances.bind {x : BitReader α} {f : α → BitReader β} {j k : Nat} (hx : Advances j x)
    (hf : ∀ a, Advances k (f a)) : Advances (j + k) (x >>= f) := by
  intro pos c q h
  obtain ⟨a, p, hxa, hfa⟩ := bind_ok h
  have h1 := hx pos a p hxa
  have h2 := hf a p c q hfa
  omega

theorem Advances.mono {x : BitReader α} {j k : Nat} (hx : Advances k x) (h : j ≤ k) : Advances j x :=
  fun pos a q hq => (Nat.add_le_add_left h pos).trans (hx pos a q hq)

/-- The same where only the order of the positions matters. -/
theorem Advances.seq {x : BitReader α} {f : α → BitReader β} {j : Nat} (hx : Advances j x)
    (hf : ∀ a, Advances 0 (f a)) : Advances 0 (x >>= f) := (hx.bind hf).mono (Nat.zero_le _)

end Advancing

section Readers

variable (p : Params) (t : Track) (b : BitSource)

theorem advances_getFloat : Advances 1 (getFloat b) :=
  ((advances_getBits b 5).bind fun _ =>
    (advances_getBits b 23).seq fun _ => (advances_getBits b 1).seq fun _ => advances_pure _).mono (by decide)

theorem advances_readQuants (root : F32) (n : Nat) : Advances 0 (readQuants p root b n) := by
  induction n with
  | zero => exact advances_pure _
  | succ n ih => exact (advances_getBits b 8).seq fun _ => ih.seq fun _ => advances_pure _

theorem advances_readCoef (width : Nat) (q : F32) : Advances 0 (readCoef p b width q) := by
  refine (advances_getBits b width).seq fun v => ?_
  split
  · exact (advances_getBits b 1).seq fun _ => advances_pure _
  · exact (advances_getBits b _).seq fun _ => advances_pure _

theorem advances_nonzeroRun (quants : List F32) (width n i : Nat) (r : RunState) :
    Advances 0 (nonzeroRun p t quants b width n i r) := by
  induction n generalizing i r with
  | zero => exact advances_pure _
  | succ n ih => exact (advances_readCoef p b width _).seq fun _ => ih _ _

theorem advances_readRunEnd (i : Nat) : Advances 0 (readRunEnd b i) := by
  refine (advances_getBits b 1).seq fun flag => ?_
  split
  · exact (advances_getBits b 4).seq fun _ => advances_pure _
  · exact advances_pure _

theorem advances_runsFrom (quants : List F32) (n i : Nat) (r : RunState) :
    Advances 0 (runsFrom p t quants b n i r) := by
  induction n generalizing i r with
  | zero => exact advances_pure _
  | succ n ih =>
    rw [runsFrom]
    dsimp only
    split
    · exact advances_pure _
    · refine (advances_readRunEnd b i).seq fun _ => (advances_getBits b 4).seq fun _ => ?_
      split
      · exact ih _ _
      · exact (advances_nonzeroRun p t b quants _ _ i r).seq fun _ => ih _ _

theorem advances_readChannel : Advances 1 (readChannel p t b) :=
  (advances_getFloat b).bind fun _ => ((advances_getFloat b).seq fun _ =>
    (advances_readQuants p b t.root _).seq fun _ =>
      (advances_runsFrom p t b _ _ _ _).seq fun _ => advances_pure _)

theorem advances_readChannels (n : Nat) : Advances 0 (readChannels p t b n) := by
  induction n with
  | zero => exact advances_pure _
  | succ n ih => exact (advances_readChannel p t b).seq fun _ => ih.seq fun _ => advances_pure _

/-- A block of one channel or more reads at least one bit. -/
theorem advances_readBlockBits (hch : 1 ≤ t.ch.toNat) : Advances 1 (readBlockBits p t b) := by
  obtain ⟨n, hn⟩ := Nat.exists_eq_add_of_le' hch
  rw [readBlockBits, hn]
  refine ((advances_getBits b _).bind fun _ => (advances_readChannel p t b).bind fun _ =>
    (advances_readChannels p t b n).seq fun _ => advances_pure _).mono ?_
  omega

end Readers

theorem le_alignPos (pos : Nat) : pos ≤ alignPos pos := by
  unfold alignPos
  split <;> omega

/-! ### The block loop -/

/-- The three ends of the block loop, at bit position `pos` in state `u` (R117): no bits remain; the next block
does not fit; the next block reads past the end. -/
inductive LoopEnds (b : BitSource) (cap pos : Nat) (u : State) : Out → Prop
  | completes : b.size ≤ pos → LoopEnds b cap pos u (complete 4 u)
  | overflows : pos < b.size → cap < u.track.outCnt.toNat + u.track.blockSize.toNat →
      LoopEnds b cap pos u (raise .audOutOvf u.track.outCnt (faultTrack u))
  | overruns (q : Nat) : pos < b.size → u.track.outCnt.toNat + u.track.blockSize.toNat ≤ cap →
      readBlockBits u.params u.track b pos = .error q →
      LoopEnds b cap pos u (raise .bitOverrun (bitPosWord q) (faultTrack u))

/-- The block loop decodes a chain of blocks and ends behind it, by induction on its turns: a turn for each bit
that remains, and one more, suffices. -/
theorem packetLoop_ends {b : BitSource} {dst cap n pos : Nat} {s : State} (hch : 1 ≤ s.track.ch.toNat)
    (hn : b.size < n + pos) :
    ∃ pos' u, Blocks b dst cap pos s pos' u ∧ LoopEnds b cap pos' u (packetLoop b dst cap n pos s) := by
  induction n generalizing pos s with
  | zero => exact ⟨pos, s, .stop pos s, .completes (by omega)⟩
  | succ n ih =>
    unfold packetLoop
    split
    · rename_i hsize
      exact ⟨pos, s, .stop pos s, .completes hsize⟩
    · rename_i hsize
      have hpos := Nat.lt_of_not_le hsize
      split
      · rename_i hcap
        exact ⟨pos, s, .stop pos s, .overflows hpos hcap⟩
      · rename_i hcap
        have hfits := Nat.le_of_not_lt hcap
        split
        · rename_i q hread
          exact ⟨pos, s, .stop pos s, .overruns q hpos hfits hread⟩
        · rename_i chans q hread
          have hq := advances_readBlockBits s.params s.track b hch pos chans q hread
          have halign := le_alignPos q
          obtain ⟨pos', u, hblocks, hend⟩ := ih (s := commitBlock dst chans s) hch
            (pos := alignPos q) (by omega)
          exact ⟨pos', u, .block pos q pos' s u chans hpos hfits hread hblocks, hend⟩

/-- Blocks leave CMDPTR. -/
theorem cmdptr_of_blocks {b : BitSource} {dst cap pos pos' : Nat} {s u : State}
    (h : Blocks b dst cap pos s pos' u) : u.cmdptr = s.cmdptr := by
  induction h with
  | stop => rfl
  | block _ _ _ _ _ _ _ _ _ _ ih => exact ih

/-- A configured track has a channel (R113). -/
theorem one_le_ch_of_trackOk {t : Track} (h : TrackOk t) (hvalid : t.valid = true) : 1 ≤ t.ch.toNat := by
  rcases h with rfl | ⟨-, ⟨stereo, hconf⟩, -⟩
  · cases hvalid
  · rw [hconf]
    refine (?_ : 1 ≤ channelCount t.codec stereo).trans_eq (AudioTrack.configuredTrack_ch t.rate _ _).symm
    unfold channelCount
    split_ifs <;> omega

/-- A packet that passes its checks goes on to its blocks. -/
theorem exec_audPkt_pass {src avail dst cap : Word} {s : State} (hok : PacketOk s src avail dst cap) :
    exec (.audPkt src avail dst cap) s = audPacket src (readWord s src.toNat) dst cap s := by
  obtain ⟨hvalid, hfault, hdst, hsrc, hout, havail, hfits⟩ := hok
  change execAudPkt src avail dst cap s = _
  rw [execAudPkt, check_of_true (by simp [hvalid, hfault]), check_of_true ((alignedTo_iff _ _).2 hdst),
    check_of_true ((inDmem_iff _ _ _).2 hsrc), check_of_true ((inDmem_iff _ _ _).2 hout),
    check_of_true (decide_eq_true havail), check_of_true (decide_eq_true hfits)]

/-- A packet of four bytes or more is decoded from bit 0 of its bitstream on (R116, R117). -/
theorem exec_audPkt_blocks {src avail dst cap : Word} {s : State} (hok : PacketOk s src avail dst cap)
    (hlen : 4 ≤ (readWord s src.toNat).toNat) :
    exec (.audPkt src avail dst cap) s =
      packetLoop (packetBits src (readWord s src.toNat) s) dst.toNat cap.toNat
        ((packetBits src (readWord s src.toNat) s).size + 1) 0
        (beginPacket src (readWord s src.toNat) (readWord s (src.toNat + 4)) s) := by
  rw [exec_audPkt_pass hok, audPacket, if_neg (Nat.not_lt_of_le hlen)]

/-- Settles O36: the ends of the block loop, with the start state's CMDPTR. -/
theorem audPktDecodesBlocksInOrder : Obligations.AudPktDecodesBlocksInOrder := by
  intro src avail dst cap s hok htrack hlen L b
  rw [exec_audPkt_blocks hok hlen]
  have hvalid : s.track.valid = true := hok.1
  have hch : 1 ≤ s.track.ch.toNat := one_le_ch_of_trackOk htrack hvalid
  obtain ⟨pos, u, hblocks, hend⟩ := packetLoop_ends (b := b) (dst := dst.toNat) (cap := cap.toNat)
    (n := b.size + 1) (pos := 0) (s := beginPacket src L (readWord s (src.toNat + 4)) s) hch (Nat.lt_succ_self _)
  have hptr : u.cmdptr = s.cmdptr := (cmdptr_of_blocks hblocks).trans rfl
  refine ⟨pos, u, hblocks, ?_⟩
  generalize packetLoop _ _ _ _ _ _ = out at hend ⊢
  cases hend with
  | completes hsize => exact .inl ⟨hsize, by rw [complete_eq, hptr]; rfl⟩
  | overflows hpos hcap => exact .inr (.inl ⟨hpos, hcap, rfl⟩)
  | overruns q hpos hfits hread =>
    exact .inr (.inr ⟨q, bitPosWord q, bitPosWord_toNat, hpos, hfits, hread, rfl⟩)

/-! ### One block -/

section Results

variable (p : Params) (t u : Track) (b : BitSource)

/-! What AUD_PKT writes of the track plays no part in reading a block. -/

theorem catchUp_withResults (quants : List F32) (i n : Nat) (r : RunState) :
    catchUp (withResults t u) quants i n r = catchUp t quants i n r := by
  induction n generalizing r with
  | zero => rfl
  | succ n ih =>
    rw [catchUp, catchUp, ih]
    rfl

theorem nonzeroRun_withResults (quants : List F32) (width n i : Nat) (r : RunState) :
    nonzeroRun p (withResults t u) quants b width n i r = nonzeroRun p t quants b width n i r := by
  induction n generalizing i r with
  | zero => rfl
  | succ n ih => exact bind_congr fun _ => ih _ _

theorem runsFrom_withResults (quants : List F32) (n i : Nat) (r : RunState) :
    runsFrom p (withResults t u) quants b n i r = runsFrom p t quants b n i r := by
  induction n generalizing i r with
  | zero => rfl
  | succ n ih =>
    simp only [runsFrom, catchUp_withResults, nonzeroRun_withResults, ih]
    rfl

theorem readChannel_withResults : readChannel p (withResults t u) b = readChannel p t b := by
  simp only [readChannel, runsFrom_withResults]
  rfl

theorem readChannels_withResults (n : Nat) :
    readChannels p (withResults t u) b n = readChannels p t b n := by
  induction n with
  | zero => rfl
  | succ n ih => rw [readChannels, readChannels, ih, readChannel_withResults]

theorem readBlockBits_withResults : readBlockBits p (withResults t u) b = readBlockBits p t b := by
  simp only [readBlockBits, readChannels_withResults]
  rfl

end Results

/-- Byte 2k + j of consecutive halfwords. -/
theorem halfBytes_getD (hs : List Half) (k j : Nat) (hk : k < hs.length) (hj : j < 2) :
    (hs.flatMap bytesOfHalf).getD (2 * k + j) 0#8 = (bytesOfHalf (hs.getD k 0#16)).getD j 0#8 := by
  induction hs generalizing k with
  | nil => exact absurd hk (Nat.not_lt_zero k)
  | cons h hs ih =>
    rw [List.flatMap_cons]
    cases k with
    | zero => rw [Nat.mul_zero, Nat.zero_add, List.getD_append _ _ _ _ hj]; rfl
    | succ k =>
      rw [List.getD_append_right _ _ _ _ (by rw [bytesOfHalf_length]; omega), bytesOfHalf_length,
        show 2 * (k + 1) + j - 2 = 2 * k + j by omega, ih k (Nat.lt_of_succ_lt_succ hk), List.getD_cons_succ]

/-- The two bytes of a halfword make it up again. -/
theorem append_bytes (h : Half) : h.extractLsb' 8 8 ++ h.extractLsb' 0 8 = h := by
  apply BitVec.eq_of_getLsbD_eq
  intro i hi
  rw [BitVec.getLsbD_append, BitVec.getLsbD_extractLsb', BitVec.getLsbD_extractLsb']
  by_cases h8 : i < 8
  · simp [h8]
  · simp [h8, show i - 8 < 8 by omega, show 8 + (i - 8) = i by omega]

/-- Halfword k of consecutive halfwords written at `a` reads back (00_scope.md R12). -/
theorem readHalf_store_halves (s : State) (a : Nat) (hs : List Half) (k : Nat) (h : k < hs.length) :
    readHalf (store s a (hs.flatMap bytesOfHalf)) (a + 2 * k) = hs.getD k 0#16 := by
  have hbyte : ∀ j, j < 2 → readByte (store s a (hs.flatMap bytesOfHalf)) (a + 2 * k + j) =
      (bytesOfHalf (hs.getD k 0#16)).getD j 0#8 := by
    intro j hj
    rw [Nat.add_assoc, readByte_store_inside _ _ _ _ (by rw [MemoryForm.halfBytes_length]; omega),
      halfBytes_getD hs k j h hj]
  have hlow : readByte (store s a (hs.flatMap bytesOfHalf)) (a + 2 * k) = _ := hbyte 0 (by decide)
  rw [readHalf, hbyte 1 (by decide), hlow]
  exact append_bytes _

/-- The samples of a block after the overlap-add (R121, R127, R128). -/
def blockOut (chans : List (Array F32)) (s : State) : Array Half :=
  overlapAdd s.track (pcmSamples s.params s.track s.draws (chans.map (trackTransform s.params s.track)))

section Commit

variable (dst : Nat) (chans : List (Array F32)) (u : State)

theorem readHalf_commitBlock {i : Nat} (h : i < u.track.blockSize.toNat) :
    readHalf (commitBlock dst chans u) (dst + 2 * u.track.outCnt.toNat + 2 * i) =
      sampleAt (blockOut chans u) i := by
  have hstore := readHalf_store_halves u (dst + 2 * u.track.outCnt.toNat)
    (emitted u.track (blockOut chans u)) i (by rwa [emitted_length])
  have hsample : (emitted u.track (blockOut chans u)).getD i 0#16 = sampleAt (blockOut chans u) i := by
    simp [emitted, h]
  exact hstore.trans hsample

theorem commitBlock_sameOutside :
    SameOutside (InRegion (dst + 2 * u.track.outCnt.toNat) (2 * u.track.blockSize.toNat)) u
      (commitBlock dst chans u) := by
  have h := BufferLaws.sameOutside_store u (dst + 2 * u.track.outCnt.toNat)
    ((emitted u.track (blockOut chans u)).flatMap bytesOfHalf)
  rwa [MemoryForm.halfBytes_length, emitted_length] at h

/-- PREV takes the samples behind the block (R128). -/
theorem prevAt_commitBlock {i : Nat} (h : i < overlapCount u.track) (h256 : i < 256) :
    prevAt (commitBlock dst chans u).track i = sampleAt (blockOut chans u) (u.track.blockSize.toNat + i) :=
  (prevAt_cacheTail u.track (blockOut chans u) i h256).trans (if_pos h)

end Commit

/-- PREV holds the overlap of every configured track (R113): only interleaved stereo, which has one channel, has
4096 coefficients. -/
theorem overlap_mul_channelCount_le (rate : Nat) (codec : Codec) (stereo : Bool) :
    2 ^ frameBits rate codec stereo / 16 * channelCount codec stereo ≤ 256 := by
  cases hinter : interleaved codec stereo with
  | true =>
    obtain ⟨-, hF⟩ := AudioTrack.two_pow_frameBits_bounds rate codec stereo
    rw [channelCount, hinter, if_pos rfl]
    omega
  | false =>
    have hfb : frameBits rate codec stereo ≤ 11 := by
      rw [frameBits, hinter, if_neg Bool.false_ne_true]
      split_ifs <;> omega
    have hF : 2 ^ frameBits rate codec stereo ≤ 2048 := Nat.pow_le_pow_right (n := 2) (by decide) hfb
    exact Nat.mul_le_mul (by omega : _ ≤ 128) (AudioTrack.channelCount_le_two codec stereo)

theorem overlapCount_le_of_trackOk {t : Track} (h : TrackOk t) (hvalid : t.valid = true) :
    overlapCount t ≤ 256 := by
  rcases h with rfl | ⟨-, ⟨stereo, hconf⟩, -⟩
  · cases hvalid
  · rw [hconf]
    change (configuredTrack t.rate t.codec stereo).overlap.toNat *
      (configuredTrack t.rate t.codec stereo).ch.toNat ≤ 256
    rw [AudioTrack.configuredTrack_overlap, AudioTrack.configuredTrack_ch]
    exact overlap_mul_channelCount_le _ _ _

section Loop

variable {b : BitSource} {dst cap n pos q : Nat} {s : State} {chans : List (Array F32)}

theorem packetLoop_done (h : b.size ≤ pos) : packetLoop b dst cap n pos s = complete 4 s := by
  cases n with
  | zero => rfl
  | succ n => exact if_pos h

theorem packetLoop_block (hpos : pos < b.size)
    (hfits : s.track.outCnt.toNat + s.track.blockSize.toNat ≤ cap)
    (hread : readBlockBits s.params s.track b pos = .ok (chans, q)) :
    packetLoop b dst cap (n + 1) pos s = packetLoop b dst cap n (alignPos q) (commitBlock dst chans s) := by
  rw [packetLoop, if_neg (Nat.not_le_of_lt hpos), if_neg (Nat.not_lt_of_le hfits), hread]

end Loop

theorem packetBits_size (src len : Word) (s : State) : (packetBits src len s).size = 8 * (len.toNat - 4) :=
  congrArg (8 * ·) (readBytes_length _ _ _)

/-- Settles O35: one turn of the loop commits the block at dst, as OUTCNT starts at 0; the next turn ends it. -/
theorem audPktOneBlock : Obligations.AudPktOneBlock := by
  intro src avail dst cap s chans q hok htrack hlen hcap hread hend out
  have hvalid : s.track.valid = true := hok.1
  let L := readWord s src.toNat
  let u := beginPacket src L (readWord s (src.toNat + 4)) s
  have hsize : 0 < (packetBits src L s).size := by
    rw [packetBits_size]
    exact Nat.mul_pos (by decide) (Nat.sub_pos_of_lt hlen)
  have hfits : u.track.outCnt.toNat + u.track.blockSize.toNat ≤ cap.toNat := by
    rwa [show u.track.outCnt.toNat = 0 from rfl, Nat.zero_add]
  have hread' : readBlockBits u.params u.track (packetBits src L s) 0 = .ok (chans, q) :=
    (congrFun (readBlockBits_withResults s.params s.track u.track _) 0).trans hread
  have hexec : exec (.audPkt src avail dst cap) s = complete 4 (commitBlock dst.toNat chans u) := by
    rw [exec_audPkt_blocks hok hlen.le, packetLoop_block hsize hfits hread',
      packetLoop_done (by rwa [packetBits_size])]
  refine ⟨_, hexec, rfl, ?_, fun i => readHalf_commitBlock dst.toNat chans u, fun i hi => ?_,
    (packetWrites_commitBlock dst.toNat chans u).prev, commitBlock_sameOutside dst.toNat chans u⟩
  · rw [← BitVec.zero_add s.track.blockSize]
    rfl
  · exact prevAt_commitBlock dst.toNat chans u hi (hi.trans_le (overlapCount_le_of_trackOk htrack hvalid))

/-! ### The faulted track -/

/-- R118: where an outcome is one of the two execution errors, FAULT is set. -/
def FaultsOnDecodeError (o : Out) : Prop :=
  ∀ t, o = .next t → t.err = true →
    t.errCode = errorCode .audOutOvf ∨ t.errCode = errorCode .bitOverrun → t.track.fault = true

theorem faultsOnDecodeError_complete {s : State} (k : Nat) (h : s.err = false) :
    FaultsOnDecodeError (complete k s) := by
  intro t ht herr
  obtain rfl := complete_next ht
  rw [h] at herr
  cases herr

theorem faultsOnDecodeError_raise (e : BteError) (info : Word) (s : State) :
    FaultsOnDecodeError (raise e info (faultTrack s)) := by
  intro t ht _ _
  obtain rfl := Host.Outcome.next.inj ht
  rfl

/-- A check that raises neither of the two errors. -/
theorem faultsOnDecodeError_check {ok : Bool} {e : BteError} {info : Word} {s : State} {o : Out}
    (he : errorCode e ≠ errorCode .audOutOvf ∧ errorCode e ≠ errorCode .bitOverrun)
    (ho : FaultsOnDecodeError o) : FaultsOnDecodeError (check ok e info s o) := by
  intro t ht herr hcode
  rcases check_next ht with ⟨-, ht⟩ | ⟨-, rfl⟩
  · exact ho t ht herr hcode
  · obtain ⟨hovf, hover⟩ := he
    exact hcode.elim (fun h => absurd h hovf) (fun h => absurd h hover)

theorem faultsOnDecodeError_packetLoop (b : BitSource) (dst cap n pos : Nat) {s : State} (h : s.err = false) :
    FaultsOnDecodeError (packetLoop b dst cap n pos s) := by
  induction n generalizing pos s with
  | zero => exact faultsOnDecodeError_complete 4 h
  | succ n ih =>
    unfold packetLoop
    split
    · exact faultsOnDecodeError_complete 4 h
    · split
      · exact faultsOnDecodeError_raise _ _ s
      · split
        · exact faultsOnDecodeError_raise _ _ s
        · exact ih _ (s := commitBlock dst _ s) h

theorem faultsOnDecodeError_audPkt (src avail dst cap : Word) {s : State} (h : s.err = false) :
    FaultsOnDecodeError (exec (.audPkt src avail dst cap) s) := by
  refine faultsOnDecodeError_check (by decide) <| faultsOnDecodeError_check (by decide) <|
    faultsOnDecodeError_check (by decide) <| faultsOnDecodeError_check (by decide) <|
    faultsOnDecodeError_check (by decide) <| faultsOnDecodeError_check (by decide) ?_
  unfold audPacket
  split
  · exact faultsOnDecodeError_complete 4 h
  · exact faultsOnDecodeError_packetLoop _ _ _ _ _ h

/-- AUD_PKT on a faulted track raises AUD_STATE (R117). -/
theorem exec_audPkt_faulted (src avail dst cap : Word) {s : State} (h : s.track.fault = true) :
    exec (.audPkt src avail dst cap) s = .next (takeError .audState (mmioValue s 0x100) s) :=
  (PacketInput.audPktChecksInOrder src avail dst cap s).1 (.inr h)

/-- Settles O38: the loop sets FAULT before it raises; AUD_STATE is the first check; no other command writes the
track. -/
theorem faultedTrackStaysFaulted : Obligations.FaultedTrackStaysFaulted := by
  refine ⟨fun src avail dst cap s t _ herr => faultsOnDecodeError_audPkt src avail dst cap herr t,
    fun src avail dst cap s h => exec_audPkt_faulted src avail dst cap h, fun i s t h hcfg hexec => ?_⟩
  by_cases hpkt : ∃ src avail dst cap, i = .audPkt src avail dst cap
  · obtain ⟨src, avail, dst, cap, rfl⟩ := hpkt
    rw [exec_audPkt_faulted src avail dst cap h] at hexec
    obtain rfl := Host.Outcome.next.inj hexec
    exact h
  · push Not at hpkt
    obtain ⟨-, -, htrack, -⟩ := eachUnitWritesItsOwnState i s t hexec
    rw [htrack hcfg hpkt]
    exact h

end Sys2Proof.Packets
end

section
/-!
Errors (60_exceptions.md R129 to R132): what taking one writes, and that a check raises it on the state in which the
command began.
-/

namespace Sys2Proof.Exceptions

open Sys2Proof Sys2Proof.Machine Sys2Proof.Laws Sys2Proof.IllegalHeaders

/-- R135: an error sets ERR, so IRQ then follows IRQEN. -/
@[simp] theorem irq_takeError (e : BteError) (v : Word) (s : State) : irq (takeError e v s) = s.irqEn := by
  simp [irq]

/-- R131: with ERR set and neither of the two codes that AUD_PKT raises between blocks, a check failed on the state
in which the command began. -/
theorem takeError_of_leavesErr {s t : State} (h : LeavesErr s t) (hs : s.err = false) (ht : t.err = true)
    (hover : t.errCode ≠ errorCode .bitOverrun) (hovf : t.errCode ≠ errorCode .audOutOvf) :
    ∃ e v, t = takeError e v s := by
  cases h with
  | quiet _ hquiet => rw [hquiet, hs] at ht; cases ht
  | failedCheck e info => exact ⟨e, info, rfl⟩
  | failedBlock e info u he =>
    rcases he with rfl | rfl
    · exact absurd (takeError_errCode _ _ u) hover
    · exact absurd (takeError_errCode _ _ u) hovf

/-! ### The obligations -/

/-- Settles O11: raising is `takeError`, which leaves CMDPTR at the header and sets ERR. -/
theorem errorEntry : Obligations.ErrorEntry :=
  fun e v s => ⟨raise_eq e v s, irq_takeError e v s⟩

/-- Settles O12: a command raises only by a failed check or between two audio blocks, and the codes exclude the
audio blocks. -/
theorem errorsPrecedeWrites : Obligations.ErrorsPrecedeWrites := by
  intro i s t _ hs hexec ht hover hovf
  exact takeError_of_leavesErr (exec_raisesWithin i s t hexec) hs ht hover hovf

end Sys2Proof.Exceptions
end
